-- ==== Sys2Proof/Word.lean ====
section
/-! DEFINITION. The words of MDC-ICP: their widths (00_scope.md R7, R9; 30_encoding.md R95, R97) and the names
of the two units (00_scope.md R10). A signed register is the bit pattern of its two's-complement value; its
signed reading is `BitVec.toInt`. -/

namespace Sys2Proof

/-- `u8`: one byte of the sensor bus (20_memory.md R60). -/
abbrev Byte := BitVec 8

/-- The 7-bit bus address of a device (00_scope.md R6, `SENSOR_ADDR`). -/
abbrev BusAddr := BitVec 7

/-- `s16`: one component of a raw sample (10_state.md R22, R23). -/
abbrev S16 := BitVec 16

/-- `s32`: an angle in hundredths of a degree (10_state.md R25, R26). -/
abbrev S32 := BitVec 32

/-- `u32`: one word of the channel, `W_WORD` = 32 (30_encoding.md R95; 92_eei_decisions.md D1). -/
abbrev Word := BitVec 32

/-- A binary32 bit pattern, the spec's `F` (00_scope.md R9; 41_orientation_encoder.md R151). -/
abbrev F32 := BitVec 32

/-- Format `CMD`: a command of 36 bits (30_encoding.md R97). -/
abbrev Cmd := BitVec 36

/-- The two processing units, and with them the two command ports (00_scope.md R10; 30_encoding.md R100). -/
inductive UnitId where
  | A
  | B
  deriving DecidableEq, Repr, Inhabited

end Sys2Proof
end

