-- ==== Sys2Proof/Config.lean ====
section
/-! DEFINITION. What is fixed when the block is built (00_scope.md R6). Values fixed by the source or decided by
the spec are constants; the parameters marked OPEN that are plain data are the fields of `Params`, which State
carries and no step writes; the two open functions and the free values are opaque constants without a body. -/

namespace Sys2Proof

/-- A program (30_encoding.md R110): a list of command words and an optional loop-back index. The words are the
raw commands, decoded when the sequencer reaches them (43_sequencers.md R211). -/
structure Program where
  cmds   : List Cmd
  loopTo : Option Nat
  deriving DecidableEq, Repr

/-- The parameters of 00_scope.md R6 that are plain data and may differ from one build of the block to another. -/
structure Params where
  /-- `CH_DEPTH`, OPEN: capacity of the channel in words, at least 1. -/
  chDepth    : Nat
  /-- `SENSOR_ADDR`, OPEN: the sensor's bus address. -/
  sensorAddr : BusAddr
  /-- `READ_UNUSED`: whether gyroscope and temperature are read each cycle. -/
  readUnused : Bool
  /-- `PROG_A`: the program of unit A. -/
  progA      : Program
  /-- `PROG_B`: the program of unit B. -/
  progB      : Program
  deriving DecidableEq, Repr

/-- The program a unit runs (43_sequencers.md R210). -/
def Params.prog (p : Params) : UnitId → Program
  | .A => p.progA
  | .B => p.progB

/-- A text with exactly one decimal place (43_sequencers.md R217): an optional minus sign, decimal digits (at
least one), a point and one digit. -/
structure OneDecimal where
  minus : Bool
  lead  : Fin 10
  more  : List (Fin 10)
  tenth : Fin 10
  deriving DecidableEq, Repr, Inhabited

namespace Config

/-- `REG_PWR`, the power-management register (00_scope.md R6). -/
def regPwr : Byte := 0x6B
/-- `REG_ACCEL`, the first acceleration register (00_scope.md R6). -/
def regAccel : Byte := 0x3B
/-- `REG_TEMP`, the first temperature register (00_scope.md R6). -/
def regTemp : Byte := 0x41
/-- `REG_GYRO`, the first gyroscope register (00_scope.md R6). -/
def regGyro : Byte := 0x43
/-- The last data register of the sensor's map (10_state.md R38). -/
def regDataLast : Byte := 0x48
/-- `PWR_RESET_VAL` (00_scope.md R6, D4). PRESUMED: the spec took the value from general knowledge; log 5. -/
def pwrResetVal : Byte := 0x80
/-- `PWR_RUN_VAL` (00_scope.md R6, D4). PRESUMED: the spec took the value from general knowledge; log 5. -/
def pwrRunVal : Byte := 0x00
/-- `T_RESET_HOLD` in milliseconds (00_scope.md R6). -/
def tResetHold : Word := 100
/-- `T_RESET_SETTLE` in milliseconds (00_scope.md R6). -/
def tResetSettle : Word := 10
/-- `SCALE` as a binary32 value, 100.0 (00_scope.md R6; 41_orientation_encoder.md R157). -/
def scale : F32 := 0x42C80000
/-- `ACCEL_SENS` as a binary32 value, 16384.0 (00_scope.md R6; 41_orientation_encoder.md R152). -/
def accelSens : F32 := 0x46800000
/-- `IND_RESET` (00_scope.md R6, D29). -/
def indReset : Bool := false

/-- The canonical producer loop (30_encoding.md R110). -/
def canonicalProgA : Program where
  cmds := [0x100000000, 0x200000000, 0x300000000, 0x400000000, 0x500000000, 0x500000001, 0xC00000000, 0x7000000FA]
  loopTo := some 1

/-- The canonical consumer loop (30_encoding.md R110). -/
def canonicalProgB : Program where
  cmds := [0x800000000, 0x800000001, 0x900000000, 0xA00000000, 0xB00000000]
  loopTo := some 0

/-- The defaults of 00_scope.md R6. PRESUMED for the depth 8 and the address 0x68 (log 4): no statement rests on
either. -/
def defaults : Params where
  chDepth := 8
  sensorAddr := 0x68
  readUnused := true
  progA := canonicalProgA
  progB := canonicalProgB

/-- FREE VALUE (log 6): which unit steps next, where the schedule in State says nothing (20_memory.md R77). -/
opaque freeTurn : Nat → UnitId
/-- FREE VALUE (log 7): the sensor's answer to a transfer, true for `Ack` (40_sensor_driver.md R120). -/
opaque freeAck : Nat → Bool
/-- FREE VALUE (log 7): a byte drawn from the sensor (10_state.md R40). -/
opaque freeByte : Nat → Byte
/-- FREE VALUE (log 8): the arctangent before the named properties of 41_orientation_encoder.md R153 are imposed. -/
opaque freeAtan2 : F32 → F32 → F32
/-- FREE VALUE (log 8): the root of the sum of squares before the named properties of R153 are imposed. -/
opaque freeHyp : F32 → F32 → F32
/-- FREE VALUE (log 9): the text of a finite value before the property of 43_sequencers.md R217 is imposed. -/
opaque freeText : F32 → OneDecimal
/-- FREE VALUE (log 9): the text of a value that is not finite, of which R217 says nothing. -/
opaque freeTextNonFinite : F32 → String

end Config

end Sys2Proof
end

