-- ==== Sys2Proof/Syntax.lean ====
section
/-! DEFINITION. The operations of MDC-ICP: one constructor per row of spec/opcode_table.json, the twelve commands
of 30_encoding.md R100 and the eight bus transfers of R101. -/

namespace Sys2Proof

/-- The operand `sel` of `PUSH` and `POP` (30_encoding.md R98): 0 selects the roll register, 1 the pitch
register (the aliases of R108). -/
inductive Sel where
  | roll
  | pitch
  deriving DecidableEq, Repr, Inhabited

/-- The operations. The bytes of a read transfer are those the sensor answers with (30_encoding.md R91, R101). -/
inductive Instr where
  | sreset
  | sread
  | orient
  | encode
  | push (sel : Sel)
  | pushi (imm : Word)
  | wait (n : Word)
  | pop (sel : Sel)
  | decode
  | toggle
  | redraw
  | diag
  | bwPwrReset
  | bwPwrRun
  | bwPtrAccel
  | brAccel (xHi xLo yHi yLo zHi zLo : Byte)
  | bwPtrGyro
  | brGyro (xHi xLo yHi yLo zHi zLo : Byte)
  | bwPtrTemp
  | brTemp (tHi tLo : Byte)
  deriving DecidableEq, Repr

/-- The formats of 30_encoding.md R93 and R97, named as in spec/opcode_table.json. -/
inductive Format where
  | cmd
  | bw2
  | bw1
  | br6
  | br2
  deriving DecidableEq, Repr

/-- The format of each row of the table (30_encoding.md R112). -/
def Instr.format : Instr → Format
  | .sreset | .sread | .orient | .encode | .push _ | .pushi _ | .wait _ | .pop _ | .decode | .toggle
  | .redraw | .diag => .cmd
  | .bwPwrReset | .bwPwrRun => .bw2
  | .bwPtrAccel | .bwPtrGyro | .bwPtrTemp => .bw1
  | .brAccel .. | .brGyro .. => .br6
  | .brTemp .. => .br2

/-- A bus transfer as it stands on the bus, at transfer level (30_encoding.md R93): a write carries its data
bytes and its end mark, a read the bytes the device returned. The device address is `SENSOR_ADDR` throughout. -/
inductive BusFrame where
  | write (bytes : List Byte) (nostop : Bool)
  | read (bytes : List Byte)
  deriving DecidableEq, Repr

/-- What a decoder is given: a command word, or a bus transfer together with the register address at which a
read begins, which no read transfer carries itself (30_encoding.md R91, R93: "from the pointer on"). -/
inductive Code where
  | cmd (c : Cmd)
  | frame (ptr : Byte) (f : BusFrame)
  deriving DecidableEq, Repr

/-- Why a decoder gives no operation: the cases of 30_encoding.md R102, R103 and R104, and a transfer that is
no row of R101. -/
inductive Illegal where
  | reservedOp
  | reservedArg
  | wrongPort
  | unknownTransfer
  deriving DecidableEq, Repr

end Sys2Proof
end

