-- ==== Sys2Proof/Machine/State.lean ====
section
/-! DEFINITION. The state of MDC-ICP as plain data (10_state.md), grouped by owner as R20 groups it, the reasons a
step can stop, and the state after reset (R47). -/

namespace Sys2Proof.Machine

/-- `st_A` (10_state.md R32). -/
inductive StA where
  | run
  | stalled
  | done
  deriving DecidableEq, Repr

/-- `st_B` (10_state.md R32); unit B cannot stall (60_exceptions.md R262). -/
inductive StB where
  | run
  | done
  deriving DecidableEq, Repr

/-- `drv_state` (10_state.md R36). -/
inductive DrvState where
  | uninit
  | ready
  deriving DecidableEq, Repr

/-- `sd_mode` (10_state.md R44). -/
inductive SdMode where
  | sleep
  | resetting
  | awake
  deriving DecidableEq, Repr

/-- The data registers, by name (10_state.md R21, R29). -/
inductive DataReg where
  | ax | ay | az | gx | gy | gz | temp
  | rollA | pitchA | wmRoll | wmPitch
  | rxRoll | rxPitch | rollB | pitchB
  deriving DecidableEq, Repr

/-- The cells of the sensor register space that have been written, by address (10_state.md R38, R43): addresses
strictly rising. An unlisted address holds no known value (R47: "unspecified"; log 3). -/
abbrev Memory := List Host.Cell

/-- Events of unit A (10_state.md R45; 40_sensor_driver.md R123). -/
inductive EventA where
  | busW (dev : BusAddr) (bytes : List Byte) (nostop : Bool)
  | busR (dev : BusAddr) (n : Nat) (result : Option (List Byte))
  | wait (n : Word)
  | diag
  deriving DecidableEq, Repr

/-- Events of unit B (10_state.md R45). -/
inductive EventB where
  | ind (level : Bool)
  | redraw (roll pitch : String)
  deriving DecidableEq, Repr

/-- `info` of a `BusError` (60_exceptions.md R241): the kind of the failed transfer with the first byte written, or
with the byte count. It is stored in no register. -/
inductive BusErrorInfo where
  | busW (first : Byte)
  | busR (n : Nat)
  deriving DecidableEq, Repr

/-- The hardware's faults (60_exceptions.md R241): `BusError` is the only one. Unit A's transfers raise it, and it is
taken as a next state (R243), so it is no outcome of `step`. -/
inductive HardwareFault where
  | busError (info : BusErrorInfo)
  deriving DecidableEq, Repr

/-- The state owned by unit A (10_state.md R20). A data register that holds no value is `none` (R21). -/
structure UnitA where
  pc       : Nat
  st       : StA
  drv      : DrvState
  busFault : Bool
  ax       : Option S16
  ay       : Option S16
  az       : Option S16
  gx       : Option S16
  gy       : Option S16
  gz       : Option S16
  temp     : Option S16
  roll     : Option F32
  pitch    : Option F32
  wmRoll   : Option S32
  wmPitch  : Option S32
  deriving DecidableEq, Repr

/-- The state owned by unit B (10_state.md R20). -/
structure UnitB where
  pc      : Nat
  st      : StB
  rxRoll  : Option S32
  rxPitch : Option S32
  roll    : Option F32
  pitch   : Option F32
  ind     : Bool
  deriving DecidableEq, Repr

/-- The state of the sensor (10_state.md R20, R43, R44). -/
structure Sensor where
  ptr  : Byte
  mode : SdMode
  reg  : Memory
  deriving DecidableEq, Repr

/-- The ghost state (10_state.md R45). -/
structure Ghost where
  histPush : List Word
  histPop  : List Word
  traceA   : List EventA
  traceB   : List EventB
  deriving DecidableEq, Repr

/-- A stream of values drawn from outside the block: those given in advance, and how many free values have been
drawn after them. The model's own (logs 6, 7). -/
structure Draws (α : Type) where
  given : List α
  count : Nat
  deriving DecidableEq, Repr

/-- The inputs of the block (10_state.md R46: the schedule and the answers of the sensor), and a bus transfer to be
issued by itself (log 13). The model's own. -/
structure Inputs where
  turns  : Draws UnitId
  acks   : Draws Bool
  bytes  : Draws Byte
  busReq : Option BusFrame
  deriving DecidableEq, Repr

/-- The state of the machine (10_state.md R20), with the parameters of the block (R46), which no step writes. -/
structure State where
  params : Params
  a      : UnitA
  ch     : List Word
  b      : UnitB
  sensor : Sensor
  ghost  : Ghost
  inp    : Inputs
  deriving DecidableEq, Repr

/-- Why the machine stops with a fault. The one hardware fault, `HardwareFault.busError`, is no stop of the machine: it
is taken, as the next state of 60_exceptions.md R243. -/
inductive Fault where
  /-- Raised by `step`: the program index of unit `u` lies outside its program, which 10_state.md R30 and R31 exclude.
  Safe: no state of a run has it (log 12). -/
  | pcOutsideProgram (u : UnitId)
  deriving DecidableEq, Repr

/-- Why the machine refuses: the refusals of 60_exceptions.md R242, and two of the model's own. -/
inductive Refusal where
  /-- Raised by `exec` for an instruction without a meaning. Safe. No arm raises it. -/
  | notModelled (mnemonic : String)
  /-- Raised by `step`: the command word is illegal at the port of unit `u` (30_encoding.md R102 to R104). Safe. -/
  | illegalCommand (u : UnitId) (c : Cmd)
  /-- Raised by `step`: a transfer issued by itself is none of the eight of 30_encoding.md R101 (log 13). Safe. -/
  | unknownTransfer (ptr : Byte) (f : BusFrame)
  /-- Raised by `ORIENT`, `ENCODE`, `PUSH`, `DECODE`, `REDRAW`: the register holds no value, and the spec refuses the
  read (10_state.md R21; 60_exceptions.md R242; 93_implementation_defined.md U7). Safe. -/
  | readBeforeWrite (r : DataReg)
  /-- Raised by `SREAD` while `drv_state = DRV_UNINIT` (40_sensor_driver.md R133). Safe. -/
  | readBeforeReset
  /-- Raised by `SRESET` while `drv_state = DRV_READY` (40_sensor_driver.md R133). Safe. -/
  | secondReset
  /-- Raised by `ENCODE`: the value is outside the domain of the quantizer (41_orientation_encoder.md R157). Safe. -/
  | quantRange (v : F32)
  deriving DecidableEq, Repr

/-- The state after the reset event (10_state.md R47; 70_reset_and_hazards.md R270). The parameters have the defaults
of 00_scope.md R6 (log 4). DESIGN CHOICE: the sensor's pointer is 0 and its mode asleep (log 2), and no input is
given in advance (logs 6, 7, 13). -/
def State.reset : State where
  params := Config.defaults
  a :=
    { pc := 0, st := .run, drv := .uninit, busFault := false
      ax := none, ay := none, az := none, gx := none, gy := none, gz := none, temp := none
      roll := none, pitch := none, wmRoll := none, wmPitch := none }
  ch := []
  b :=
    { pc := 0, st := .run, rxRoll := none, rxPitch := none, roll := none, pitch := none, ind := Config.indReset }
  sensor := { ptr := 0, mode := .sleep, reg := [] }
  ghost := { histPush := [], histPop := [], traceA := [], traceB := [] }
  inp :=
    { turns := { given := [], count := 0 }, acks := { given := [], count := 0 }, bytes := { given := [], count := 0 }
      busReq := none }

end Sys2Proof.Machine
end

