-- ==== Sys2Proof/Machine/Flags.lean ====
section
/-! DEFINITION. Status that is computed and not stored: the channel's level (10_state.md R33), the indicator's next
level (R34) and which units run (R32). -/

namespace Sys2Proof.Machine

/-- `ch_level` (10_state.md R33). -/
def State.chLevel (s : State) : Nat := s.ch.length

/-- `ch_empty` (10_state.md R33). -/
def State.chEmpty (s : State) : Bool := s.chLevel == 0

/-- `ch_full` (10_state.md R33). -/
def State.chFull (s : State) : Bool := s.chLevel == s.params.chDepth

/-- The test of `ChPush`: `|ch_q| < CH_DEPTH` (42_channel.md R181). -/
def State.chHasRoom (s : State) : Bool := decide (s.chLevel < s.params.chDepth)

/-- `ind ^ 1` (10_state.md R34; 43_sequencers.md R216). -/
def toggled (level : Bool) : Bool := !level

/-- A unit steps only while its status is `RUN` (10_state.md R32). -/
def State.running (s : State) : UnitId → Bool
  | .A => s.a.st == .run
  | .B => s.b.st == .run

/-- The program index of a unit (10_state.md R30, R31). -/
def State.pc (s : State) : UnitId → Nat
  | .A => s.a.pc
  | .B => s.b.pc

end Sys2Proof.Machine
end

