-- ==== Sys2Proof/Machine/Operands.lean ====
section
/-! DEFINITION. Operand forms: the assembly of 16-bit samples (30_encoding.md R90 to R92), the carriage of a signed
value in a channel word (R95), and the registers an operand `sel` selects (R98). -/

namespace Sys2Proof.Machine

/-- `(zext_16(hi) << 8) | zext_16(lo)`, read as `s16` (30_encoding.md R92; 20_memory.md R63). -/
def assemble (hi lo : Byte) : S16 :=
  (hi.setWidth 16 <<< 8) ||| lo.setWidth 16

/-- Byte `k` of a burst. -/
def burstByte (b : List Byte) (k : Nat) : Byte := b.getD k 0

/-- Component `k` of a burst: bytes `2k` and `2k + 1` (40_sensor_driver.md R129; 30_encoding.md R91). -/
def component (b : List Byte) (k : Nat) : S16 :=
  assemble (burstByte b (2 * k)) (burstByte b (2 * k + 1))

/-- `as_u32` of a signed 32-bit register: the same bits (30_encoding.md R95). -/
def asU32 (q : S32) : Word := q

/-- `as_s32` of a channel word: the same bits (30_encoding.md R95). -/
def asS32 (w : Word) : S32 := w

/-- The WireMessage register that `sel` selects (30_encoding.md R98). -/
def UnitA.wm (a : UnitA) : Sel → Option S32
  | .roll => a.wmRoll
  | .pitch => a.wmPitch

/-- The name of the WireMessage register that `sel` selects. -/
def wmRegOf : Sel → DataReg
  | .roll => .wmRoll
  | .pitch => .wmPitch

/-- The receive register that `sel` selects (30_encoding.md R98). -/
def UnitB.rx (b : UnitB) : Sel → Option S32
  | .roll => b.rxRoll
  | .pitch => b.rxPitch

/-- Write the receive register that `sel` selects (42_channel.md R185). -/
def UnitB.setRx (b : UnitB) (sel : Sel) (q : S32) : UnitB :=
  match sel with
  | .roll => { b with rxRoll := some q }
  | .pitch => { b with rxPitch := some q }

end Sys2Proof.Machine
end

