-- ==== Sys2Proof/Machine/Binary32.lean ====
section
/-! DEFINITION. Binary32 arithmetic (00_scope.md R9; 41_orientation_encoder.md R151, R152, R157, R160). Every finite
binary32 number is an integer multiple of 2^-149, so a value is computed with exactly, as that integer (its units),
and narrowed once, to the nearest value with ties to even. -/

namespace Sys2Proof.Machine

/-- The number of units in 1.0: a unit is 2^-149, the least positive binary32 number. -/
def unitsPerOne : Nat := 2 ^ 149

/-- The pattern of infinity without its sign. -/
def infMag : Nat := 0x7F800000

/-- The pattern without its sign bit. -/
def magBits (v : F32) : Nat := v.toNat % 2 ^ 31

/-- The units of a finite magnitude: biased exponent in bits 30:23, fraction in bits 22:0 (R151). -/
def magUnits (p : Nat) : Nat :=
  if p / 2 ^ 23 = 0 then p else (2 ^ 23 + p % 2 ^ 23) * 2 ^ (p / 2 ^ 23 - 1)

/-- The value is finite: neither infinite nor a NaN. -/
def isFinite (v : F32) : Bool := decide (magBits v < infMag)

/-- `real(f)` of a finite value, in units (00_scope.md R9). -/
def units (v : F32) : Int :=
  if v.msb then -(magUnits (magBits v) : Int) else (magUnits (magBits v) : Int)

/-- `real(f)` of a finite value (00_scope.md R9). -/
def realOf (v : F32) : Rat := (units v : Rat) / (unitsPerOne : Rat)

/-- `num / den` rounded to the nearest integer, ties to even. -/
def roundEven (num den : Nat) : Nat :=
  if 2 * (num % den) < den then num / den
  else if den < 2 * (num % den) then num / den + 1
  else num / den + num / den % 2

/-- How many low bits of `num / den` units fall outside the 24 significant bits (R151). -/
def excessBits (num den : Nat) : Nat := Nat.log2 (num / den) - 23

/-- The magnitude of `RN` of `num / den` units (00_scope.md R9). A carry out of the 24 bits moves the pattern to the
next exponent by itself. PRESUMED (log 10): a magnitude that rounds to 2^128 or beyond is infinite, as IEEE 754 has
it. -/
def roundMag (num den : Nat) : Nat :=
  min (excessBits num den * 2 ^ 23 + roundEven num (den * 2 ^ excessBits num den)) infMag

/-- A sign and a magnitude as a pattern. -/
def packF (neg : Bool) (mag : Nat) : F32 := BitVec.ofNat 32 ((if neg then 2 ^ 31 else 0) + mag)

/-- `f_mul` of finite operands (00_scope.md R9). PRESUMED (log 10): a zero product has the sign the operands' signs
give, as the table of 41_orientation_encoder.md R159 shows for -0. -/
def fMul (v w : F32) : F32 :=
  packF (v.msb ^^ w.msb) (roundMag (magUnits (magBits v) * magUnits (magBits w)) unitsPerOne)

/-- `f_div` of finite operands, the divisor not zero (00_scope.md R9). -/
def fDiv (v w : F32) : F32 :=
  packF (v.msb ^^ w.msb) (roundMag (magUnits (magBits v) * unitsPerOne) (magUnits (magBits w)))

/-- `f_of_int` (00_scope.md R9). -/
def fOfInt (i : Int) : F32 := packF (decide (i < 0)) (roundMag (i.natAbs * unitsPerOne) 1)

/-- `f_neg`: the sign bit flipped and nothing else (41_orientation_encoder.md R152). -/
def fNeg (v : F32) : F32 := v ^^^ 0x80000000#32

/-- The sign bit cleared. -/
def fAbs (v : F32) : F32 := v &&& 0x7FFFFFFF#32

/-- `trunc0(real(p))` of a finite value (00_scope.md R7). -/
def trunc0 (p : F32) : Int := (units p).tdiv unitsPerOne

/-- `norm` (41_orientation_encoder.md R152). -/
def normCount (c : S16) : F32 := fDiv (fOfInt c.toInt) Config.accelSens

/-- The quantizer `Q` (41_orientation_encoder.md R157); none where it refuses `QuantRange`. The product is rounded
to binary32 before it is truncated. -/
def quantize (v : F32) : Option S32 :=
  if isFinite v ∧ isFinite (fMul v Config.scale) ∧ -2 ^ 31 ≤ trunc0 (fMul v Config.scale) ∧
      trunc0 (fMul v Config.scale) ≤ 2 ^ 31 - 1 then
    some (BitVec.ofInt 32 (trunc0 (fMul v Config.scale)))
  else none

/-- The dequantizer `DQ` (41_orientation_encoder.md R160). -/
def dequantize (q : S32) : F32 := fDiv (fOfInt q.toInt) Config.scale

end Sys2Proof.Machine
end

