-- ==== Sys2Proof/Machine/Numerics.lean ====
section
/-! DEFINITION. The two open functions of the spec: the record `NUM` (41_orientation_encoder.md R153) and the text
format `FMT1` (43_sequencers.md R217). Each is a free value on which the properties the spec names are imposed: where
the free value breaks a property another value that keeps it is taken, so that the function ranges over exactly the
functions with these properties (logs 8, 9). -/

namespace Sys2Proof.Machine

/-- +0. -/
def posZero : F32 := 0x00000000
/-- -0. -/
def negZero : F32 := 0x80000000
/-- 90.0. -/
def deg90 : F32 := 0x42B40000
/-- -90.0. -/
def degNeg90 : F32 := 0xC2B40000
/-- 180.0. -/
def deg180 : F32 := 0x43340000
/-- -180.0. -/
def degNeg180 : F32 := 0xC3340000

/-- The cases of `atan2deg` that `P_axis` fixes (41_orientation_encoder.md R153). -/
def atan2Axis (y x : F32) : Option F32 :=
  if y = posZero ∨ y = negZero then
    if 0 < units x then some y
    else if units x < 0 then some (if y = posZero then deg180 else degNeg180)
    else if x = posZero then some y
    else none
  else if x = posZero then some (if 0 < units y then deg90 else degNeg90)
  else none

/-- What `P_total`, `P_range` and `P_sign` ask of `atan2deg` with first operand `y` (R153). -/
def atan2Allowed (y r : F32) : Bool :=
  isFinite r && decide (units r ≤ 180 * unitsPerOne) && decide (-(180 * unitsPerOne) ≤ units r) &&
    (decide (units y ≤ 0) || decide (0 ≤ units r)) && (decide (0 ≤ units y) || decide (units r ≤ 0))

/-- `NUM.atan2deg` (41_orientation_encoder.md R153). -/
def atan2deg (y x : F32) : F32 :=
  if isFinite y && isFinite x then
    match atan2Axis y x with
    | some r => r
    | none => if atan2Allowed y (Config.freeAtan2 y x) then Config.freeAtan2 y x else posZero
  else Config.freeAtan2 y x

/-- What `P_total` and `P_sign` ask of `hyp` (R153). -/
def hypAllowed (r : F32) : Bool := isFinite r && decide (0 ≤ units r) && decide (r ≠ negZero)

/-- `NUM.hyp` (41_orientation_encoder.md R153). -/
def hyp (y z : F32) : F32 :=
  if isFinite y && isFinite z then
    if z = posZero then fAbs y
    else if y = posZero then fAbs z
    else if hypAllowed (Config.freeHyp y z) then Config.freeHyp y z else posZero
  else Config.freeHyp y z

/-- `P_acc` for the arctangent (41_orientation_encoder.md R153), with `eps` for `NUM.eps_deg`: the exact angle of the
point `(x, y)` in degrees lies in (-180, 180], and is 0 at the origin. -/
def Atan2Accurate (eps : ℝ) : Prop :=
  ∀ y x : F32, isFinite y → isFinite x →
    |((realOf (atan2deg y x) : ℚ) : ℝ) -
      Complex.arg ⟨((realOf x : ℚ) : ℝ), ((realOf y : ℚ) : ℝ)⟩ * 180 / Real.pi| ≤ eps

/-- `P_acc` for the root (41_orientation_encoder.md R153), with `eps` for `NUM.eps_hyp`. -/
def HypAccurate (eps : ℝ) : Prop :=
  ∀ y z : F32, isFinite y → isFinite z →
    |((realOf (hyp y z) : ℚ) : ℝ) -
      Real.sqrt (((realOf y : ℚ) : ℝ) ^ 2 + ((realOf z : ℚ) : ℝ) ^ 2)| ≤ eps

/-! ## `FMT1` (43_sequencers.md R217) -/

/-- The number that decimal digits spell, most significant first, after those already read. -/
def digitsValue : Nat → List (Fin 10) → Nat
  | acc, [] => acc
  | acc, d :: ds => digitsValue (acc * 10 + d.val) ds

/-- The number a text spells, in tenths. -/
def tenthsOf (t : OneDecimal) : Int :=
  let n := digitsValue 0 (t.lead :: t.more ++ [t.tenth])
  if t.minus then -(n : Int) else (n : Int)

/-- The text spells a number that differs from `real(v)` by at most 0.05 (R217): in twentieths of a unit,
`|20 real(v) - 2 tenths| ≤ 1`. -/
def textAllowed (v : F32) (t : OneDecimal) : Bool :=
  decide ((20 * units v - 2 * tenthsOf t * unitsPerOne).natAbs ≤ unitsPerOne)

/-- The last `n` decimal digits of a number, most significant first. -/
def lastDigits : Nat → Nat → List (Fin 10)
  | 0, _ => []
  | n + 1, w => lastDigits n (w / 10) ++ [Fin.ofNat 10 w]

/-- The nearest tenth of a finite value, as a text of 40 digits: it keeps R217 and is taken only where the free text
does not. -/
def nearestText (v : F32) : OneDecimal :=
  let n := (20 * (units v).natAbs + unitsPerOne) / (2 * unitsPerOne)
  { minus := v.msb, lead := 0, more := lastDigits 40 (n / 10), tenth := Fin.ofNat 10 n }

/-- The characters of a digit. -/
def digitChar (d : Fin 10) : Char := Char.ofNat (48 + d.val)

/-- A text with one decimal place as a string. -/
def OneDecimal.text (t : OneDecimal) : String :=
  String.ofList ((if t.minus then ['-'] else []) ++ digitChar t.lead :: t.more.map digitChar ++ ['.', digitChar t.tenth])

/-- The text with one decimal place of a finite value. -/
def oneDecimal (v : F32) : OneDecimal :=
  if textAllowed v (Config.freeText v) then Config.freeText v else nearestText v

/-- `FMT1` (43_sequencers.md R217). -/
def fmt1 (v : F32) : String :=
  if isFinite v then OneDecimal.text (oneDecimal v) else Config.freeTextNonFinite v

end Sys2Proof.Machine
end

