-- ==== Sys2Proof/WellFormed.lean ====
section
/-! DEFINITION. Well-formedness: which operation is legal at which port (30_encoding.md R100, R104), the shape of a
program (R110) and the range of the parameters (00_scope.md R6). The operands of an `Instr` have exactly the
values the encoding admits, so an `Instr` is well formed at a port when the port column of R100 allows it. -/

namespace Sys2Proof

/-- The port at which a command is legal (30_encoding.md R100); a bus transfer is selected at no command port
(R101). -/
def Instr.port : Instr → Option UnitId
  | .sreset | .sread | .orient | .encode | .push _ | .pushi _ | .wait _ | .diag => some .A
  | .pop _ | .decode | .toggle | .redraw => some .B
  | .bwPwrReset | .bwPwrRun | .bwPtrAccel | .brAccel .. | .bwPtrGyro | .brGyro .. | .bwPtrTemp | .brTemp .. => none

/-- The operation is legal at the command port of unit `u` (30_encoding.md R104; 60_exceptions.md R252). -/
def Instr.legalAt (i : Instr) (u : UnitId) : Bool :=
  i.port == some u

/-- The shape of a program (30_encoding.md R110): not empty, and a loop-back index inside it. That its words are
legal commands is `Program.legalFor`, in Decode.lean, beside the decoder. -/
def Program.shapeOk (p : Program) : Bool :=
  !p.cmds.isEmpty && p.loopTo.all (· < p.cmds.length)

/-- The parameters lie in the ranges of 00_scope.md R6 and 30_encoding.md R110. -/
def Params.ok (p : Params) : Bool :=
  decide (1 ≤ p.chDepth) && p.progA.shapeOk && p.progB.shapeOk

end Sys2Proof
end

