-- ==== Sys2Proof/Decode.lean ====
section
/-! DEFINITION. The decoder (30_encoding.md R97 to R104, R111), total and rejecting by name; after it the encoder,
written from the same tables; and the numbering of spec/opcode_table.json. -/

namespace Sys2Proof

/-- `op`, bits 35:32 of a command (30_encoding.md R97). -/
def Cmd.op (c : Cmd) : BitVec 4 := c.extractLsb' 32 4

/-- `arg`, bits 31:0 of a command (30_encoding.md R97). -/
def Cmd.arg (c : Cmd) : Word := c.extractLsb' 0 32

/-- An operation without operand: `arg` must be 0 (30_encoding.md R98, R103). -/
def decodePlain (arg : Word) (i : Instr) : Except Illegal Instr :=
  if arg = 0 then .ok i else .error .reservedArg

/-- An operation with `sel` in `arg[0]`; `arg[31:1]` must be 0 (30_encoding.md R98, R103). -/
def decodeSel (arg : Word) (mk : Sel → Instr) : Except Illegal Instr :=
  if arg = 0 then .ok (mk .roll) else if arg = 1 then .ok (mk .pitch) else .error .reservedArg

/-- The operation map of 30_encoding.md R100; codes 0x0, 0xD, 0xE and 0xF are reserved (R102). -/
def decodeOp (op : BitVec 4) (arg : Word) : Except Illegal Instr :=
  match op.toNat with
  | 0x1 => decodePlain arg .sreset
  | 0x2 => decodePlain arg .sread
  | 0x3 => decodePlain arg .orient
  | 0x4 => decodePlain arg .encode
  | 0x5 => decodeSel arg .push
  | 0x6 => .ok (.pushi arg)
  | 0x7 => .ok (.wait arg)
  | 0x8 => decodeSel arg .pop
  | 0x9 => decodePlain arg .decode
  | 0xA => decodePlain arg .toggle
  | 0xB => decodePlain arg .redraw
  | 0xC => decodePlain arg .diag
  | _ => .error .reservedOp

/-- A command word, whatever the port. -/
def decodeCmd (c : Cmd) : Except Illegal Instr :=
  decodeOp c.op c.arg

/-- A command word at the port of unit `u` (30_encoding.md R111). -/
def decodeAt (u : UnitId) (c : Cmd) : Except Illegal Instr :=
  match decodeCmd c with
  | .error e => .error e
  | .ok i => if i.legalAt u then .ok i else .error .wrongPort

/-- A bus transfer (30_encoding.md R101), a read beginning at the sensor register `ptr`. The two reads of six bytes
have the same bits and are told apart by where they begin. -/
def decodeFrame (ptr : Byte) : BusFrame → Except Illegal Instr
  | .write [r, v] false =>
    if r = Config.regPwr ∧ v = Config.pwrResetVal then .ok .bwPwrReset
    else if r = Config.regPwr ∧ v = Config.pwrRunVal then .ok .bwPwrRun
    else .error .unknownTransfer
  | .write [r] true =>
    if r = Config.regAccel then .ok .bwPtrAccel
    else if r = Config.regGyro then .ok .bwPtrGyro
    else if r = Config.regTemp then .ok .bwPtrTemp
    else .error .unknownTransfer
  | .read [b0, b1, b2, b3, b4, b5] =>
    if ptr = Config.regAccel then .ok (.brAccel b0 b1 b2 b3 b4 b5)
    else if ptr = Config.regGyro then .ok (.brGyro b0 b1 b2 b3 b4 b5)
    else .error .unknownTransfer
  | .read [b0, b1] => if ptr = Config.regTemp then .ok (.brTemp b0 b1) else .error .unknownTransfer
  | _ => .error .unknownTransfer

/-- The decoder, total on every command word and every transfer. -/
def decode : Code → Except Illegal Instr
  | .cmd c => decodeCmd c
  | .frame ptr f => decodeFrame ptr f

/-- Every word of a program is a legal command at its unit's port (30_encoding.md R110). -/
def Program.legalFor (u : UnitId) (p : Program) : Bool :=
  p.cmds.all fun c => (decodeAt u c).toOption.isSome

/-! ## The encoder -/

/-- `{op, arg}` (30_encoding.md R97). -/
def Cmd.make (op : BitVec 4) (arg : Word) : Cmd := op ++ arg

/-- `arg` of an operation with `sel` (30_encoding.md R98). -/
def Sel.arg : Sel → Word
  | .roll => 0
  | .pitch => 1

/-- The encoder: the command of 30_encoding.md R100 or the transfer of R101. -/
def encode : Instr → Code
  | .sreset => .cmd (Cmd.make 0x1 0)
  | .sread => .cmd (Cmd.make 0x2 0)
  | .orient => .cmd (Cmd.make 0x3 0)
  | .encode => .cmd (Cmd.make 0x4 0)
  | .push sel => .cmd (Cmd.make 0x5 sel.arg)
  | .pushi imm => .cmd (Cmd.make 0x6 imm)
  | .wait n => .cmd (Cmd.make 0x7 n)
  | .pop sel => .cmd (Cmd.make 0x8 sel.arg)
  | .decode => .cmd (Cmd.make 0x9 0)
  | .toggle => .cmd (Cmd.make 0xA 0)
  | .redraw => .cmd (Cmd.make 0xB 0)
  | .diag => .cmd (Cmd.make 0xC 0)
  | .bwPwrReset => .frame Config.regPwr (.write [Config.regPwr, Config.pwrResetVal] false)
  | .bwPwrRun => .frame Config.regPwr (.write [Config.regPwr, Config.pwrRunVal] false)
  | .bwPtrAccel => .frame Config.regAccel (.write [Config.regAccel] true)
  | .brAccel b0 b1 b2 b3 b4 b5 => .frame Config.regAccel (.read [b0, b1, b2, b3, b4, b5])
  | .bwPtrGyro => .frame Config.regGyro (.write [Config.regGyro] true)
  | .brGyro b0 b1 b2 b3 b4 b5 => .frame Config.regGyro (.read [b0, b1, b2, b3, b4, b5])
  | .bwPtrTemp => .frame Config.regTemp (.write [Config.regTemp] true)
  | .brTemp b0 b1 => .frame Config.regTemp (.read [b0, b1])

/-! ## The numbering of spec/opcode_table.json -/

/-- Byte `k` of a number, `k` = 0 the least significant. -/
def byteOf (w k : Nat) : Byte := BitVec.ofNat 8 (w / 256 ^ k)

/-- The code whose bits are `w` in the table's numbering: a command in 36 bits (40 in whole bytes); a transfer with
its first byte on the bus in the most significant place (`source_fields` of the table). DESIGN CHOICE (log 14): the
table gives a transfer no direction and no starting address, so 16 bits are a write exactly when they are one of the
two writes of R101, and six bytes read begin at `REG_ACCEL`. -/
def codeOfTable (nbits w : Nat) : Option Code :=
  match nbits with
  | 36 | 40 => if w < 2 ^ 36 then some (.cmd (BitVec.ofNat 36 w)) else none
  | 8 => if w < 2 ^ 8 then some (.frame Config.regPwr (.write [byteOf w 0] true)) else none
  | 16 =>
    if w = 0x6B80 ∨ w = 0x6B00 then some (.frame Config.regPwr (.write [byteOf w 1, byteOf w 0] false))
    else if w < 2 ^ 16 then some (.frame Config.regTemp (.read [byteOf w 1, byteOf w 0]))
    else none
  | 48 =>
    if w < 2 ^ 48 then
      some (.frame Config.regAccel (.read [byteOf w 5, byteOf w 4, byteOf w 3, byteOf w 2, byteOf w 1, byteOf w 0]))
    else none
  | _ => none

/-- The instruction the decoder reads from bits `w` numbered as spec/opcode_table.json numbers them. -/
def decodeTableWord (nbits w : Nat) : Option Instr :=
  match codeOfTable nbits w with
  | some c => (decode c).toOption
  | none => none

end Sys2Proof
end

