-- ==== Sys2Proof/Machine/Ops.lean ====
section
/-! DEFINITION. The shared operations: inputs drawn from outside, events, the sensor's registers, the bus transfers,
the channel's two primitives, how a program index advances, and the one fault. -/

namespace Sys2Proof.Machine

/-! ## Draws (00_scope.md R8) -/

/-- The next value of a stream: the first given in advance, or else the free value. -/
def Draws.next {α : Type} (free : Nat → α) (d : Draws α) : α :=
  match d.given with
  | x :: _ => x
  | [] => free d.count

/-- The stream after one draw. -/
def Draws.rest {α : Type} (d : Draws α) : Draws α :=
  match d.given with
  | _ :: xs => { d with given := xs }
  | [] => { d with count := d.count + 1 }

/-- The stream after `n` draws. -/
def Draws.drop {α : Type} (d : Draws α) : Nat → Draws α
  | 0 => d
  | n + 1 => d.rest.drop n

/-- The next `n` values of a stream. -/
def Draws.take {α : Type} (free : Nat → α) (d : Draws α) : Nat → List α
  | 0 => []
  | n + 1 => d.next free :: d.rest.take free n

/-- Which unit steps next (20_memory.md R77; log 6). -/
def State.nextTurn (s : State) : UnitId := s.inp.turns.next Config.freeTurn

/-- The state after the choice of the unit. -/
def State.dropTurn (s : State) : State :=
  { s with inp := { s.inp with turns := s.inp.turns.rest } }

/-- The sensor's next answer, true for `Ack` (40_sensor_driver.md R120; log 7). -/
def State.nextAck (s : State) : Bool := s.inp.acks.next Config.freeAck

/-- The state after one answer of the sensor. -/
def State.dropAck (s : State) : State :=
  { s with inp := { s.inp with acks := s.inp.acks.rest } }

/-- The next `n` bytes drawn from the sensor (10_state.md R40; log 7). -/
def State.takeBytes (s : State) (n : Nat) : List Byte := s.inp.bytes.take Config.freeByte n

/-- The state after `n` bytes drawn from the sensor. -/
def State.dropBytes (s : State) (n : Nat) : State :=
  { s with inp := { s.inp with bytes := s.inp.bytes.drop n } }

/-! ## Events -/

/-- `emit` into `trace_A` (00_scope.md R8; 10_state.md R45). -/
def State.emitA (s : State) (e : EventA) : State :=
  { s with ghost := { s.ghost with traceA := s.ghost.traceA ++ [e] } }

/-- `emit` into `trace_B` (00_scope.md R8; 10_state.md R45). -/
def State.emitB (s : State) (e : EventB) : State :=
  { s with ghost := { s.ghost with traceB := s.ghost.traceB ++ [e] } }

/-! ## How a program index advances (10_state.md R32) -/

/-- The index after `i`: the next command, else the loop-back index, else none. -/
def nextIndex (p : Program) (i : Nat) : Option Nat :=
  if i + 1 < p.cmds.length then some (i + 1) else p.loopTo

/-- "advance `pc_A`" (10_state.md R32). -/
def State.advanceA (s : State) : State :=
  { s with
    a :=
      { s.a with
        pc := (nextIndex s.params.progA s.a.pc).getD s.a.pc
        st := if (nextIndex s.params.progA s.a.pc).isSome then s.a.st else .done } }

/-- "advance `pc_B`" (10_state.md R32). -/
def State.advanceB (s : State) : State :=
  { s with
    b :=
      { s.b with
        pc := (nextIndex s.params.progB s.b.pc).getD s.b.pc
        st := if (nextIndex s.params.progB s.b.pc).isSome then s.b.st else .done } }

/-! ## The fault (60_exceptions.md R241, R243)

There is no return from it (R253), so no operation of return stands beside it. -/

/-- `raise BusError(info)` in unit A: the stall. `info` is stored nowhere (R241), `pc_A` is not advanced, nothing is
saved and no handler runs (R243, R248). -/
def raiseBusError (_info : BusErrorInfo) (s : State) : State :=
  { s with a := { s.a with busFault := true, st := .stalled } }

/-- `raise`: taking a hardware fault (60_exceptions.md R243). -/
def raiseFault : HardwareFault → State → State
  | .busError info, s => raiseBusError info s

/-- The cause code reserved for "no fault" (60_exceptions.md R241). -/
def noFaultCode : Nat := 0

/-- The label of a hardware fault (60_exceptions.md R242). -/
def HardwareFault.label : HardwareFault → String
  | .busError _ => "BusError"

/-- The cause code of a hardware fault (60_exceptions.md R241, R242; D23): a label of the fault type, which no step
stores. -/
def HardwareFault.code : HardwareFault → Nat
  | .busError _ => 1

/-- The label of a refusal in the table of 60_exceptions.md R242; none for the model's own. -/
def Refusal.label : Refusal → Option String
  | .illegalCommand _ _ => some "IllegalCommand"
  | .readBeforeWrite _ => some "ReadBeforeWrite"
  | .readBeforeReset => some "ReadBeforeReset"
  | .secondReset => some "SecondReset"
  | .quantRange _ => some "QuantRange"
  | _ => none

/-- The code of a refusal in the table of 60_exceptions.md R242: "none", whichever it is. -/
def Refusal.code (_ : Refusal) : Option Nat := none

/-! ## The sensor register space (10_state.md R38, R43) -/

/-- The byte known to stand at an address; none where nothing has been written (log 3). -/
def Memory.read : Memory → Nat → Option Byte
  | [], _ => none
  | (b, w) :: m, a => if a = b then some w else Memory.read m a

/-- Store a byte, keeping the addresses strictly rising. -/
def Memory.write : Memory → Nat → Byte → Memory
  | [], a, v => [(a, v)]
  | (b, w) :: m, a, v =>
    if a < b then (a, v) :: (b, w) :: m else if a = b then (a, v) :: m else (b, w) :: Memory.write m a v

/-- The canonical form of the memory: addresses strictly rising and inside the 8-bit space. -/
abbrev Memory.wf (m : Memory) : Prop :=
  m.Pairwise (fun x y => x.1 < y.1) ∧ ∀ x ∈ m, x.1 < 256

/-- `pwr_effect` (40_sensor_driver.md R126). -/
def pwrEffect (v : Byte) (mode : SdMode) : SdMode :=
  if v = Config.pwrResetVal then .resetting else if v = Config.pwrRunVal then .awake else mode

/-- One data byte of a write: stored at the pointer, which then advances modulo 256 (40_sensor_driver.md R126). -/
def storeByte (v : Byte) (z : Sensor) : Sensor where
  ptr := z.ptr + 1
  mode := if z.ptr = Config.regPwr then pwrEffect v z.mode else z.mode
  reg := Memory.write z.reg z.ptr.toNat v

/-- The data bytes of a write, in order. -/
def storeBytes : List Byte → Sensor → Sensor
  | [], z => z
  | v :: vs, z => storeBytes vs (storeByte v z)

/-- `sensor_write` (40_sensor_driver.md R126): the first byte sets the pointer. -/
def sensorWrite : List Byte → Sensor → Sensor
  | [], z => z
  | p :: vs, z => storeBytes vs { z with ptr := p }

/-- One byte of a read at address `p`: the drawn byte `d` for a data register; elsewhere the byte the register holds,
or the drawn byte where it holds no known value (40_sensor_driver.md R126; log 3). -/
def sensorByte (d : Byte) (p : Byte) (m : Memory) : Byte :=
  if Config.regAccel ≤ p ∧ p ≤ Config.regDataLast then d else (Memory.read m p.toNat).getD d

/-- The bytes of a read from address `p` on, one drawn byte each (40_sensor_driver.md R126). -/
def sensorBytes : List Byte → Byte → Memory → List Byte
  | [], _, _ => []
  | d :: ds, p, m => sensorByte d p m :: sensorBytes ds (p + 1) m

/-! ## Bus transfers (40_sensor_driver.md R120 to R125) -/

/-- How a transfer, or a sequence of transfers, ended: acknowledged with a result, or in the stall that the fault
takes (60_exceptions.md R243). -/
inductive BusOutcome (α : Type) where
  | ack (result : α) (s : State)
  | stalled (s : State)

/-- Go on after an acknowledged transfer; a stall ends the operation (40_sensor_driver.md R132). -/
def BusOutcome.andThen {α β : Type} (o : BusOutcome α) (f : α → State → BusOutcome β) : BusOutcome β :=
  match o with
  | .ack r s => f r s
  | .stalled s => .stalled s

/-- The state in which an operation ends: after `done` where every transfer was acknowledged. -/
def BusOutcome.finish {α : Type} (o : BusOutcome α) (done : α → State → State) : State :=
  match o with
  | .ack r s => done r s
  | .stalled s => s

/-- `BusWrite` (40_sensor_driver.md R121). -/
def busWrite (dev : BusAddr) (bytes : List Byte) (nostop : Bool) (s : State) : BusOutcome Unit :=
  if s.nextAck then
    .ack () { (s.emitA (.busW dev bytes nostop)).dropAck with sensor := sensorWrite bytes s.sensor }
  else
    .stalled (raiseFault (.busError (.busW (bytes.headD 0))) (s.emitA (.busW dev bytes nostop)).dropAck)

/-- The bytes that an acknowledged read of `n` bytes returns in state `s` (40_sensor_driver.md R126). -/
def State.readBurst (s : State) (n : Nat) : List Byte :=
  sensorBytes (s.takeBytes n) s.sensor.ptr s.sensor.reg

/-- `BusRead` (40_sensor_driver.md R122); the pointer advances by one for each byte (R126). -/
def busRead (dev : BusAddr) (n : Nat) (s : State) : BusOutcome (List Byte) :=
  if s.nextAck then
    .ack (s.readBurst n)
      { (s.emitA (.busR dev n (some (s.readBurst n)))).dropAck.dropBytes n with
        sensor := { s.sensor with ptr := s.sensor.ptr + BitVec.ofNat 8 n } }
  else
    .stalled (raiseFault (.busError (.busR n)) (s.emitA (.busR dev n none)).dropAck)

/-- `MemWrite(addr, 1, v)` (40_sensor_driver.md R125). -/
def memWrite (addr v : Byte) (s : State) : BusOutcome Unit :=
  busWrite s.params.sensorAddr [addr, v] false s

/-- `MemRead(addr, n)` (40_sensor_driver.md R124). -/
def memRead (addr : Byte) (n : Nat) (s : State) : BusOutcome (List Byte) :=
  (busWrite s.params.sensorAddr [addr] true s).andThen fun _ t => busRead t.params.sensorAddr n t

/-! ## The channel's primitives (42_channel.md R181, R184) -/

/-- `ChPush` (42_channel.md R181); none while it is held. -/
def chPush (w : Word) (s : State) : Option State :=
  if s.chHasRoom then
    some { s with ch := s.ch ++ [w], ghost := { s.ghost with histPush := s.ghost.histPush ++ [w] } }
  else none

/-- `ChPop` (42_channel.md R184); none while it is held. -/
def chPop (s : State) : Option (Word × State) :=
  match s.ch with
  | [] => none
  | w :: ws => some (w, { s with ch := ws, ghost := { s.ghost with histPop := s.ghost.histPop ++ [w] } })

end Sys2Proof.Machine
end

