-- ==== Sys2Proof/Machine/Orientation.lean ====
section
/-! DEFINITION. The Orientation Encoder (41_orientation_encoder.md): `ORIENT`, `ENCODE`, `DECODE`. A register without
a value is refused in the order in which the pseudocode reads the registers (60_exceptions.md R251; log 16). -/

namespace Sys2Proof.Machine

/-- Read a register, or refuse `ReadBeforeWrite` (00_scope.md R8; 10_state.md R21; 60_exceptions.md R242). -/
def withReg {w : Nat} (r : DataReg) (v : Option (BitVec w)) (k : BitVec w → Host.Outcome State Fault Refusal) :
    Host.Outcome State Fault Refusal :=
  match v with
  | some x => k x
  | none => .refused (.readBeforeWrite r)

/-- Roll from the Y and Z components (41_orientation_encoder.md R155). -/
def rollOf (ay az : S16) : F32 := atan2deg (normCount ay) (normCount az)

/-- Pitch from the three components (41_orientation_encoder.md R155). -/
def pitchOf (ax ay az : S16) : F32 := atan2deg (fNeg (normCount ax)) (hyp (normCount ay) (normCount az))

/-- `ORIENT` (41_orientation_encoder.md R155). -/
def execOrient (s : State) : Host.Outcome State Fault Refusal :=
  withReg .ax s.a.ax fun ax => withReg .ay s.a.ay fun ay => withReg .az s.a.az fun az =>
    .next { s with a := { s.a with roll := some (rollOf ay az), pitch := some (pitchOf ax ay az) } }.advanceA

/-- Quantize, or refuse `QuantRange` (41_orientation_encoder.md R157). -/
def withQuantized (v : F32) (k : S32 → Host.Outcome State Fault Refusal) : Host.Outcome State Fault Refusal :=
  match quantize v with
  | some q => k q
  | none => .refused (.quantRange v)

/-- `ENCODE` (41_orientation_encoder.md R158); roll is checked before pitch (60_exceptions.md R251). -/
def execEncode (s : State) : Host.Outcome State Fault Refusal :=
  withReg .rollA s.a.roll fun r => withReg .pitchA s.a.pitch fun p =>
    withQuantized r fun qr => withQuantized p fun qp =>
      .next { s with a := { s.a with wmRoll := some qr, wmPitch := some qp } }.advanceA

/-- `DECODE` (41_orientation_encoder.md R161). -/
def execDecode (s : State) : Host.Outcome State Fault Refusal :=
  withReg .rxRoll s.b.rxRoll fun r => withReg .rxPitch s.b.rxPitch fun p =>
    .next { s with b := { s.b with roll := some (dequantize r), pitch := some (dequantize p) } }.advanceB

end Sys2Proof.Machine
end

