-- ==== Sys2Proof/Machine/Channel.lean ====
section
/-! DEFINITION. The Inter-Core Channel (42_channel.md): `PUSH`, `PUSHI`, `POP`. A held operation changes nothing
(R186): the next state is the state itself. -/

namespace Sys2Proof.Machine

/-- Push a word and advance, or be held (42_channel.md R181, R186). -/
def pushWord (w : Word) (s : State) : State :=
  match chPush w s with
  | some t => t.advanceA
  | none => s

/-- `PUSH sel` (42_channel.md R182). The refusal is decided before the hold. -/
def execPush (sel : Sel) (s : State) : Host.Outcome State Fault Refusal :=
  withReg (wmRegOf sel) (s.a.wm sel) fun q => .next (pushWord (asU32 q) s)

/-- `PUSHI imm` (42_channel.md R183). -/
def execPushi (imm : Word) (s : State) : Host.Outcome State Fault Refusal :=
  .next (pushWord imm s)

/-- `POP sel` (42_channel.md R185). -/
def execPop (sel : Sel) (s : State) : Host.Outcome State Fault Refusal :=
  .next <|
    match chPop s with
    | some (w, t) => { t with b := t.b.setRx sel (asS32 w) }.advanceB
    | none => s

end Sys2Proof.Machine
end

