-- ==== Sys2Proof/Machine/SensorDriver.lean ====
section
/-! DEFINITION. The Sensor Driver (40_sensor_driver.md): `SRESET`, `SREAD`, and the eight bus transfers they issue
(30_encoding.md R101), each also as an operation of its own (log 13). A fault is taken: the next state is the stall. -/

namespace Sys2Proof.Machine

/-- `SRESET` after its precondition (40_sensor_driver.md R127). -/
def sresetTransfers (s : State) : BusOutcome Unit :=
  (memWrite Config.regPwr Config.pwrResetVal s).andThen fun _ t =>
    memWrite Config.regPwr Config.pwrRunVal (t.emitA (.wait Config.tResetHold))

/-- The end of a completed `SRESET` (40_sensor_driver.md R127). -/
def sresetDone (s : State) : State :=
  let t := s.emitA (.wait Config.tResetSettle)
  { t with a := { t.a with drv := .ready } }.advanceA

/-- `SRESET` (40_sensor_driver.md R127, R133). -/
def execSreset (s : State) : Host.Outcome State Fault Refusal :=
  match s.a.drv with
  | .ready => .refused .secondReset
  | .uninit => .next ((sresetTransfers s).finish fun _ t => sresetDone t)

/-- Write an acceleration group (40_sensor_driver.md R129). -/
def storeAccel (b : List Byte) (s : State) : State :=
  { s with a := { s.a with ax := some (component b 0), ay := some (component b 1), az := some (component b 2) } }

/-- Write an angular-rate group (40_sensor_driver.md R130). -/
def storeGyro (b : List Byte) (s : State) : State :=
  { s with a := { s.a with gx := some (component b 0), gy := some (component b 1), gz := some (component b 2) } }

/-- Write the temperature (40_sensor_driver.md R131). -/
def storeTemp (b : List Byte) (s : State) : State :=
  { s with a := { s.a with temp := some (component b 0) } }

/-- One group of a sample: its transaction, then its registers, before the next transaction is issued
(40_sensor_driver.md R129, R132). -/
def readGroup (addr : Byte) (n : Nat) (store : List Byte → State → State) (s : State) : BusOutcome Unit :=
  (memRead addr n s).andThen fun b t => .ack () (store b t)

/-- The transactions of `SREAD` (40_sensor_driver.md R128): the two unused groups only with `READ_UNUSED` (R131). -/
def sreadTransfers (s : State) : BusOutcome Unit :=
  (readGroup Config.regAccel 6 storeAccel s).andThen fun _ t =>
    if t.params.readUnused then
      (readGroup Config.regGyro 6 storeGyro t).andThen fun _ u => readGroup Config.regTemp 2 storeTemp u
    else .ack () t

/-- `SREAD` (40_sensor_driver.md R128, R133). -/
def execSread (s : State) : Host.Outcome State Fault Refusal :=
  match s.a.drv with
  | .uninit => .refused .readBeforeReset
  | .ready => .next ((sreadTransfers s).finish fun _ t => t.advanceA)

/-! ## The transfers by themselves (30_encoding.md R101; log 13) -/

/-- A write transfer by itself. DESIGN CHOICE (log 13): it neither checks nor changes `drv_state`, whichever bytes it
carries; 40_sensor_driver.md R133 speaks of `SREAD` and `SRESET` only. -/
def runWrite (bytes : List Byte) (nostop : Bool) (s : State) : State :=
  (busWrite s.params.sensorAddr bytes nostop s).finish fun _ t => t

/-- The bytes a lone read carries are the sensor's next answers, where it acknowledges (log 13). -/
def State.offerBytes (s : State) (bytes : List Byte) : State :=
  if s.nextAck then
    { s with inp := { s.inp with bytes := { s.inp.bytes with given := bytes ++ s.inp.bytes.given } } }
  else s

/-- A read transfer by itself, and the registers of its group. DESIGN CHOICE (log 13): it neither checks nor changes
`drv_state`, so it is not refused before `SRESET`, and it fills its registers whatever `READ_UNUSED` is (10_state.md R23
and 40_sensor_driver.md R131 tie that parameter to `SREAD`). -/
def runRead (bytes : List Byte) (store : List Byte → State → State) (s : State) : State :=
  (busRead s.params.sensorAddr bytes.length (s.offerBytes bytes)).finish store

/-- `BW.PWR_RESET`: `6B 80`, stop (30_encoding.md R101). -/
def execBwPwrReset (s : State) : Host.Outcome State Fault Refusal :=
  .next (runWrite [Config.regPwr, Config.pwrResetVal] false s)

/-- `BW.PWR_RUN`: `6B 00`, stop (30_encoding.md R101). -/
def execBwPwrRun (s : State) : Host.Outcome State Fault Refusal :=
  .next (runWrite [Config.regPwr, Config.pwrRunVal] false s)

/-- `BW.PTR_ACCEL`: `3B`, no stop (30_encoding.md R101). -/
def execBwPtrAccel (s : State) : Host.Outcome State Fault Refusal :=
  .next (runWrite [Config.regAccel] true s)

/-- `BW.PTR_GYRO`: `43`, no stop (30_encoding.md R101). -/
def execBwPtrGyro (s : State) : Host.Outcome State Fault Refusal :=
  .next (runWrite [Config.regGyro] true s)

/-- `BW.PTR_TEMP`: `41`, no stop (30_encoding.md R101). -/
def execBwPtrTemp (s : State) : Host.Outcome State Fault Refusal :=
  .next (runWrite [Config.regTemp] true s)

/-- `BR.ACCEL`: six bytes read, unpacked by 40_sensor_driver.md R129 (30_encoding.md R101). -/
def execBrAccel (xHi xLo yHi yLo zHi zLo : Byte) (s : State) : Host.Outcome State Fault Refusal :=
  .next (runRead [xHi, xLo, yHi, yLo, zHi, zLo] storeAccel s)

/-- `BR.GYRO`: six bytes read, unpacked by 40_sensor_driver.md R130 (30_encoding.md R101); with `READ_UNUSED` false
too (DESIGN CHOICE, log 13). -/
def execBrGyro (xHi xLo yHi yLo zHi zLo : Byte) (s : State) : Host.Outcome State Fault Refusal :=
  .next (runRead [xHi, xLo, yHi, yLo, zHi, zLo] storeGyro s)

/-- `BR.TEMP`: two bytes read, stored by 40_sensor_driver.md R131 (30_encoding.md R101); with `READ_UNUSED` false too
(DESIGN CHOICE, log 13). -/
def execBrTemp (tHi tLo : Byte) (s : State) : Host.Outcome State Fault Refusal :=
  .next (runRead [tHi, tLo] storeTemp s)

end Sys2Proof.Machine
end

