-- ==== Sys2Proof/Machine/Sequencer.lean ====
section
/-! DEFINITION. The operations of the two sequencers (43_sequencers.md): `WAIT`, `DIAG`, `TOGGLE`, `REDRAW`. -/

namespace Sys2Proof.Machine

/-- `WAIT n` (43_sequencers.md R212): the model has no clock (R213), so it records the lower bound asked for. -/
def execWait (n : Word) (s : State) : Host.Outcome State Fault Refusal :=
  .next (s.emitA (.wait n)).advanceA

/-- `DIAG` (43_sequencers.md R214): the line has no content in the model. -/
def execDiag (s : State) : Host.Outcome State Fault Refusal :=
  .next (s.emitA .diag).advanceA

/-- `TOGGLE` (43_sequencers.md R216). -/
def execToggle (s : State) : Host.Outcome State Fault Refusal :=
  .next ({ s with b := { s.b with ind := toggled s.b.ind } }.emitB (.ind (toggled s.b.ind))).advanceB

/-- `REDRAW` (43_sequencers.md R218). -/
def execRedraw (s : State) : Host.Outcome State Fault Refusal :=
  withReg .rollB s.b.roll fun r => withReg .pitchB s.b.pitch fun p =>
    .next (s.emitB (.redraw (fmt1 r) (fmt1 p))).advanceB

end Sys2Proof.Machine
end

