-- ==== Sys2Proof/Machine/Dispatch.lean ====
section
/-! DEFINITION. One arm per operation. -/

namespace Sys2Proof.Machine

def exec (i : Instr) (s : State) : Host.Outcome State Fault Refusal :=
  match i with
  | .sreset => Sys2Proof.Machine.execSreset s
  | .sread => Sys2Proof.Machine.execSread s
  | .orient => Sys2Proof.Machine.execOrient s
  | .encode => Sys2Proof.Machine.execEncode s
  | .push sel => Sys2Proof.Machine.execPush sel s
  | .pushi imm => Sys2Proof.Machine.execPushi imm s
  | .wait n => Sys2Proof.Machine.execWait n s
  | .pop sel => Sys2Proof.Machine.execPop sel s
  | .decode => Sys2Proof.Machine.execDecode s
  | .toggle => Sys2Proof.Machine.execToggle s
  | .redraw => Sys2Proof.Machine.execRedraw s
  | .diag => Sys2Proof.Machine.execDiag s
  | .bwPwrReset => Sys2Proof.Machine.execBwPwrReset s
  | .bwPwrRun => Sys2Proof.Machine.execBwPwrRun s
  | .bwPtrAccel => Sys2Proof.Machine.execBwPtrAccel s
  | .brAccel xHi xLo yHi yLo zHi zLo => Sys2Proof.Machine.execBrAccel xHi xLo yHi yLo zHi zLo s
  | .bwPtrGyro => Sys2Proof.Machine.execBwPtrGyro s
  | .brGyro xHi xLo yHi yLo zHi zLo => Sys2Proof.Machine.execBrGyro xHi xLo yHi yLo zHi zLo s
  | .bwPtrTemp => Sys2Proof.Machine.execBwPtrTemp s
  | .brTemp tHi tLo => Sys2Proof.Machine.execBrTemp tHi tLo s

end Sys2Proof.Machine
end

