-- ==== Sys2Proof/Machine/Fetch.lean ====
section
/-! DEFINITION. What a step fetches (43_sequencers.md R211), and how a word is put where the next step fetches it. -/

namespace Sys2Proof.Machine

/-- `PROG_U.cmds[pc_U]` (43_sequencers.md R211); none where the index lies outside the program. -/
def State.fetch (s : State) (u : UnitId) : Option Cmd :=
  (s.params.prog u).cmds[s.pc u]?

/-- Put a word at an index of a list of commands, lengthening the list with illegal words where it is shorter. -/
def setCmd : List Cmd → Nat → Cmd → List Cmd
  | [], 0, c => [c]
  | [], i + 1, c => 0 :: setCmd [] i c
  | _ :: cs, 0, c => c :: cs
  | d :: cs, i + 1, c => d :: setCmd cs i c

/-- The port at which a command word is put: its own, and unit A's where it has none. -/
def portOf (c : Cmd) : UnitId :=
  match decodeCmd c with
  | .ok i => i.port.getD .A
  | .error _ => .A

/-- The state in which unit `u` steps next, running, with the command `c` at its program index. -/
def State.withCmd (s : State) (u : UnitId) (c : Cmd) : State :=
  let inp := { s.inp with busReq := none, turns := { s.inp.turns with given := u :: s.inp.turns.given } }
  match u with
  | .A =>
    { s with
      inp := inp
      params := { s.params with progA := { s.params.progA with cmds := setCmd s.params.progA.cmds s.a.pc c } }
      a := { s.a with st := .run } }
  | .B =>
    { s with
      inp := inp
      params := { s.params with progB := { s.params.progB with cmds := setCmd s.params.progB.cmds s.b.pc c } }
      b := { s.b with st := .run } }

/-- The state in which unit A issues the transfer `f` by itself in the next step (log 13), a read from `ptr` on. -/
def State.withFrame (s : State) (ptr : Byte) (f : BusFrame) : State :=
  { s with
    inp := { s.inp with busReq := some f }
    a := { s.a with st := .run }
    sensor :=
      match f with
      | .read _ => { s.sensor with ptr := ptr }
      | .write .. => s.sensor }

/-- The state in which the next step fetches `c`. -/
def State.withCode (s : State) : Code → State
  | .cmd c => s.withCmd (portOf c) c
  | .frame ptr f => s.withFrame ptr f

/-- The state in which the next step fetches the bits `w`, numbered as spec/opcode_table.json numbers them; the state
itself where no row of the table has `nbits` bits (log 15). -/
def placeTableWord (s : State) (nbits w : Nat) : State :=
  match codeOfTable nbits w with
  | some c => s.withCode c
  | none => s

end Sys2Proof.Machine
end

