-- ==== Sys2Proof/Machine/Step.lean ====
section
/-! DEFINITION. One step of the machine (43_sequencers.md R211): one operation of one unit, chosen by the schedule
(20_memory.md R77), or a bus transfer issued by itself (log 13). A unit that is not running makes no step (10_state.md
R32), and nothing changes but the schedule. -/

namespace Sys2Proof.Machine

/-- One step of unit `u` (43_sequencers.md R211). -/
def stepUnit (u : UnitId) (s : State) : Host.Outcome State Fault Refusal :=
  if s.running u then
    match s.fetch u with
    | none => .fault (.pcOutsideProgram u)
    | some c =>
      match decodeAt u c with
      | .ok i => exec i s
      | .error _ => .refused (.illegalCommand u c)
  else .next s

/-- A bus transfer issued by itself, by unit A while it runs (log 13). -/
def stepFrame (f : BusFrame) (s : State) : Host.Outcome State Fault Refusal :=
  if s.running .A then
    match decodeFrame s.sensor.ptr f with
    | .ok i => exec i s
    | .error _ => .refused (.unknownTransfer s.sensor.ptr f)
  else .next s

/-- The state with no transfer waiting. -/
def State.dropFrame (s : State) : State :=
  { s with inp := { s.inp with busReq := none } }

/-- One step of the machine. -/
def step (s : State) : Host.Outcome State Fault Refusal :=
  match s.inp.busReq with
  | some f => stepFrame f s.dropFrame
  | none => stepUnit s.nextTurn s.dropTurn

/-- `s` with the bits `w` where the next step fetches (log 15). -/
def State.withFetchWord (s : State) (nbits w : Nat) : State := placeTableWord s nbits w

end Sys2Proof.Machine
end

