-- ==== Sys2Proof/Safety.lean ====
section
/-! DEFINITION. The terms in which claims about MDC-ICP are made: how a program index advances, which unit can step,
the invariant of every run, and the invariant of the runs of the two canonical loops. -/

namespace Sys2Proof.Machine

/-! ## Draws ahead -/

/-- The answer to the transfer `k` transfers from now, true for `Ack` (40_sensor_driver.md R120). -/
def State.ackAt (s : State) (k : Nat) : Bool := (s.inp.acks.drop k).next Config.freeAck

/-! ## Program indices (10_state.md R32) -/

/-- A program index and a status after a completed command at index `i` of program `p`, in the words of 10_state.md
R32: the next index; after the last command the loop-back index; without one the unit is done where it stands. -/
def Advanced {St : Type} (p : Program) (done : St) (i : Nat) (st : St) (i' : Nat) (st' : St) : Prop :=
  (i + 1 < p.cmds.length → i' = i + 1 ∧ st' = st) ∧
    (p.cmds.length ≤ i + 1 → (∀ j, p.loopTo = some j → i' = j ∧ st' = st) ∧ (p.loopTo = none → i' = i ∧ st' = done))

/-- Unit A has completed a command between `s` and `t` (10_state.md R32). -/
def AdvancedA (s t : State) : Prop := Advanced s.params.progA .done s.a.pc s.a.st t.a.pc t.a.st

/-- Unit B has completed a command between `s` and `t` (10_state.md R32). -/
def AdvancedB (s t : State) : Prop := Advanced s.params.progB .done s.b.pc s.b.st t.b.pc t.b.st

/-- Every byte of the sensor register space reads as before. -/
def SameMemory (s t : State) : Prop := ∀ x, Memory.read t.sensor.reg x = Memory.read s.sensor.reg x

/-! ## Which unit can step -/

/-- The operation a unit would perform next, where its command is legal (43_sequencers.md R211). -/
def State.nextOp (s : State) (u : UnitId) : Option Instr :=
  (s.fetch u).bind fun c => (decodeAt u c).toOption

/-- The unit is held (42_channel.md R186). A `PUSH` of a register without a value is refused, not held (R182). -/
def State.held (s : State) (u : UnitId) : Bool :=
  match s.nextOp u with
  | some (.push sel) => (s.a.wm sel).isSome && !s.chHasRoom
  | some (.pushi _) => !s.chHasRoom
  | some (.pop _) => s.chEmpty
  | _ => false

/-- The unit has a step: it runs and is not held (10_state.md R32; 42_channel.md R186). -/
def State.enabled (s : State) (u : UnitId) : Bool := s.running u && !s.held u

/-- No unit has a step (60_exceptions.md R261). -/
def State.quiescent (s : State) : Bool := !s.enabled .A && !s.enabled .B

/-- The run is at its end (43_sequencers.md R226). -/
def State.final (s : State) : Bool := s.a.st == .done && s.b.st == .done

/-- It is unit `u`'s turn, and no lone transfer waits. -/
def State.turnOf (s : State) (u : UnitId) : Prop := s.inp.busReq = none ∧ s.nextTurn = u

/-! ## Runs and fairness (20_memory.md R77) -/

/-- The state in which it is unit `u`'s turn; the step draws that turn and leaves the schedule in State as it was. -/
def State.offerTurn (s : State) (u : UnitId) : State :=
  { s with inp := { s.inp with turns := { s.inp.turns with given := u :: s.inp.turns.given } } }

/-- `σ` is an infinite run of the block under the schedule `sched`, any function at all (20_memory.md R77): from no
waiting transfer (log 13), step `n` is one of unit `sched n`. -/
structure IsRun (sched : Nat → UnitId) (σ : Nat → State) : Prop where
  noFrame : (σ 0).inp.busReq = none
  steps : ∀ n, step ((σ n).offerTurn (sched n)) = .next (σ (n + 1))

/-- Weak fairness (20_memory.md R77; 92_eei_decisions.md D27): a unit whose next command stays enabled is eventually
stepped. -/
def WeaklyFair (sched : Nat → UnitId) (σ : Nat → State) : Prop :=
  ∀ u n, (∀ m, n ≤ m → (σ m).enabled u = true) → ∃ m, n ≤ m ∧ sched m = u

/-! ## Invariants -/

/-- What holds in every state of every run, whatever the programs, the parameters and the inputs. -/
structure Inv (s : State) : Prop where
  /-- 00_scope.md R6; 30_encoding.md R110. -/
  paramsOk : s.params.ok = true
  /-- 10_state.md R30. -/
  pcA : s.a.pc < s.params.progA.cmds.length
  /-- 10_state.md R31. -/
  pcB : s.b.pc < s.params.progB.cmds.length
  /-- 10_state.md R41; 42_channel.md R187. -/
  level : s.ch.length ≤ s.params.chDepth
  /-- 42_channel.md R187. -/
  history : s.ghost.histPush = s.ghost.histPop ++ s.ch
  /-- The canonical form of the sensor's registers. -/
  memory : Memory.wf s.sensor.reg
  /-- 10_state.md R35; 60_exceptions.md R243, R244. -/
  stall : s.a.busFault = true ↔ s.a.st = .stalled

/-- A finite angle of magnitude at most 180 (41_orientation_encoder.md R156). -/
def InRange (v : F32) : Prop :=
  isFinite v = true ∧ units v ≤ 180 * unitsPerOne ∧ -(180 * unitsPerOne : Int) ≤ units v

/-- What holds in every state of a run of the two canonical loops (30_encoding.md R110), whatever the other parameters
and the inputs. -/
structure CanonInv (s : State) : Prop where
  inv : Inv s
  progA : s.params.progA = Config.canonicalProgA
  progB : s.params.progB = Config.canonicalProgB
  noFrame : s.inp.busReq = none
  /-- "No terminal state" (10_state.md R32). -/
  stA : s.a.st ≠ .done
  stB : s.b.st = .run
  /-- `SRESET` has completed exactly when index 0 is behind (40_sensor_driver.md R133). -/
  driver : s.a.drv = .uninit ↔ s.a.pc = 0
  /-- Every register is written before it is read (10_state.md R21). -/
  sample : 2 ≤ s.a.pc → s.a.ax.isSome ∧ s.a.ay.isSome ∧ s.a.az.isSome
  angles : 3 ≤ s.a.pc → ∃ r p, s.a.roll = some r ∧ s.a.pitch = some p ∧ InRange r ∧ InRange p
  message : 4 ≤ s.a.pc → s.a.wmRoll.isSome ∧ s.a.wmPitch.isSome
  decoded : 3 ≤ s.b.pc → s.b.roll.isSome ∧ s.b.pitch.isSome
  /-- Whole messages (42_channel.md R194; 43_sequencers.md R221, R224). -/
  pushParity : s.ghost.histPush.length % 2 = if s.a.pc = 5 then 1 else 0
  popParity : s.ghost.histPop.length % 2 = if s.b.pc = 1 then 1 else 0
  /-- The receive registers hold the words popped last (42_channel.md R189). -/
  popped1 : s.b.pc = 1 → ∃ h r, s.ghost.histPop = h ++ [r] ∧ s.b.rxRoll = some (asS32 r)
  popped2 : 2 ≤ s.b.pc →
    ∃ h r p, s.ghost.histPop = h ++ [r, p] ∧ s.b.rxRoll = some (asS32 r) ∧ s.b.rxPitch = some (asS32 p)

/-- The indicator shows the parity of the toggles since reset (43_sequencers.md R216). -/
def IndicatorParity (s : State) : Prop :=
  s.b.ind = (Config.indReset ^^ ((s.ghost.traceB.filter fun e => match e with | .ind _ => true | _ => false).length % 2 == 1))

/-- The bus events of 30_encoding.md R101, and the events that are none of the bus. -/
def EventA.legalFor (dev : BusAddr) : EventA → Prop
  | .busW d bytes nostop =>
    d = dev ∧ ((bytes, nostop) = ([0x6B, 0x80], false) ∨ (bytes, nostop) = ([0x6B, 0x00], false) ∨
      (bytes, nostop) = ([0x3B], true) ∨ (bytes, nostop) = ([0x43], true) ∨ (bytes, nostop) = ([0x41], true))
  | .busR d n result => d = dev ∧ (n = 6 ∨ n = 2) ∧ ∀ bs, result = some bs → bs.length = n
  | .wait _ => True
  | .diag => True

/-- `r` is the value of binary32 nearest to `x`, ties to even (00_scope.md R9, `RN`). -/
def NearestEven (x : ℚ) (r : F32) : Prop :=
  isFinite r = true ∧ (∀ w : F32, isFinite w = true → |realOf r - x| ≤ |realOf w - x|) ∧
    ∀ w : F32, isFinite w = true → realOf w ≠ realOf r → |realOf w - x| = |realOf r - x| → r.getLsbD 0 = false

end Sys2Proof.Machine
end

