-- ==== Sys2Proof/Certificates/Slice0/Obligations.lean ====
section
/-! DEFINITION. The statements about MDC-ICP. Each docstring names the rule of spec/ it formalises. A statement of what
an operation does has as its conclusion that `exec` answers a next state; `t = { s with … }` says that everything not
named there is unchanged. -/

open Sys2Proof Sys2Proof.Machine

/-! ## Reset -/

/-- 10_state.md R47, the whole table. The sensor's mode is the value the table gives for a sensor powered on together
with the block (log 2); the rows "unspecified" say nothing. -/
def Obligations.ResetStateAsSpecified : Prop :=
  State.reset.a.pc = 0 ∧ State.reset.a.st = .run ∧ State.reset.b.pc = 0 ∧ State.reset.b.st = .run ∧
  State.reset.a.drv = .uninit ∧ State.reset.a.busFault = false ∧
  State.reset.a.ax = none ∧ State.reset.a.ay = none ∧ State.reset.a.az = none ∧
  State.reset.a.gx = none ∧ State.reset.a.gy = none ∧ State.reset.a.gz = none ∧ State.reset.a.temp = none ∧
  State.reset.a.roll = none ∧ State.reset.a.pitch = none ∧
  State.reset.a.wmRoll = none ∧ State.reset.a.wmPitch = none ∧
  State.reset.b.rxRoll = none ∧ State.reset.b.rxPitch = none ∧
  State.reset.b.roll = none ∧ State.reset.b.pitch = none ∧ State.reset.b.ind = false ∧
  State.reset.ch = [] ∧ State.reset.chEmpty = true ∧ State.reset.chFull = false ∧ State.reset.chLevel = 0 ∧
  State.reset.ghost.histPush = [] ∧ State.reset.ghost.histPop = [] ∧
  State.reset.ghost.traceA = [] ∧ State.reset.ghost.traceB = [] ∧ State.reset.sensor.mode = .sleep

/-- The invariant of every run holds after reset (42_channel.md R187: "It holds at reset"). -/
def Obligations.ResetMeetsInvariant : Prop := Inv State.reset

/-- The invariant of the canonical loops holds after reset, with any channel depth of at least 1, any sensor address and
either value of `READ_UNUSED`. -/
def Obligations.ResetMeetsCanonicalInvariant : Prop :=
  ∀ (depth : Nat) (dev : BusAddr) (unused : Bool), 1 ≤ depth →
    CanonInv { State.reset with
      params := { State.reset.params with chDepth := depth, sensorAddr := dev, readUnused := unused } }

/-! ## Encodings -/

/-- A few words written out in 95_test_vectors.md section 2.1 and 30_encoding.md R101; the byte 0x80 is log 5. -/
def Obligations.SpecWordsDecode : Prop :=
  decodeAt .A 0x100000000 = .ok .sreset ∧ decodeAt .A 0x500000001 = .ok (.push .pitch) ∧
  decodeAt .A 0x6FFFFDCD8 = .ok (.pushi 0xFFFFDCD8) ∧ decodeAt .A 0x7000000FA = .ok (.wait 250) ∧
  decodeAt .B 0x900000000 = .ok .decode ∧ decodeAt .B 0xB00000000 = .ok .redraw ∧
  decodeAt .A 0x800000001 = .error .wrongPort ∧ decodeAt .A 0x500000002 = .error .reservedArg ∧
  decodeAt .B 0 = .error .reservedOp ∧
  decodeFrame 0 (.write [0x6B, 0x80] false) = .ok .bwPwrReset ∧
  decodeFrame 0x43 (.read [1, 2, 3, 4, 5, 6]) = .ok (.brGyro 1 2 3 4 5 6)

/-- Decoding an encoded operation gives it back, for every operation and every operand. -/
def Obligations.DecodeInvertsEncode : Prop := ∀ i : Instr, decode (encode i) = .ok i

/-- Every legal command word is the encoding of the operation it decodes to: no bit of it is dropped. -/
def Obligations.EncodeInvertsDecode : Prop := ∀ (c : Cmd) (i : Instr), decodeCmd c = .ok i → encode i = .cmd c

/-- One row of the operation map with its match and mask (30_encoding.md R100). -/
structure CommandRow where
  port  : UnitId
  bits  : Cmd
  mask  : Cmd

/-- The rows of 30_encoding.md R100: `match` and `mask` of each command. -/
def commandRows : List CommandRow :=
  [⟨.A, 0x100000000, 0xFFFFFFFFF⟩, ⟨.A, 0x200000000, 0xFFFFFFFFF⟩, ⟨.A, 0x300000000, 0xFFFFFFFFF⟩,
   ⟨.A, 0x400000000, 0xFFFFFFFFF⟩, ⟨.A, 0x500000000, 0xFFFFFFFFE⟩, ⟨.A, 0x600000000, 0xF00000000⟩,
   ⟨.A, 0x700000000, 0xF00000000⟩, ⟨.B, 0x800000000, 0xFFFFFFFFE⟩, ⟨.B, 0x900000000, 0xFFFFFFFFF⟩,
   ⟨.B, 0xA00000000, 0xFFFFFFFFF⟩, ⟨.B, 0xB00000000, 0xFFFFFFFFF⟩, ⟨.A, 0xC00000000, 0xFFFFFFFFF⟩]

/-- The legal commands at a port are exactly those that agree with a row of 30_encoding.md R100 on its mask. -/
def Obligations.LegalCommandsAreTheTableRows : Prop :=
  ∀ (u : UnitId) (c : Cmd),
    (∃ i, decodeAt u c = .ok i) ↔ ∃ r ∈ commandRows, r.port = u ∧ c &&& r.mask = r.bits

/-- 30_encoding.md R102, R103, R104: a reserved code, a non-zero reserved bit of `arg`, and a command of the other port
are illegal, and a step that meets an illegal command is refused. -/
def Obligations.IllegalCommandsAreRefused : Prop :=
  (∀ (u : UnitId) (arg : Word) (op : BitVec 4), op = 0x0 ∨ op = 0xD ∨ op = 0xE ∨ op = 0xF →
    decodeAt u (Cmd.make op arg) = .error .reservedOp) ∧
  (∀ (u : UnitId) (arg : Word) (op : BitVec 4),
    (op = 0x1 ∨ op = 0x2 ∨ op = 0x3 ∨ op = 0x4 ∨ op = 0x9 ∨ op = 0xA ∨ op = 0xB ∨ op = 0xC) ∧ arg ≠ 0 ∨
      (op = 0x5 ∨ op = 0x8) ∧ arg >>> 1 ≠ 0 →
    decodeAt u (Cmd.make op arg) = .error .reservedArg) ∧
  (∀ (u : UnitId) (c : Cmd) (i : Instr), decodeCmd c = .ok i → i.port ≠ some u →
    decodeAt u c = .error .wrongPort) ∧
  (∀ (s : State) (u : UnitId) (c : Cmd) (e : Illegal), s.turnOf u → s.running u = true → s.fetch u = some c →
    decodeAt u c = .error e → step s = .refused (.illegalCommand u c))

/-! ## A step -/

/-- 43_sequencers.md R211: a step of the unit whose turn it is performs the operation its command decodes to; an illegal
command is refused. The clauses for a held unit and for one that does not run are the model's choice: a turn of a unit
that cannot step changes nothing but the draw (logs 6, 11). What a step adds around the operation is the draw of the
turn. -/
def Obligations.StepRunsTheFetchedCommand : Prop :=
  ∀ (s : State) (u : UnitId), s.turnOf u →
    (∀ c i, s.running u = true → s.fetch u = some c → decodeAt u c = .ok i → step s = exec i s.dropTurn) ∧
    (∀ c e, s.running u = true → s.fetch u = some c → decodeAt u c = .error e →
      step s = .refused (.illegalCommand u c)) ∧
    (s.running u = true → s.held u = true → step s = .next s.dropTurn) ∧
    (s.running u = false → step s = .next s.dropTurn)

/-- A transfer issued by itself is run as the operation it decodes to, a read from the sensor's pointer on. The model's
own way to run a bus row of the table (log 13). -/
def Obligations.StepRunsTheLoneTransfer : Prop :=
  ∀ (s : State) (f : BusFrame) (i : Instr), s.inp.busReq = some f → s.a.st = .run →
    decodeFrame s.sensor.ptr f = .ok i → step s = exec i s.dropFrame

/-! ## Sensor driver -/

/-- 40_sensor_driver.md R127, both transfers acknowledged: events, `drv_state`, and in the sensor the pointer, the mode
and register 0x6B; every other register of the sensor reads as before. -/
def Obligations.SresetResetsTheSensor : Prop :=
  ∀ s : State, s.a.drv = .uninit → s.ackAt 0 = true → s.ackAt 1 = true →
    ∃ t, exec .sreset s = .next t ∧ AdvancedA s t ∧
      t.sensor.ptr = 0x6C ∧ t.sensor.mode = .awake ∧
      (∀ x, Memory.read t.sensor.reg x = if x = 0x6B then some 0x00 else Memory.read s.sensor.reg x) ∧
      t = { s with
        a := { s.a with pc := t.a.pc, st := t.a.st, drv := .ready }
        sensor := t.sensor
        ghost := { s.ghost with
          traceA := s.ghost.traceA ++
            [.busW s.params.sensorAddr [0x6B, 0x80] false, .wait 100,
             .busW s.params.sensorAddr [0x6B, 0x00] false, .wait 10] }
        inp := { s.inp with acks := s.inp.acks.drop 2 } }

/-- 40_sensor_driver.md R127 (Faults) with 60_exceptions.md R243: a write of `SRESET` not acknowledged. That the fault
is taken as a next state is log 11, the value 0x80 log 5. -/
def Obligations.SresetFaultStallsUnitA : Prop :=
  (∀ s : State, s.a.drv = .uninit → s.ackAt 0 = false →
    ∃ t, exec .sreset s = .next t ∧
      t = { s with
        a := { s.a with busFault := true, st := .stalled }
        ghost := { s.ghost with traceA := s.ghost.traceA ++ [.busW s.params.sensorAddr [0x6B, 0x80] false] }
        inp := { s.inp with acks := s.inp.acks.drop 1 } }) ∧
  (∀ s : State, s.a.drv = .uninit → s.ackAt 0 = true → s.ackAt 1 = false →
    ∃ t, exec .sreset s = .next t ∧
      t.sensor.ptr = 0x6C ∧ t.sensor.mode = .resetting ∧
      (∀ x, Memory.read t.sensor.reg x = if x = 0x6B then some 0x80 else Memory.read s.sensor.reg x) ∧
      t = { s with
        a := { s.a with busFault := true, st := .stalled }
        sensor := t.sensor
        ghost := { s.ghost with
          traceA := s.ghost.traceA ++
            [.busW s.params.sensorAddr [0x6B, 0x80] false, .wait 100, .busW s.params.sensorAddr [0x6B, 0x00] false] }
        inp := { s.inp with acks := s.inp.acks.drop 2 } })

/-- Two bytes as a 16-bit pattern, high byte first (20_memory.md R63; 30_encoding.md R90). -/
def bigEndian (hi lo : Byte) : S16 := BitVec.ofNat 16 (256 * hi.toNat + lo.toNat)

/-- Byte `k` of those the sensor answers with next. -/
def drawnByte (s : State) (k : Nat) : Byte := (s.takeBytes 14).getD k 0

/-- The six bus events of `SREAD` (40_sensor_driver.md R135), with the bytes the sensor answers with. -/
def sreadEvents (s : State) : List EventA :=
  [.busW s.params.sensorAddr [0x3B] true, .busR s.params.sensorAddr 6 (some ((s.takeBytes 14).take 6)),
   .busW s.params.sensorAddr [0x43] true, .busR s.params.sensorAddr 6 (some (((s.takeBytes 14).drop 6).take 6)),
   .busW s.params.sensorAddr [0x41] true, .busR s.params.sensorAddr 2 (some ((s.takeBytes 14).drop 12))]

/-- 40_sensor_driver.md R128, R129, R130, R131 and R135 with `READ_UNUSED`, every transfer acknowledged: the sample is
assembled high byte first in the order X, Y, Z, and the bus shows three transactions. -/
def Obligations.SreadReadsTheWholeSample : Prop :=
  ∀ s : State, s.a.drv = .ready → s.params.readUnused = true → (∀ k < 6, s.ackAt k = true) →
    ∃ t, exec .sread s = .next t ∧ AdvancedA s t ∧ SameMemory s t ∧
      t = { s with
        a := { s.a with
          pc := t.a.pc, st := t.a.st
          ax := some (bigEndian (drawnByte s 0) (drawnByte s 1)), ay := some (bigEndian (drawnByte s 2) (drawnByte s 3))
          az := some (bigEndian (drawnByte s 4) (drawnByte s 5)), gx := some (bigEndian (drawnByte s 6) (drawnByte s 7))
          gy := some (bigEndian (drawnByte s 8) (drawnByte s 9)), gz := some (bigEndian (drawnByte s 10) (drawnByte s 11))
          temp := some (bigEndian (drawnByte s 12) (drawnByte s 13)) }
        sensor := { s.sensor with ptr := 0x43 }
        ghost := { s.ghost with traceA := s.ghost.traceA ++ sreadEvents s }
        inp := { s.inp with acks := s.inp.acks.drop 6, bytes := s.inp.bytes.drop 14 } }

/-- 40_sensor_driver.md R131 with `READ_UNUSED` = false: `gx`, `gy`, `gz`, `temp` are not written and only the first
transaction is issued. -/
def Obligations.SreadWithoutUnusedReadsAcceleration : Prop :=
  ∀ s : State, s.a.drv = .ready → s.params.readUnused = false → s.ackAt 0 = true → s.ackAt 1 = true →
    ∃ t, exec .sread s = .next t ∧ AdvancedA s t ∧ SameMemory s t ∧
      t = { s with
        a := { s.a with
          pc := t.a.pc, st := t.a.st
          ax := some (bigEndian (drawnByte s 0) (drawnByte s 1)), ay := some (bigEndian (drawnByte s 2) (drawnByte s 3))
          az := some (bigEndian (drawnByte s 4) (drawnByte s 5)) }
        sensor := { s.sensor with ptr := 0x41 }
        ghost := { s.ghost with traceA := s.ghost.traceA ++ (sreadEvents s).take 2 }
        inp := { s.inp with acks := s.inp.acks.drop 2, bytes := s.inp.bytes.drop 6 } }

/-- The event of a transfer that was not acknowledged (40_sensor_driver.md R121, R122). -/
def failedEvent : EventA → EventA
  | .busR dev n _ => .busR dev n none
  | e => e

/-- 40_sensor_driver.md R132 with 60_exceptions.md R243: the first transfer of `SREAD` that is not acknowledged, the
`k`-th from 0, ends it in the stall; groups read before it keep their new values, the others their old ones. That the
fault is taken as a next state is log 11. -/
def Obligations.SreadFaultKeepsEarlierGroups : Prop :=
  ∀ (s : State) (k : Nat), s.a.drv = .ready → k < (if s.params.readUnused then 6 else 2) →
    (∀ j < k, s.ackAt j = true) → s.ackAt k = false →
    ∃ t, exec .sread s = .next t ∧ SameMemory s t ∧
      t = { s with
        a := { s.a with
          busFault := true, st := .stalled
          ax := if 2 ≤ k then some (bigEndian (drawnByte s 0) (drawnByte s 1)) else s.a.ax
          ay := if 2 ≤ k then some (bigEndian (drawnByte s 2) (drawnByte s 3)) else s.a.ay
          az := if 2 ≤ k then some (bigEndian (drawnByte s 4) (drawnByte s 5)) else s.a.az
          gx := if 4 ≤ k then some (bigEndian (drawnByte s 6) (drawnByte s 7)) else s.a.gx
          gy := if 4 ≤ k then some (bigEndian (drawnByte s 8) (drawnByte s 9)) else s.a.gy
          gz := if 4 ≤ k then some (bigEndian (drawnByte s 10) (drawnByte s 11)) else s.a.gz }
        sensor := { s.sensor with ptr := [s.sensor.ptr, 0x3B, 0x41, 0x43, 0x49, 0x41].getD k 0 }
        ghost := { s.ghost with
          traceA := s.ghost.traceA ++ (sreadEvents s).take k ++ ((sreadEvents s)[k]?.map failedEvent).toList }
        inp := { s.inp with
          acks := s.inp.acks.drop (k + 1), bytes := s.inp.bytes.drop (if k < 2 then 0 else if k < 4 then 6 else 12) } }

/-- 40_sensor_driver.md R133: `SREAD` before `SRESET`, and a second `SRESET`, are refused. -/
def Obligations.DriverMisuseIsRefused : Prop :=
  ∀ s : State,
    (s.a.drv = .uninit → exec .sread s = .refused .readBeforeReset) ∧
    (s.a.drv = .ready → exec .sreset s = .refused .secondReset)

/-- The five write transfers of 30_encoding.md R101, acknowledged (40_sensor_driver.md R121, R126): the event, the
pointer, and for the two writes of register 0x6B its content and the sensor's mode. The values 0x80 and 0x00 are those
of log 5; that a transfer can be issued by itself is log 13. -/
def Obligations.BusWritesReachTheSensor : Prop :=
  ∀ s : State, s.nextAck = true →
    (∀ i v m, (i, v, m) = (.bwPwrReset, (0x80 : Byte), SdMode.resetting) ∨
        (i, v, m) = (.bwPwrRun, (0x00 : Byte), SdMode.awake) →
      ∃ t, exec i s = .next t ∧ t.sensor.ptr = 0x6C ∧ t.sensor.mode = m ∧
        (∀ x, Memory.read t.sensor.reg x = if x = 0x6B then some v else Memory.read s.sensor.reg x) ∧
        t = { s with
          sensor := t.sensor
          ghost := { s.ghost with traceA := s.ghost.traceA ++ [.busW s.params.sensorAddr [0x6B, v] false] }
          inp := { s.inp with acks := s.inp.acks.drop 1 } }) ∧
    (∀ i p, (i, p) = (.bwPtrAccel, (0x3B : Byte)) ∨ (i, p) = (.bwPtrGyro, (0x43 : Byte)) ∨
        (i, p) = (.bwPtrTemp, (0x41 : Byte)) →
      ∃ t, exec i s = .next t ∧ SameMemory s t ∧
        t = { s with
          sensor := { s.sensor with ptr := p }
          ghost := { s.ghost with traceA := s.ghost.traceA ++ [.busW s.params.sensorAddr [p] true] }
          inp := { s.inp with acks := s.inp.acks.drop 1 } })

/-- The three read transfers of 30_encoding.md R101, acknowledged (40_sensor_driver.md R122, R126, R129 to R131): the
bytes come from the pointer on, which advances by one a byte, and fill the group's registers. From the group's own start
address on, the bytes read are those the transfer carries. -/
def Obligations.BusReadsFillTheGroup : Prop :=
  (∀ (s : State) (b0 b1 b2 b3 b4 b5 : Byte), s.nextAck = true →
    ∃ t r0 r1 r2 r3 r4 r5, exec (.brAccel b0 b1 b2 b3 b4 b5) s = .next t ∧
      [r0, r1, r2, r3, r4, r5] = sensorBytes [b0, b1, b2, b3, b4, b5] s.sensor.ptr s.sensor.reg ∧
      (s.sensor.ptr = 0x3B → [r0, r1, r2, r3, r4, r5] = [b0, b1, b2, b3, b4, b5]) ∧ SameMemory s t ∧
      t = { s with
        a := { s.a with ax := some (bigEndian r0 r1), ay := some (bigEndian r2 r3), az := some (bigEndian r4 r5) }
        sensor := { s.sensor with ptr := s.sensor.ptr + 6 }
        ghost := { s.ghost with
          traceA := s.ghost.traceA ++ [.busR s.params.sensorAddr 6 (some [r0, r1, r2, r3, r4, r5])] }
        inp := { s.inp with acks := s.inp.acks.drop 1 } }) ∧
  (∀ (s : State) (b0 b1 b2 b3 b4 b5 : Byte), s.nextAck = true →
    ∃ t r0 r1 r2 r3 r4 r5, exec (.brGyro b0 b1 b2 b3 b4 b5) s = .next t ∧
      [r0, r1, r2, r3, r4, r5] = sensorBytes [b0, b1, b2, b3, b4, b5] s.sensor.ptr s.sensor.reg ∧
      (s.sensor.ptr = 0x43 → [r0, r1, r2, r3, r4, r5] = [b0, b1, b2, b3, b4, b5]) ∧ SameMemory s t ∧
      t = { s with
        a := { s.a with gx := some (bigEndian r0 r1), gy := some (bigEndian r2 r3), gz := some (bigEndian r4 r5) }
        sensor := { s.sensor with ptr := s.sensor.ptr + 6 }
        ghost := { s.ghost with
          traceA := s.ghost.traceA ++ [.busR s.params.sensorAddr 6 (some [r0, r1, r2, r3, r4, r5])] }
        inp := { s.inp with acks := s.inp.acks.drop 1 } }) ∧
  (∀ (s : State) (b0 b1 : Byte), s.nextAck = true →
    ∃ t r0 r1, exec (.brTemp b0 b1) s = .next t ∧
      [r0, r1] = sensorBytes [b0, b1] s.sensor.ptr s.sensor.reg ∧
      (s.sensor.ptr = 0x41 → [r0, r1] = [b0, b1]) ∧ SameMemory s t ∧
      t = { s with
        a := { s.a with temp := some (bigEndian r0 r1) }
        sensor := { s.sensor with ptr := s.sensor.ptr + 2 }
        ghost := { s.ghost with traceA := s.ghost.traceA ++ [.busR s.params.sensorAddr 2 (some [r0, r1])] }
        inp := { s.inp with acks := s.inp.acks.drop 1 } })

/-- The event of a transfer that the sensor does not acknowledge (40_sensor_driver.md R121, R122); none for a command. -/
def transferFailure (dev : BusAddr) : Instr → Option EventA
  | .bwPwrReset => some (.busW dev [0x6B, 0x80] false)
  | .bwPwrRun => some (.busW dev [0x6B, 0x00] false)
  | .bwPtrAccel => some (.busW dev [0x3B] true)
  | .bwPtrGyro => some (.busW dev [0x43] true)
  | .bwPtrTemp => some (.busW dev [0x41] true)
  | .brAccel .. | .brGyro .. => some (.busR dev 6 none)
  | .brTemp .. => some (.busR dev 2 none)
  | _ => none

/-- 60_exceptions.md R243 for each of the eight transfers: not acknowledged, it sets `bus_fault`, stalls unit A,
leaves the sensor and every register as they were, and emits its own event only. That the fault is taken as a next
state is log 11; that a transfer can be issued by itself is log 13. -/
def Obligations.BusErrorStallsUnitA : Prop :=
  ∀ (s : State) (i : Instr) (e : EventA), transferFailure s.params.sensorAddr i = some e → s.nextAck = false →
    ∃ t, exec i s = .next t ∧ SameMemory s t ∧
      t = { s with
        a := { s.a with busFault := true, st := .stalled }
        ghost := { s.ghost with traceA := s.ghost.traceA ++ [e] }
        inp := { s.inp with acks := s.inp.acks.drop 1 } }

/-- 60_exceptions.md R244: nothing but reset clears `st_A = STALLED` or `bus_fault`; a stalled unit A steps no more, so
its registers, the sensor, its events and the words it has pushed stay. -/
def Obligations.StallIsForEver : Prop :=
  ∀ s t : State, step s = .next t →
    (s.a.busFault = true → t.a.busFault = true) ∧
    (s.a.st = .stalled →
      t.a = s.a ∧ t.sensor = s.sensor ∧ t.ghost.traceA = s.ghost.traceA ∧ t.ghost.histPush = s.ghost.histPush)

/-- 30_encoding.md R101: every bus event any step emits is one of the eight transfers, with its exact data bytes, at
the sensor's address. The values 0x80 and 0x00 are those of log 5. -/
def Obligations.OnlyTheEightTransfersReachTheBus : Prop :=
  ∀ s t : State, step s = .next t → (∀ e ∈ s.ghost.traceA, e.legalFor s.params.sensorAddr) →
    ∀ e ∈ t.ghost.traceA, e.legalFor t.params.sensorAddr

/-- 30_encoding.md R106: no step writes a register of the sensor but `PWR_MGMT`, and that only with `PWR_RESET_VAL` or
`PWR_RUN_VAL`. The values 0x80 and 0x00 are those of log 5. -/
def Obligations.OnlyPowerRegisterIsWritten : Prop :=
  ∀ s t : State, step s = .next t → ∀ x,
    Memory.read t.sensor.reg x = Memory.read s.sensor.reg x ∨
      x = 0x6B ∧ (Memory.read t.sensor.reg x = some 0x80 ∨ Memory.read t.sensor.reg x = some 0x00)

/-- 30_encoding.md R92: the assembly of a 16-bit sample, high byte first, read as a signed value. -/
def Obligations.SampleAssemblyIsBigEndianSigned : Prop :=
  ∀ hi lo : Byte, assemble hi lo = bigEndian hi lo ∧
    (assemble hi lo).toInt =
      if 256 * hi.toNat + lo.toNat < 2 ^ 15 then (256 * hi.toNat + lo.toNat : Int)
      else (256 * hi.toNat + lo.toNat : Int) - 2 ^ 16

/-! ## Orientation encoder -/

/-- 41_orientation_encoder.md R155: the result of `ORIENT` in the spec's own functions. -/
def Obligations.OrientComputesBothAngles : Prop :=
  ∀ (s : State) (ax ay az : S16), s.a.ax = some ax → s.a.ay = some ay → s.a.az = some az →
    ∃ t, exec .orient s = .next t ∧ AdvancedA s t ∧ SameMemory s t ∧
      t = { s with
        a := { s.a with
          pc := t.a.pc, st := t.a.st
          roll := some (atan2deg (normCount ay) (normCount az))
          pitch := some (atan2deg (fNeg (normCount ax)) (hyp (normCount ay) (normCount az))) } }

/-- 41_orientation_encoder.md R155, corner cases (a), (b), (c): the angles of the samples on an axis are exact. -/
def Obligations.OrientIsExactOnTheAxes : Prop :=
  ∀ (s : State) (ax ay az : S16), s.a.ax = some ax → s.a.ay = some ay → s.a.az = some az →
    ∃ t r p, exec .orient s = .next t ∧ t.a.roll = some r ∧ t.a.pitch = some p ∧
      (ax = 0 → p = 0x80000000) ∧
      (ay = 0 → az = 0 → r = 0x00000000 ∧ (0 < ax.toInt → p = 0xC2B40000) ∧ (ax.toInt < 0 → p = 0x42B40000)) ∧
      (ay = 0 → az.toInt < 0 → r = 0x43340000) ∧ (ay = 0 → 0 < az.toInt → r = 0x00000000)

/-- 41_orientation_encoder.md R152: the three exact steps. -/
def Obligations.NormalisationIsExact : Prop :=
  (∀ c : S16, isFinite (fOfInt c.toInt) = true ∧ realOf (fOfInt c.toInt) = (c.toInt : ℚ)) ∧
  (∀ c : S16, isFinite (normCount c) = true ∧ realOf (normCount c) = (c.toInt : ℚ) / 16384 ∧
    -2 ≤ realOf (normCount c) ∧ realOf (normCount c) ≤ 32767 / 16384) ∧
  normCount 0 = 0x00000000 ∧
  (∀ v : F32, (fNeg v).msb = !v.msb ∧ ∀ k < 31, (fNeg v).getLsbD k = v.getLsbD k) ∧ fNeg 0x00000000 = 0x80000000

/-- 41_orientation_encoder.md R153: the two functions of `NUM` have the named properties `P_total`, `P_range`, `P_sign`
and `P_axis`, and `P_acc` with some non-negative bounds. `P_axis` is PRESUMED by the spec (log 8). -/
def Obligations.NumHasTheNamedProperties : Prop :=
  (∀ y x : F32, isFinite y = true → isFinite x = true →
    isFinite (atan2deg y x) = true ∧ isFinite (hyp y x) = true ∧
    -180 ≤ realOf (atan2deg y x) ∧ realOf (atan2deg y x) ≤ 180 ∧
    (0 < realOf y → 0 ≤ realOf (atan2deg y x)) ∧ (realOf y < 0 → realOf (atan2deg y x) ≤ 0) ∧
    0 ≤ realOf (hyp y x) ∧ hyp y x ≠ 0x80000000) ∧
  (∃ epsDeg epsHyp : ℝ, 0 ≤ epsDeg ∧ 0 ≤ epsHyp ∧ Atan2Accurate epsDeg ∧ HypAccurate epsHyp) ∧
  (∀ x : F32, isFinite x = true →
    (0 < realOf x → atan2deg 0x00000000 x = 0x00000000 ∧ atan2deg 0x80000000 x = 0x80000000) ∧
    (realOf x < 0 → atan2deg 0x00000000 x = 0x43340000 ∧ atan2deg 0x80000000 x = 0xC3340000)) ∧
  (∀ y : F32, isFinite y = true →
    (0 < realOf y → atan2deg y 0x00000000 = 0x42B40000) ∧ (realOf y < 0 → atan2deg y 0x00000000 = 0xC2B40000)) ∧
  atan2deg 0x00000000 0x00000000 = 0x00000000 ∧ atan2deg 0x80000000 0x00000000 = 0x80000000 ∧
  hyp 0x00000000 0x00000000 = 0x00000000 ∧
  ∀ v : F32, isFinite v = true → hyp v 0x00000000 = fAbs v ∧ hyp 0x00000000 v = fAbs v

/-- 41_orientation_encoder.md R156: every sample gives angles in [-180, 180]; under the accuracy property the pitch
lies in [-90 - eps, 90 + eps]; roll has the sign of `ay`, pitch the sign of `-ax` (or is 0). The clause for ay = 0
rests on P_axis, which the spec takes from general knowledge (log 8). -/
def Obligations.AnglesStayInRange : Prop :=
  ∀ (s : State) (ax ay az : S16), s.a.ax = some ax → s.a.ay = some ay → s.a.az = some az →
    ∃ t r p, exec .orient s = .next t ∧ t.a.roll = some r ∧ t.a.pitch = some p ∧
      isFinite r = true ∧ isFinite p = true ∧ |realOf r| ≤ 180 ∧ |realOf p| ≤ 180 ∧
      (∀ eps : ℝ, Atan2Accurate eps → |((realOf p : ℚ) : ℝ)| ≤ 90 + eps) ∧
      (0 < ay.toInt → 0 ≤ realOf r) ∧ (ay.toInt < 0 → realOf r ≤ 0) ∧
      (ay = 0 → realOf r = 0 ∨ realOf r = 180) ∧
      (0 < ax.toInt → realOf p ≤ 0) ∧ (ax.toInt < 0 → 0 ≤ realOf p)

/-- 41_orientation_encoder.md R158: the result of `ENCODE` where both angles are in the domain of the quantizer. -/
def Obligations.EncodeQuantizesBothAngles : Prop :=
  ∀ (s : State) (r p : F32) (qr qp : S32), s.a.roll = some r → s.a.pitch = some p →
    quantize r = some qr → quantize p = some qp →
    ∃ t, exec .encode s = .next t ∧ AdvancedA s t ∧ SameMemory s t ∧
      t = { s with a := { s.a with pc := t.a.pc, st := t.a.st, wmRoll := some qr, wmPitch := some qp } }

/-- 41_orientation_encoder.md R157: the quantizer is the binary32 product by 100.0, truncated toward zero, where the
result fits in a signed 32-bit integer; everything else, NaN and infinities among it, is refused. -/
def Obligations.QuantizerTruncatesTowardZero : Prop :=
  ∀ v : F32,
    (∀ q, quantize v = some q →
      isFinite v = true ∧ isFinite (fMul v 0x42C80000) = true ∧
      (0 ≤ realOf (fMul v 0x42C80000) → q.toInt = ⌊realOf (fMul v 0x42C80000)⌋) ∧
      (realOf (fMul v 0x42C80000) < 0 → q.toInt = ⌈realOf (fMul v 0x42C80000)⌉)) ∧
    (quantize v = none ↔
      isFinite v = false ∨ isFinite (fMul v 0x42C80000) = false ∨
      realOf (fMul v 0x42C80000) ≤ -2147483649 ∨ 2147483648 ≤ realOf (fMul v 0x42C80000))

/-- 41_orientation_encoder.md R157 and 60_exceptions.md R251: `ENCODE` outside the domain is refused, roll first. -/
def Obligations.EncodeRefusesOutOfRange : Prop :=
  ∀ (s : State) (r p : F32), s.a.roll = some r → s.a.pitch = some p →
    (quantize r = none → exec .encode s = .refused (.quantRange r)) ∧
    (∀ q, quantize r = some q → quantize p = none → exec .encode s = .refused (.quantRange p))

/-- 41_orientation_encoder.md R159: the quantizer is defined on all of [-180, 180], and stays within 18000. -/
def Obligations.QuantizerIsTotalOnAngles : Prop :=
  ∀ v : F32, isFinite v = true → |realOf v| ≤ 180 → ∃ q, quantize v = some q ∧ |q.toInt| ≤ 18000

/-- 00_scope.md R9: product, quotient and conversion of binary32 are rounded to nearest, ties to even, and the
conversion is exact below 2^24. A result that is not finite is the overflow of log 10. -/
def Obligations.ArithmeticRoundsToNearestEven : Prop :=
  (∀ v w : F32, isFinite v = true → isFinite w = true → isFinite (fMul v w) = true →
    NearestEven (realOf v * realOf w) (fMul v w)) ∧
  (∀ v w : F32, isFinite v = true → isFinite w = true → realOf w ≠ 0 → isFinite (fDiv v w) = true →
    NearestEven (realOf v / realOf w) (fDiv v w)) ∧
  (∀ i : Int, isFinite (fOfInt i) = true → NearestEven i (fOfInt i)) ∧
  ∀ i : Int, |i| < 2 ^ 24 → isFinite (fOfInt i) = true ∧ realOf (fOfInt i) = i

/-- 41_orientation_encoder.md R161: the result of `DECODE`. -/
def Obligations.DecodeDequantizesBothWords : Prop :=
  ∀ (s : State) (r p : S32), s.b.rxRoll = some r → s.b.rxPitch = some p →
    ∃ t, exec .decode s = .next t ∧ AdvancedB s t ∧ SameMemory s t ∧
      t = { s with
        b := { s.b with pc := t.b.pc, st := t.b.st, roll := some (dequantize r), pitch := some (dequantize p) } }

/-- 41_orientation_encoder.md R160: the dequantizer is total and finite, the quotient by 100.0 of the converted integer
rounded to nearest even. -/
def Obligations.DequantizerIsTheRoundedQuotient : Prop :=
  (∀ q : S32, isFinite (fOfInt q.toInt) = true ∧ NearestEven (q.toInt : ℚ) (fOfInt q.toInt) ∧
    NearestEven (realOf (fOfInt q.toInt) / 100) (dequantize q)) ∧
  (∀ q : S32, |q.toInt| < 2 ^ 24 → realOf (fOfInt q.toInt) = q.toInt) ∧ dequantize 0 = 0x00000000

/-- 41_orientation_encoder.md R162, parts (a) to (d): the round trip through the channel's integers. -/
def Obligations.RoundTripErrorIsBounded : Prop :=
  (∀ (v : F32) (q : S32), quantize v = some q →
    (q.toInt = 0 ∨ (0 < q.toInt ∧ 0 < realOf v) ∨ (q.toInt < 0 ∧ realOf v < 0)) ∧
    |(q.toInt : ℚ) - 100 * realOf v| < 1 + |realOf (fMul v 0x42C80000) - 100 * realOf v|) ∧
  (∀ (v : F32) (q : S32), quantize v = some q → |realOf v| ≤ 180 →
    |realOf (fMul v 0x42C80000) - 100 * realOf v| ≤ 1 / 1024 ∧
    |(q.toInt : ℚ) / 100 - realOf v| < 1001 / 100000 ∧
    |realOf (dequantize q) - realOf v| < 1002 / 100000) ∧
  ∀ q : S32, |q.toInt| ≤ 18000 → |realOf (dequantize q) - (q.toInt : ℚ) / 100| ≤ 1 / 131072

/-- 10_state.md R21: an operation that reads a data register holding no value is refused, with the register's name. -/
def Obligations.ReadBeforeWriteIsRefused : Prop :=
  ∀ s : State,
    (s.a.ax = none → exec .orient s = .refused (.readBeforeWrite .ax)) ∧
    (s.a.ax.isSome → s.a.ay = none → exec .orient s = .refused (.readBeforeWrite .ay)) ∧
    (s.a.ax.isSome → s.a.ay.isSome → s.a.az = none → exec .orient s = .refused (.readBeforeWrite .az)) ∧
    (s.a.roll = none → exec .encode s = .refused (.readBeforeWrite .rollA)) ∧
    (s.a.roll.isSome → s.a.pitch = none → exec .encode s = .refused (.readBeforeWrite .pitchA)) ∧
    (s.a.wmRoll = none → exec (.push .roll) s = .refused (.readBeforeWrite .wmRoll)) ∧
    (s.a.wmPitch = none → exec (.push .pitch) s = .refused (.readBeforeWrite .wmPitch)) ∧
    (s.b.rxRoll = none → exec .decode s = .refused (.readBeforeWrite .rxRoll)) ∧
    (s.b.rxRoll.isSome → s.b.rxPitch = none → exec .decode s = .refused (.readBeforeWrite .rxPitch)) ∧
    (s.b.roll = none → exec .redraw s = .refused (.readBeforeWrite .rollB)) ∧
    (s.b.roll.isSome → s.b.pitch = none → exec .redraw s = .refused (.readBeforeWrite .pitchB))

/-- 60_exceptions.md R241 and R242: `BusError` has its label and cause code 1, 0 is "no fault", and the refusals have
their labels and no code. -/
def Obligations.FaultsAndRefusalsCarryTheirLabels : Prop :=
  noFaultCode = 0 ∧
  (∀ info, (HardwareFault.busError info).label = "BusError" ∧ (HardwareFault.busError info).code = 1) ∧
  (∀ r : Refusal, r.code = none) ∧
  (∀ u c, (Refusal.illegalCommand u c).label = some "IllegalCommand") ∧
  (∀ r, (Refusal.readBeforeWrite r).label = some "ReadBeforeWrite") ∧
  Refusal.readBeforeReset.label = some "ReadBeforeReset" ∧ Refusal.secondReset.label = some "SecondReset" ∧
  ∀ v, (Refusal.quantRange v).label = some "QuantRange"

/-! ## Channel -/

/-- 42_channel.md R182: `PUSH` appends the selected register's word, where there is room. -/
def Obligations.PushAppendsTheSelectedWord : Prop :=
  ∀ (s : State) (sel : Sel) (q : S32),
    (match sel with | .roll => s.a.wmRoll | .pitch => s.a.wmPitch) = some q → s.ch.length < s.params.chDepth →
    ∃ t, exec (.push sel) s = .next t ∧ AdvancedA s t ∧ SameMemory s t ∧
      t = { s with
        a := { s.a with pc := t.a.pc, st := t.a.st }
        ch := s.ch ++ [q]
        ghost := { s.ghost with histPush := s.ghost.histPush ++ [q] } }

/-- 42_channel.md R183: `PUSHI` appends its literal word, where there is room. -/
def Obligations.PushiAppendsTheLiteralWord : Prop :=
  ∀ (s : State) (w : Word), s.ch.length < s.params.chDepth →
    ∃ t, exec (.pushi w) s = .next t ∧ AdvancedA s t ∧ SameMemory s t ∧
      t = { s with
        a := { s.a with pc := t.a.pc, st := t.a.st }
        ch := s.ch ++ [w]
        ghost := { s.ghost with histPush := s.ghost.histPush ++ [w] } }

/-- 42_channel.md R185: `POP` removes the oldest word into the selected register; the other keeps its content. -/
def Obligations.PopTakesTheOldestWord : Prop :=
  ∀ (s : State) (sel : Sel) (w : Word) (ws : List Word), s.ch = w :: ws →
    ∃ t, exec (.pop sel) s = .next t ∧ AdvancedB s t ∧ SameMemory s t ∧
      t = { s with
        b := { s.b with
          pc := t.b.pc, st := t.b.st
          rxRoll := if sel = .roll then some w else s.b.rxRoll
          rxPitch := if sel = .pitch then some w else s.b.rxPitch }
        ch := ws
        ghost := { s.ghost with histPop := s.ghost.histPop ++ [w] } }

/-- 42_channel.md R186: a held operation changes nothing; and a `PUSH` of a register without a value is refused before
the hold, even on a full channel (R182). That a hold is a next state equal to the state before is log 11. -/
def Obligations.HeldOperationsChangeNothing : Prop :=
  ∀ s : State,
    (s.params.chDepth ≤ s.ch.length →
      (∀ w, exec (.pushi w) s = .next s) ∧
      ∀ sel, exec (.push sel) s =
        match (match sel with | .roll => s.a.wmRoll | .pitch => s.a.wmPitch) with
        | some _ => .next s
        | none => .refused (.readBeforeWrite (match sel with | .roll => .wmRoll | .pitch => .wmPitch))) ∧
    (s.ch = [] → ∀ sel, exec (.pop sel) s = .next s)

/-- 42_channel.md R188: the word a `POP` returns is, of the words pushed since reset, the one whose number is the count
of the words popped before it. -/
def Obligations.PopReturnsTheWordOfItsNumber : Prop :=
  ∀ (s : State) (sel : Sel), Inv s → s.ch ≠ [] →
    ∃ t w, exec (.pop sel) s = .next t ∧ s.ghost.histPush[s.ghost.histPop.length]? = some w ∧
      (match sel with | .roll => t.b.rxRoll | .pitch => t.b.rxPitch) = some w ∧
      t.ghost.histPop = s.ghost.histPop ++ [w] ∧ t.ghost.histPush = s.ghost.histPush

/-- 42_channel.md R193: a pair popped as roll and pitch is the next two words pushed, whatever unit A meant by them. -/
def Obligations.PoppedPairIsTheNextTwoWords : Prop :=
  ∀ s : State, Inv s → 2 ≤ s.ch.length →
    ∃ t u w0 w1, exec (.pop .roll) s = .next t ∧ exec (.pop .pitch) t = .next u ∧
      s.ghost.histPush[s.ghost.histPop.length]? = some w0 ∧ s.ghost.histPush[s.ghost.histPop.length + 1]? = some w1 ∧
      u.b.rxRoll = some w0 ∧ u.b.rxPitch = some w1 ∧ u.ghost.histPop = s.ghost.histPop ++ [w0, w1]

/-- 42_channel.md R191 (a): the two units are never both held on the channel. -/
def Obligations.HoldsExcludeEachOther : Prop :=
  ∀ s : State, 1 ≤ s.params.chDepth → ¬ (s.held .A = true ∧ s.held .B = true)

/-- 42_channel.md R191 (b): one `POP` lifts the hold of unit A, one push the hold of unit B. -/
def Obligations.TheOtherUnitLiftsTheHold : Prop :=
  ∀ s : State, Inv s →
    (s.held .A = true → ∀ sel, ∃ t, exec (.pop sel) s = .next t ∧ t.held .A = false) ∧
    (s.held .B = true → ∀ w, ∃ t, exec (.pushi w) s = .next t ∧ t.held .B = false) ∧
    (s.held .B = true → ∀ sel, (match sel with | .roll => s.a.wmRoll | .pitch => s.a.wmPitch).isSome →
      ∃ t, exec (.push sel) s = .next t ∧ t.held .B = false)

/-! ## Sequencers -/

/-- 43_sequencers.md R212 and R214: `WAIT n` and `DIAG` record their event and advance. -/
def Obligations.WaitAndDiagRecordTheirEvent : Prop :=
  ∀ (s : State) (i : Instr) (e : EventA), (∃ n, i = .wait n ∧ e = .wait n) ∨ (i = .diag ∧ e = .diag) →
    ∃ t, exec i s = .next t ∧ AdvancedA s t ∧ SameMemory s t ∧
      t = { s with
        a := { s.a with pc := t.a.pc, st := t.a.st }
        ghost := { s.ghost with traceA := s.ghost.traceA ++ [e] } }

/-- 43_sequencers.md R216: `TOGGLE` inverts the indicator and emits its new level. -/
def Obligations.ToggleInvertsTheIndicator : Prop :=
  ∀ s : State, ∃ t, exec .toggle s = .next t ∧ AdvancedB s t ∧ SameMemory s t ∧
    t = { s with
      b := { s.b with pc := t.b.pc, st := t.b.st, ind := !s.b.ind }
      ghost := { s.ghost with traceB := s.ghost.traceB ++ [.ind (!s.b.ind)] } }

/-- 43_sequencers.md R216: the indicator shows the parity of the toggles since reset, after every step. -/
def Obligations.IndicatorShowsToggleParity : Prop :=
  IndicatorParity State.reset ∧ ∀ s t : State, IndicatorParity s → step s = .next t → IndicatorParity t

/-- 43_sequencers.md R218: `REDRAW` hands over the texts of the two angles. -/
def Obligations.RedrawHandsOverBothTexts : Prop :=
  ∀ (s : State) (r p : F32), s.b.roll = some r → s.b.pitch = some p →
    ∃ t, exec .redraw s = .next t ∧ AdvancedB s t ∧ SameMemory s t ∧
      t = { s with
        b := { s.b with pc := t.b.pc, st := t.b.st }
        ghost := { s.ghost with traceB := s.ghost.traceB ++ [.redraw (fmt1 r) (fmt1 p)] } }

/-- 43_sequencers.md R217: the text of a finite value is an optional minus sign, decimal digits, a point and one digit,
and spells a number that differs from the value by at most 0.05. -/
def Obligations.TextIsWithinHalfATenth : Prop :=
  ∀ v : F32, isFinite v = true →
    ∃ d : OneDecimal, fmt1 v = OneDecimal.text d ∧
      (∃ body : List Char, (OneDecimal.text d).toList =
        (if d.minus then ['-'] else []) ++ body ++ ['.', digitChar d.tenth] ∧ body ≠ [] ∧
        ∀ c ∈ body, ∃ n : Fin 10, c = digitChar n) ∧
      |(tenthsOf d : ℚ) / 10 - realOf v| ≤ 1 / 20

/-! ## The whole machine -/

/-- 42_channel.md R187 with 10_state.md R30, R31, R41: every step of every state that meets the invariant keeps it. -/
def Obligations.StepKeepsInvariant : Prop := ∀ s t : State, Inv s → step s = .next t → Inv t

/-- 60_exceptions.md R255 and 42_channel.md R194: in the canonical loops, whatever the depth, the sensor's answers and
the schedule, no step is refused or faults, both units keep whole messages in lock-step, and the invariant is kept.
That a turn of a unit that is held or does not run answers a next state is the choice of the model, logs 6 and 11. -/
def Obligations.CanonicalLoopsAreNeverRefused : Prop :=
  ∀ s : State, CanonInv s → ∃ t, step s = .next t ∧ CanonInv t

/-- 10_state.md R20 and 20_memory.md R83: a step of one unit leaves the other's group alone, and no step writes the
parameters (R80). -/
def Obligations.StepsStayInTheirOwnersGroup : Prop :=
  ∀ (s t : State), step s = .next t → t.params = s.params ∧
    (s.turnOf .A → t.b = s.b ∧ t.ghost.traceB = s.ghost.traceB ∧ t.ghost.histPop = s.ghost.histPop ∧
      ∃ ws, t.ch = s.ch ++ ws) ∧
    (s.turnOf .B → t.a = s.a ∧ t.sensor = s.sensor ∧ t.ghost.traceA = s.ghost.traceA ∧
      t.ghost.histPush = s.ghost.histPush ∧ t.inp.acks = s.inp.acks ∧ t.inp.bytes = s.inp.bytes ∧
      ∃ ws, s.ch = ws ++ t.ch)

/-- 20_memory.md R74: all that a unit observes of the other is the channel. Unit B's step depends on its own group and
the channel's words; unit A's step on its own group, the sensor and its answers, and the channel's level. -/
def Obligations.UnitsObserveOnlyTheChannel : Prop :=
  (∀ s₁ s₂ t₁ : State, s₁.turnOf .B → s₂.turnOf .B → s₁.params = s₂.params → s₁.b = s₂.b → s₁.ch = s₂.ch →
    step s₁ = .next t₁ →
    ∃ t₂, step s₂ = .next t₂ ∧ t₂.b = t₁.b ∧ t₂.ch = t₁.ch ∧
      ∃ es, t₁.ghost.traceB = s₁.ghost.traceB ++ es ∧ t₂.ghost.traceB = s₂.ghost.traceB ++ es) ∧
  (∀ s₁ s₂ t₁ : State, s₁.turnOf .A → s₂.turnOf .A → s₁.params = s₂.params → s₁.a = s₂.a →
    s₁.sensor = s₂.sensor → s₁.inp.acks = s₂.inp.acks → s₁.inp.bytes = s₂.inp.bytes →
    s₁.ch.length = s₂.ch.length → step s₁ = .next t₁ →
    ∃ t₂, step s₂ = .next t₂ ∧ t₂.a = t₁.a ∧ t₂.sensor = t₁.sensor ∧
      (∃ es, t₁.ghost.traceA = s₁.ghost.traceA ++ es ∧ t₂.ghost.traceA = s₂.ghost.traceA ++ es) ∧
      ∃ ws, t₁.ch = s₁.ch ++ ws ∧ t₂.ch = s₂.ch ++ ws)

/-- 60_exceptions.md R261: the states in which the whole block makes no step are those of the table, and with both units
running there is none. The last clause is the model's choice and no rule of the spec: a turn of a unit that cannot step
changes nothing but the draw (logs 6, 11). -/
def Obligations.QuiescentStatesAreTheTable : Prop :=
  ∀ s : State, Inv s → s.quiescent = true →
    ((s.a.st = .stalled ∧ s.b.st = .run ∧ (∃ sel, s.nextOp .B = some (.pop sel)) ∧ s.ch = []) ∨
      (s.a.st = .done ∧ s.b.st = .run ∧ (∃ sel, s.nextOp .B = some (.pop sel)) ∧ s.ch = []) ∨
      (s.a.st = .run ∧ s.b.st = .done ∧
        ((∃ sel, s.nextOp .A = some (.push sel)) ∨ ∃ w, s.nextOp .A = some (.pushi w)) ∧
        s.ch.length = s.params.chDepth) ∨
      s.final = true ∨ (s.a.st = .stalled ∧ s.b.st = .done)) ∧
    (s.inp.busReq = none → step s = .next s.dropTurn)

/-! ## Fair runs -/

/-- 20_memory.md R77: in a weakly fair run every enabled unit performs its next command: the operation it is at, in a
state that leaves its own group as it was. How a run takes its turns from a schedule is log 6. -/
def Obligations.FairRunsStepEveryEnabledUnit : Prop :=
  ∀ (sched : Nat → UnitId) (σ : Nat → State), IsRun sched σ → WeaklyFair sched σ →
    ∀ u n, (σ n).enabled u = true →
      ∃ m i, n ≤ m ∧ sched m = u ∧ (σ m).enabled u = true ∧ (σ n).nextOp u = some i ∧
        exec i (σ m) = .next (σ (m + 1)) ∧ (u = .A → (σ m).a = (σ n).a) ∧ (u = .B → (σ m).b = (σ n).b)

/-- 42_channel.md R191 (b): under weak fairness a held `PUSH` completes if unit B performs one more `POP`, and a held
`POP` completes, with the word pushed, if unit A performs one more push. How a run takes its turns from a schedule is
log 6. -/
def Obligations.FairRunsCompleteHeldOperations : Prop :=
  ∀ (sched : Nat → UnitId) (σ : Nat → State), IsRun sched σ → WeaklyFair sched σ → ∀ n, Inv (σ n) →
    ((σ n).held .A = true → (σ n).a.st = .run →
      (σ (n + 1)).ghost.histPop ≠ (σ n).ghost.histPop →
      ∃ m w, n < m ∧ sched m = .A ∧ (σ (m + 1)).ghost.histPush = (σ n).ghost.histPush ++ [w] ∧
        ((σ n).nextOp .A = some (.pushi w) ∨
          (σ n).nextOp .A = some (.push .roll) ∧ (σ n).a.wmRoll = some w ∨
          (σ n).nextOp .A = some (.push .pitch) ∧ (σ n).a.wmPitch = some w)) ∧
    ((σ n).held .B = true → (σ n).b.st = .run → ∀ w, (σ (n + 1)).ghost.histPush = (σ n).ghost.histPush ++ [w] →
      ∃ m, n < m ∧ sched m = .B ∧ (σ (m + 1)).ghost.histPop = (σ n).ghost.histPop ++ [w])
end

