-- ==== Sys2Proof/Laws/Binary32.lean ====
section
/-! SUPPORT. Binary32 patterns and the rounding to nearest even: what `roundMag` gives is the nearest magnitude, and in
a tie the even pattern. -/

namespace Sys2Proof.Machine

/-! ## Magnitudes -/

/-- A significand of at most 24 bits at exponent `k` has the pattern `k * 2 ^ 23 + r`. -/
theorem magUnits_pattern {k r : Nat} (hr : r ≤ 2 ^ 24) (hk : k = 0 ∨ 2 ^ 23 ≤ r) :
    magUnits (k * 2 ^ 23 + r) = r * 2 ^ k := by
  unfold magUnits
  rcases Nat.lt_or_ge r (2 ^ 23) with h1 | h1
  · obtain rfl : k = 0 := by omega
    rw [if_pos (by omega)]
    simp
  · rcases Nat.lt_or_ge r (2 ^ 24) with h2 | h2
    · have e1 : (k * 2 ^ 23 + r) / 2 ^ 23 = k + 1 := by omega
      have e2 : 2 ^ 23 + (k * 2 ^ 23 + r) % 2 ^ 23 = r := by omega
      rw [if_neg (by omega), e1, e2, Nat.add_sub_cancel]
    · obtain rfl : r = 2 ^ 24 := by omega
      have e1 : (k * 2 ^ 23 + 2 ^ 24) / 2 ^ 23 = k + 2 := by omega
      have e2 : 2 ^ 23 + (k * 2 ^ 23 + 2 ^ 24) % 2 ^ 23 = 2 ^ 23 := by omega
      rw [if_neg (by omega), e1, e2, show k + 2 - 1 = k + 1 from rfl, Nat.pow_succ]
      ring

/-- Every pattern is a significand below 2^24 at an exponent, and the significand is normal but at exponent 0. -/
theorem exists_pattern (p : Nat) :
    ∃ k r, p = k * 2 ^ 23 + r ∧ r < 2 ^ 24 ∧ (k = 0 ∨ 2 ^ 23 ≤ r) ∧ magUnits p = r * 2 ^ k := by
  refine ⟨p / 2 ^ 23 - 1, p - (p / 2 ^ 23 - 1) * 2 ^ 23, by omega, by omega, by omega, ?_⟩
  rw [← magUnits_pattern (by omega) (by omega)]
  congr 1
  omega

@[simp] theorem magUnits_zero : magUnits 0 = 0 := by decide

theorem magUnits_pos {p : Nat} (h : 0 < p) : 0 < magUnits p := by
  obtain ⟨k, r, rfl, -, hk, hm⟩ := exists_pattern p
  rw [hm]
  have : 0 < r := by omega
  positivity

/-! ## Rounding a quotient to an integer -/

/-- The distances of the integers from `m / den` between 0 and 1, times `den`: the nearer of 0 and 1 is nearest, and
in a tie the other one is the only one as near. -/
theorem abs_near {den m : Int} (hm : 0 ≤ m) (hlt : m < den) (j : Int) :
    (2 * m ≤ den → |0 * den - m| ≤ |j * den - m| ∧ (j ≠ 0 → |j * den - m| = |0 * den - m| → 2 * m = den)) ∧
      (den ≤ 2 * m → |1 * den - m| ≤ |j * den - m| ∧ (j ≠ 1 → |j * den - m| = |1 * den - m| → 2 * m = den)) := by
  have hj : j ≤ -1 ∧ j * den ≤ -den ∨ j = 0 ∧ j * den = 0 ∨ j = 1 ∧ j * den = den ∨ 2 ≤ j ∧ 2 * den ≤ j * den := by
    rcases (by omega : j ≤ -1 ∨ j = 0 ∨ j = 1 ∨ 2 ≤ j) with h | h | h | h
    · exact .inl ⟨h, by nlinarith⟩
    · exact .inr (.inl ⟨h, by rw [h, zero_mul]⟩)
    · exact .inr (.inr (.inl ⟨h, by rw [h, one_mul]⟩))
    · exact .inr (.inr (.inr ⟨h, by nlinarith⟩))
  rw [zero_mul, one_mul]
  generalize j * den = z at hj
  rcases abs_cases (z - m) with ⟨e1, _⟩ | ⟨e1, _⟩ <;> rcases abs_cases (0 - m) with ⟨e2, _⟩ | ⟨e2, _⟩ <;>
    rcases abs_cases (den - m) with ⟨e3, _⟩ | ⟨e3, _⟩ <;> rw [e1, e2, e3] <;> omega

/-- The distance of `n` from `num / den`, times `den`, is least for `n = roundEven num den`; and where another integer
is as near, `roundEven num den` is even. -/
theorem roundEven_near {num den : Nat} (hd : 0 < den) (n : Int) :
    |(roundEven num den : Int) * den - num| ≤ |n * den - num| ∧
      (n ≠ roundEven num den → |n * den - num| = |(roundEven num den : Int) * den - num| →
        roundEven num den % 2 = 0) := by
  have hdm := Nat.div_add_mod num den
  have hlt := Nat.mod_lt num hd
  unfold roundEven
  generalize num / den = q at *
  generalize num % den = m at *
  have key : ∀ i : Int, (q + i) * den - num = i * den - m := by
    intro i
    rw [← hdm]
    push_cast
    ring
  obtain ⟨h0, h1⟩ := abs_near (den := den) (m := m) (by omega) (by omega) (n - q)
  rw [← key 0, ← key (n - q), add_sub_cancel, add_zero] at h0
  rw [← key 1, ← key (n - q), add_sub_cancel] at h1
  split_ifs with c1 c2
  · obtain ⟨a, b⟩ := h0 (by omega)
    exact ⟨a, fun hn he => by have := b (by omega) he; omega⟩
  · obtain ⟨a, b⟩ := h1 (by omega)
    exact ⟨by simpa using a, fun hn he => by have := b (by omega) (by simpa using he); omega⟩
  · rcases Nat.mod_two_eq_zero_or_one q with hq | hq
    · simp only [hq, add_zero]
      exact ⟨(h0 (by omega)).1, fun _ _ => trivial⟩
    · simp only [hq]
      exact ⟨by simpa using (h1 (by omega)).1, fun _ _ => by omega⟩

/-- A rounded quotient lies between the bounds of the quotient. -/
theorem roundEven_bounds {num den lo hi : Nat} (hd : 0 < den) (hlo : lo * den ≤ num) (hhi : num ≤ hi * den) :
    lo ≤ roundEven num den ∧ roundEven num den ≤ hi := by
  have h1 := (Nat.le_div_iff_mul_le hd).2 hlo
  have h2 : num / den ≤ hi := Nat.div_le_of_le_mul (by rwa [Nat.mul_comm])
  have hdm := Nat.div_add_mod num den
  unfold roundEven
  by_cases h3 : num / den = hi
  · have : num % den = 0 := by
      rw [h3, Nat.mul_comm] at hdm
      omega
    rw [if_pos (by omega)]
    omega
  · split_ifs <;> omega

/-! ## Rounding a quotient to a magnitude -/

/-- The quotient against its excess bits: 24 bits where there are none, else exactly 24 bits are kept. -/
theorem excessBits_bounds {num den : Nat} (hd : 0 < den) :
    num ≤ 2 ^ 24 * (den * 2 ^ excessBits num den) ∧
      (excessBits num den = 0 ∨ 2 ^ 23 * (den * 2 ^ excessBits num den) ≤ num) := by
  have hlt : num < (num / den + 1) * den := by
    have := Nat.div_add_mod num den
    have := Nat.mod_lt num hd
    rw [Nat.add_mul, Nat.mul_comm]
    omega
  have hle : num / den * den ≤ num := Nat.div_mul_le_self num den
  unfold excessBits
  generalize hq : num / den = q at *
  by_cases h0 : q = 0
  · subst h0
    refine ⟨?_, .inl (by decide)⟩
    simp at hlt ⊢
    omega
  · have h1 := Nat.log2_self_le h0
    have h2 := Nat.lt_log2_self (n := q)
    rcases Nat.lt_or_ge (Nat.log2 q) 24 with h3 | h3
    · have e : Nat.log2 q - 23 = 0 := by omega
      have h4 : q + 1 ≤ 2 ^ 24 := lt_of_lt_of_le h2 (Nat.pow_le_pow_right (by decide) (by omega))
      rw [e]
      refine ⟨?_, .inl rfl⟩
      calc num ≤ (q + 1) * den := hlt.le
        _ ≤ 2 ^ 24 * den := Nat.mul_le_mul_right _ h4
        _ = _ := by ring
    · obtain ⟨k, hk⟩ : ∃ k, Nat.log2 q = 23 + k := ⟨_, (Nat.add_sub_cancel' (by omega)).symm⟩
      rw [hk] at h1 h2 ⊢
      rw [Nat.add_sub_cancel_left]
      refine ⟨?_, .inr ?_⟩
      · calc num ≤ (q + 1) * den := hlt.le
          _ ≤ 2 ^ (23 + k + 1) * den := Nat.mul_le_mul_right _ h2
          _ = _ := by ring
      · calc 2 ^ 23 * (den * 2 ^ k) = 2 ^ (23 + k) * den := by ring
          _ ≤ q * den := Nat.mul_le_mul_right _ h1
          _ ≤ num := hle

/-- The pattern of the rounded magnitude before it is bounded by infinity. -/
def roundPattern (num den : Nat) : Nat :=
  excessBits num den * 2 ^ 23 + roundEven num (den * 2 ^ excessBits num den)

theorem roundMag_eq (num den : Nat) : roundMag num den = min (roundPattern num den) infMag := rfl

/-- Of all magnitudes, `roundPattern` gives the one nearest to `num / den`; and where another is as near, the pattern is
even. Distances are multiplied by `den`. -/
theorem roundPattern_near {num den : Nat} (hd : 0 < den) (p : Nat) :
    |(magUnits (roundPattern num den) : Int) * den - num| ≤ |(magUnits p : Int) * den - num| ∧
      (magUnits p ≠ magUnits (roundPattern num den) →
        |(magUnits p : Int) * den - num| = |(magUnits (roundPattern num den) : Int) * den - num| →
        roundPattern num den % 2 = 0) := by
  obtain ⟨hhi, hlo⟩ := excessBits_bounds (num := num) hd
  unfold roundPattern
  generalize excessBits num den = k at *
  have hdk : 0 < den * 2 ^ k := by positivity
  have hr : roundEven num (den * 2 ^ k) ≤ 2 ^ 24 := (roundEven_bounds (lo := 0) hdk (by simp) hhi).2
  have hr2 : k = 0 ∨ 2 ^ 23 ≤ roundEven num (den * 2 ^ k) :=
    hlo.imp id fun h => (roundEven_bounds hdk h hhi).1
  have near := fun n => roundEven_near (num := num) hdk n
  generalize roundEven num (den * 2 ^ k) = r at *
  rw [magUnits_pattern hr hr2]
  obtain ⟨k', r', rfl, hr', hk', hm⟩ := exists_pattern p
  rw [hm]
  have cast : ∀ n : Int, n * ((den * 2 ^ k : Nat) : Int) - num = n * 2 ^ k * den - num := by
    intro n
    push_cast
    ring
  simp only [cast] at near
  push_cast
  by_cases hkk : k ≤ k'
  · -- the other magnitude is an integer multiple of 2 ^ k
    obtain ⟨j, rfl⟩ := Nat.exists_eq_add_of_le hkk
    have e : (r' : Int) * 2 ^ (k + j) = (r' * 2 ^ j) * 2 ^ k := by ring
    obtain ⟨h1, h2⟩ := near (r' * 2 ^ j)
    rw [e]
    refine ⟨h1, fun hne he => ?_⟩
    have := h2 (fun h => hne (by
      have h' : r' * 2 ^ j = r := by exact_mod_cast h
      rw [← h']
      ring)) he
    omega
  · -- the other magnitude is below 2 ^ 23 * 2 ^ k, and so below the quotient
    have h23 : 2 ^ 23 * (den * 2 ^ k) ≤ num := hlo.resolve_left (by omega)
    have hlt : r' * 2 ^ k' < 2 ^ 23 * 2 ^ k := by
      calc r' * 2 ^ k' < 2 ^ 24 * 2 ^ k' := Nat.mul_lt_mul_of_pos_right hr' (by positivity)
        _ = 2 ^ 23 * 2 ^ (k' + 1) := by ring
        _ ≤ 2 ^ 23 * 2 ^ k := Nat.mul_le_mul_left _ (Nat.pow_le_pow_right (by decide) (by omega))
    have h1 := (near (2 ^ 23)).1
    have h2 : |(2 ^ 23 : Int) * 2 ^ k * den - num| < |(r' : Int) * 2 ^ k' * den - num| := by
      have a : (r' : Int) * 2 ^ k' * den < 2 ^ 23 * 2 ^ k * den := by
        exact_mod_cast Nat.mul_lt_mul_of_pos_right hlt hd
      have b : (2 ^ 23 : Int) * 2 ^ k * den ≤ num := by
        have : 2 ^ 23 * 2 ^ k * den ≤ num := by
          calc 2 ^ 23 * 2 ^ k * den = 2 ^ 23 * (den * 2 ^ k) := by ring
            _ ≤ num := h23
        exact_mod_cast this
      rw [abs_of_nonpos (by linarith), abs_of_nonpos (by linarith)]
      linarith
    exact ⟨(h1.trans_lt h2).le, fun _ he => absurd he (h1.trans_lt h2).ne'⟩

/-- A quotient that is a magnitude is rounded to itself. -/
theorem roundPattern_exact {num den : Nat} (hd : 0 < den) (p : Nat) (h : num = magUnits p * den) :
    magUnits (roundPattern num den) = magUnits p := by
  have h1 := (roundPattern_near (num := num) hd p).1
  rw [h] at h1 ⊢
  push_cast at h1
  rw [sub_self, abs_zero] at h1
  have h2 := sub_eq_zero.1 (abs_eq_zero.1 (le_antisymm h1 (abs_nonneg _)))
  have h3 := mul_right_cancel₀ (by exact_mod_cast hd.ne') h2
  exact_mod_cast h3

/-- A rounding error is at most half of the last place kept. -/
theorem roundPattern_error {num den : Nat} (hd : 0 < den) :
    2 * |(magUnits (roundPattern num den) : Int) * den - num| ≤ den * 2 ^ excessBits num den := by
  obtain ⟨hhi, hlo⟩ := excessBits_bounds (num := num) hd
  unfold roundPattern
  generalize excessBits num den = k at *
  have hdk : 0 < den * 2 ^ k := by positivity
  have hr : roundEven num (den * 2 ^ k) ≤ 2 ^ 24 := (roundEven_bounds (lo := 0) hdk (by simp) hhi).2
  have hr2 : k = 0 ∨ 2 ^ 23 ≤ roundEven num (den * 2 ^ k) :=
    hlo.imp id fun h => (roundEven_bounds hdk h hhi).1
  have near := fun n => (roundEven_near (num := num) hdk n).1
  rw [magUnits_pattern hr hr2]
  generalize roundEven num (den * 2 ^ k) = r at *
  have e : ((r * 2 ^ k : Nat) : Int) * den - num = (r : Int) * ((den * 2 ^ k : Nat) : Int) - num := by
    push_cast
    ring
  have eD : ((den * 2 ^ k : Nat) : Int) = den * 2 ^ k := by push_cast; rfl
  rw [e, ← eD]
  generalize den * 2 ^ k = D at *
  have hdm := Nat.div_add_mod num D
  have hlt := Nat.mod_lt num hdk
  have h0 := near (num / D : Nat)
  have h1 := near ((num / D : Nat) + 1)
  generalize num / D = q at *
  generalize num % D = m at *
  have e0 : ((q : Nat) : Int) * D - num = -m := by
    rw [← hdm]
    push_cast
    ring
  have e1 : (((q : Nat) : Int) + 1) * D - num = D - m := by
    rw [← hdm]
    push_cast
    ring
  rw [e0, abs_neg, Nat.abs_cast] at h0
  rw [e1, abs_of_nonneg (a := (D : Int) - m) (by omega)] at h1
  omega

/-- A small quotient has few excess bits. -/
theorem excessBits_le {num den j : Nat} (h : num < 2 ^ (24 + j) * den) : excessBits num den ≤ j := by
  have h1 : num / den < 2 ^ (24 + j) := Nat.div_lt_of_lt_mul (by rwa [Nat.mul_comm])
  unfold excessBits
  by_cases h0 : num / den = 0
  · simp [h0]
  · have := (Nat.log2_lt h0).2 h1
    omega

/-- A quotient below 2^256 units is rounded to a finite magnitude. -/
theorem roundPattern_lt_infMag {num den : Nat} (hd : 0 < den) (h : num < 2 ^ 256 * den) :
    roundPattern num den < infMag := by
  have hk : excessBits num den ≤ 232 := excessBits_le (by simpa using h)
  have hr : roundEven num (den * 2 ^ excessBits num den) ≤ 2 ^ 24 :=
    (roundEven_bounds (lo := 0) (by positivity) (by simp) (excessBits_bounds hd).1).2
  unfold roundPattern infMag
  generalize excessBits num den = k at *
  omega

/-! ## Signs -/

theorem magBits_lt (v : F32) : magBits v < 2 ^ 31 := Nat.mod_lt _ (by decide)

theorem packF_toNat {mag : Nat} (neg : Bool) (h : mag < 2 ^ 31) :
    (packF neg mag).toNat = (if neg then 2 ^ 31 else 0) + mag := by
  unfold packF
  rw [BitVec.toNat_ofNat, Nat.mod_eq_of_lt]
  split <;> omega

@[simp] theorem magBits_packF {mag : Nat} (neg : Bool) (h : mag < 2 ^ 31) : magBits (packF neg mag) = mag := by
  unfold magBits
  rw [packF_toNat neg h]
  split <;> omega

@[simp] theorem msb_packF {mag : Nat} (neg : Bool) (h : mag < 2 ^ 31) : (packF neg mag).msb = neg := by
  rw [BitVec.msb_eq_decide, packF_toNat neg h]
  cases neg
  · simpa using h
  · simp

/-- A pattern is its sign and its magnitude. -/
theorem packF_msb_magBits (v : F32) : packF v.msb (magBits v) = v := by
  apply BitVec.eq_of_toNat_eq
  have hv := v.isLt
  rw [packF_toNat _ (magBits_lt v), BitVec.msb_eq_decide]
  unfold magBits
  have e : 2 ^ (32 - 1) = 2 ^ 31 := by norm_num
  simp only [e, decide_eq_true_iff]
  split <;> omega

theorem roundMag_lt (num den : Nat) : roundMag num den < 2 ^ 31 :=
  lt_of_le_of_lt (Nat.min_le_right _ _) (by decide)

theorem isFinite_packF {mag : Nat} (neg : Bool) (h : mag < 2 ^ 31) :
    isFinite (packF neg mag) = true ↔ mag < infMag := by
  unfold isFinite
  rw [magBits_packF neg h]
  exact decide_eq_true_iff

/-- A rounded quotient is finite exactly when its pattern is below that of infinity, and is then that pattern. -/
theorem isFinite_roundMag {neg : Bool} {num den : Nat} :
    isFinite (packF neg (roundMag num den)) = true ↔
      roundPattern num den < infMag ∧ roundMag num den = roundPattern num den := by
  rw [isFinite_packF neg (roundMag_lt num den), roundMag_eq]
  omega

theorem units_eq (v : F32) : units v = (if v.msb then -1 else 1) * (magUnits (magBits v) : Int) := by
  unfold units
  split <;> simp

theorem units_packF {mag : Nat} (neg : Bool) (h : mag < 2 ^ 31) :
    units (packF neg mag) = (if neg then -1 else 1) * (magUnits mag : Int) := by
  rw [units_eq, msb_packF neg h, magBits_packF neg h]

theorem natAbs_units (v : F32) : (units v).natAbs = magUnits (magBits v) := by
  rw [units_eq]
  split <;> simp

theorem unitsPerOne_pos : (0 : Rat) < (unitsPerOne : Rat) := by
  unfold unitsPerOne
  positivity

theorem realOf_eq (v : F32) :
    realOf v = (if v.msb then -1 else 1) * ((magUnits (magBits v) : Rat) / (unitsPerOne : Rat)) := by
  unfold realOf
  rw [units_eq]
  push_cast
  ring

/-- The flip of the sign bit flips the sign of the value. -/
theorem fNeg_eq (v : F32) : fNeg v = packF (!v.msb) (magBits v) := by
  apply BitVec.eq_of_toNat_eq
  rw [packF_toNat _ (magBits_lt v)]
  have h := packF_msb_magBits v
  have hm := magBits_lt v
  have hb : ∀ m : Nat, m < 2 ^ 31 → (m ^^^ 2 ^ 31) = 2 ^ 31 + m := by
    intro m hm
    have h1 : m ^^^ 2 ^ 31 = 2 ^ 31 ||| m := by
      apply Nat.eq_of_testBit_eq
      intro i
      rw [Nat.testBit_xor, Nat.testBit_or, Nat.testBit_two_pow]
      by_cases hi : 31 = i
      · subst hi
        simp [Nat.testBit_lt_two_pow hm]
      · simp [hi]
    rw [h1]
    simpa using (Nat.two_pow_add_eq_or_of_lt hm 1).symm
  have hv : v.toNat = (if v.msb then 2 ^ 31 else 0) + magBits v := by
    conv_lhs => rw [← h]
    exact packF_toNat _ hm
  unfold fNeg
  rw [BitVec.toNat_xor, hv]
  change _ ^^^ 2 ^ 31 = _
  cases v.msb
  · simpa using hb _ hm
  · simp only [if_true, Bool.not_true, Bool.false_eq_true, if_false, Nat.zero_add]
    rw [← hb _ hm, Nat.xor_assoc, Nat.xor_self, Nat.xor_zero]

end Sys2Proof.Machine
end

