-- ==== Sys2Proof/Laws/Decode.lean ====
section
/-! SUPPORT. The two fields of a command, and the decoder case by case. -/

namespace Sys2Proof

/-- A command as a number: `op` in the upper four bits, `arg` in the lower 32 (30_encoding.md R97). -/
theorem make_toNat (op : BitVec 4) (arg : Word) : (Cmd.make op arg).toNat = op.toNat * 2 ^ 32 + arg.toNat := by
  rw [Cmd.make, BitVec.toNat_append, ← Nat.shiftLeft_add_eq_or_of_lt arg.isLt, Nat.shiftLeft_eq]

theorem op_toNat (c : Cmd) : c.op.toNat = c.toNat / 2 ^ 32 := by
  have h := c.isLt
  simp only [Cmd.op, BitVec.extractLsb'_toNat, Nat.shiftRight_eq_div_pow]
  omega

theorem arg_toNat (c : Cmd) : c.arg.toNat = c.toNat % 2 ^ 32 := by
  simp only [Cmd.arg, BitVec.extractLsb'_toNat, Nat.shiftRight_eq_div_pow]
  omega

@[simp] theorem make_op (op : BitVec 4) (arg : Word) : (Cmd.make op arg).op = op := by
  apply BitVec.eq_of_toNat_eq
  have h := arg.isLt
  rw [op_toNat, make_toNat]
  omega

@[simp] theorem make_arg (op : BitVec 4) (arg : Word) : (Cmd.make op arg).arg = arg := by
  apply BitVec.eq_of_toNat_eq
  have h := arg.isLt
  rw [arg_toNat, make_toNat]
  omega

/-- A command is its two fields (30_encoding.md R97). -/
@[simp] theorem make_fields (c : Cmd) : Cmd.make c.op c.arg = c := by
  apply BitVec.eq_of_toNat_eq
  rw [make_toNat, op_toNat, arg_toNat]
  omega

theorem decodePlain_ok {arg : Word} {i j : Instr} (h : decodePlain arg i = .ok j) : arg = 0 ∧ j = i := by
  unfold decodePlain at h
  split at h
  · cases h; exact ⟨‹_›, rfl⟩
  · cases h

theorem decodeSel_ok {arg : Word} {mk : Sel → Instr} {j : Instr} (h : decodeSel arg mk = .ok j) :
    ∃ sel : Sel, arg = sel.arg ∧ j = mk sel := by
  unfold decodeSel at h
  split at h
  · cases h; exact ⟨.roll, ‹_›, rfl⟩
  · split at h
    · cases h; exact ⟨.pitch, ‹_›, rfl⟩
    · cases h

theorem decodeSel_arg (sel : Sel) (mk : Sel → Instr) : decodeSel sel.arg mk = .ok (mk sel) := by
  cases sel <;> rfl

/-- A code of 30_encoding.md R100 is one of sixteen. -/
theorem op_cases (op : BitVec 4) :
    op = 0 ∨ op = 1 ∨ op = 2 ∨ op = 3 ∨ op = 4 ∨ op = 5 ∨ op = 6 ∨ op = 7 ∨ op = 8 ∨ op = 9 ∨ op = 10 ∨ op = 11 ∨
      op = 12 ∨ op = 13 ∨ op = 14 ∨ op = 15 := by
  revert op; decide

/-- The operation a code and an operand stand for, and nothing else (30_encoding.md R100). -/
theorem decodeOp_ok {op : BitVec 4} {arg : Word} {i : Instr} (h : decodeOp op arg = .ok i) :
    encode i = .cmd (Cmd.make op arg) := by
  have plain : ∀ {op : BitVec 4} {j : Instr}, encode j = .cmd (Cmd.make op 0) → decodePlain arg j = .ok i →
      encode i = .cmd (Cmd.make op arg) := by
    intro op j he hd
    obtain ⟨rfl, rfl⟩ := decodePlain_ok hd
    exact he
  have none : ∀ {op : BitVec 4}, (Except.error .reservedOp : Except Illegal Instr) = .ok i →
      encode i = .cmd (Cmd.make op arg) := nofun
  rcases op_cases op with e | e | e | e | e | e | e | e | e | e | e | e | e | e | e | e <;> subst e
  · exact none h
  · exact plain rfl h
  · exact plain rfl h
  · exact plain rfl h
  · exact plain rfl h
  · obtain ⟨sel, rfl, rfl⟩ := decodeSel_ok h; rfl
  · cases h; rfl
  · cases h; rfl
  · obtain ⟨sel, rfl, rfl⟩ := decodeSel_ok h; rfl
  · exact plain rfl h
  · exact plain rfl h
  · exact plain rfl h
  · exact plain rfl h
  · exact none h
  · exact none h
  · exact none h

theorem decodeAt_ok_iff {u : UnitId} {c : Cmd} {i : Instr} :
    decodeAt u c = .ok i ↔ decodeCmd c = .ok i ∧ i.port = some u := by
  unfold decodeAt
  split
  · simp [*]
  · rename_i j hj
    by_cases hl : j.legalAt u = true
    · simp only [hl, if_true, hj, Except.ok.injEq]
      refine ⟨fun h => ⟨h, h ▸ by simpa [Instr.legalAt] using hl⟩, fun h => h.1⟩
    · simp only [hl, hj, Except.ok.injEq]
      refine ⟨fun h => (by simp at h), fun h => absurd ?_ hl⟩
      simpa [Instr.legalAt, h.1] using h.2

/-- A mask that leaves out the `k` low bits keeps the bits above them. -/
theorem and_mask (k : Nat) (c : Cmd) : c &&& (BitVec.allOnes 36 <<< k) = (c >>> k) <<< k := by
  apply BitVec.eq_of_getLsbD_eq
  intro i h
  simp only [BitVec.getLsbD_and, BitVec.getLsbD_shiftLeft, BitVec.getLsbD_allOnes, BitVec.getLsbD_ushiftRight]
  by_cases hk : i < k
  · simp [hk]
  · have h1 : k + (i - k) = i := by omega
    have h2 : i - k < 36 := by omega
    simp [hk, h1, h, h2]

end Sys2Proof
end

