-- ==== Sys2Proof/Laws/Draws.lean ====
section
/-! SUPPORT. Streams of draws: dropping in two parts, and what a draw leaves to the next. -/

namespace Sys2Proof.Machine

@[simp] theorem draws_drop_zero {α : Type} (d : Draws α) : d.drop 0 = d := rfl

theorem draws_rest_eq {α : Type} (d : Draws α) : d.rest = d.drop 1 := rfl

@[simp] theorem draws_drop_drop {α : Type} (d : Draws α) (m n : Nat) : (d.drop m).drop n = d.drop (m + n) := by
  induction m generalizing d with
  | zero => simp
  | succ m ih =>
    rw [Nat.succ_add]
    exact ih d.rest

@[simp] theorem draws_drop_rest {α : Type} (d : Draws α) (m : Nat) : (d.drop m).rest = d.drop (m + 1) := by
  rw [draws_rest_eq, draws_drop_drop]

@[simp] theorem draws_rest_drop {α : Type} (d : Draws α) (n : Nat) : d.rest.drop n = d.drop (n + 1) := rfl

theorem draws_take_add {α : Type} (free : Nat → α) (d : Draws α) (m n : Nat) :
    d.take free (m + n) = d.take free m ++ (d.drop m).take free n := by
  induction m generalizing d with
  | zero => simp [Draws.take]
  | succ m ih =>
    rw [Nat.succ_add]
    simp only [Draws.take, List.cons_append]
    rw [ih d.rest]
    rfl

@[simp] theorem draws_take_length {α : Type} (free : Nat → α) (d : Draws α) (n : Nat) :
    (d.take free n).length = n := by
  induction n generalizing d with
  | zero => rfl
  | succ n ih => simp [Draws.take, ih]

/-- Values put in front of a stream are the next ones drawn. -/
theorem draws_take_given {α : Type} (free : Nat → α) (xs ys : List α) (n : Nat) :
    Draws.take free ⟨xs ++ ys, n⟩ xs.length = xs := by
  induction xs with
  | nil => rfl
  | cons x xs ih =>
    simp only [List.cons_append, List.length_cons, Draws.take, Draws.next, Draws.rest]
    rw [ih]

/-- Values put in front of a stream and drawn leave the stream as it was. -/
theorem draws_drop_given {α : Type} (xs ys : List α) (n : Nat) :
    Draws.drop ⟨xs ++ ys, n⟩ xs.length = ⟨ys, n⟩ := by
  induction xs with
  | nil => rfl
  | cons x xs ih => exact ih

theorem nextAck_eq (s : State) : s.nextAck = s.ackAt 0 := rfl

theorem ackAt_dropAck (s : State) (k : Nat) : s.dropAck.ackAt k = s.ackAt (k + 1) := rfl

end Sys2Proof.Machine
end

