-- ==== Sys2Proof/Laws/Memory.lean ====
section
/-! SUPPORT. The sensor's registers as a memory: a read after a write, and the canonical form is kept. -/

namespace Sys2Proof.Machine

/-- A read after a write gives the value written at that address, and elsewhere what it gave before. -/
theorem read_write (m : Memory) (a x : Nat) (v : Byte) :
    Memory.read (Memory.write m a v) x = if x = a then some v else Memory.read m x := by
  induction m with
  | nil => rfl
  | cons c m ih =>
    obtain ⟨b, w⟩ := c
    simp only [Memory.write]
    split_ifs <;> simp_all [Memory.read]

theorem mem_write {m : Memory} {a : Nat} {v : Byte} {c : Host.Cell} (h : c ∈ Memory.write m a v) :
    c = (a, v) ∨ c ∈ m := by
  induction m with
  | nil => simpa [Memory.write] using h
  | cons d m ih =>
    simp only [Memory.write] at h
    split_ifs at h <;> simp only [List.mem_cons] at h ⊢ <;> grind

/-- A write inside the 8-bit space keeps the canonical form. -/
theorem write_wf {m : Memory} {a : Nat} (v : Byte) (h : Memory.wf m) (ha : a < 256) :
    Memory.wf (Memory.write m a v) := by
  refine ⟨?_, fun c hc => (mem_write hc).elim (fun e => by simp [e, ha]) (h.2 c)⟩
  have hp := h.1
  clear h
  induction m with
  | nil => simp [Memory.write]
  | cons d m ih =>
    obtain ⟨b, w⟩ := d
    rw [List.pairwise_cons] at hp
    simp only [Memory.write]
    split_ifs with h1 h2
    · refine List.pairwise_cons.2 ⟨?_, List.pairwise_cons.2 hp⟩
      intro c hc
      rcases List.mem_cons.1 hc with rfl | hc
      · exact h1
      · exact lt_trans h1 (hp.1 c hc)
    · exact List.pairwise_cons.2 ⟨fun c hc => h2 ▸ hp.1 c hc, hp.2⟩
    · refine List.pairwise_cons.2 ⟨fun c hc => ?_, ih hp.2⟩
      rcases mem_write hc with rfl | hc
      · simp only; omega
      · exact hp.1 c hc

theorem storeBytes_wf (vs : List Byte) (z : Sensor) (h : Memory.wf z.reg) : Memory.wf (storeBytes vs z).reg := by
  induction vs generalizing z with
  | nil => exact h
  | cons v vs ih => exact ih _ (write_wf v h z.ptr.isLt)

/-- A write transfer keeps the canonical form of the sensor's registers. -/
theorem sensorWrite_wf (bs : List Byte) (z : Sensor) (h : Memory.wf z.reg) : Memory.wf (sensorWrite bs z).reg := by
  cases bs with
  | nil => exact h
  | cons p vs => exact storeBytes_wf vs _ h

/-- A write of one register (format `BW2`): the pointer, the mode and the register (40_sensor_driver.md R126). -/
theorem sensorWrite_pair (p v : Byte) (z : Sensor) :
    sensorWrite [p, v] z =
      { ptr := p + 1
        mode := if p = Config.regPwr then pwrEffect v z.mode else z.mode
        reg := Memory.write z.reg p.toNat v } := rfl

/-- A pointer write (format `BW1`): the pointer only (40_sensor_driver.md R126). -/
theorem sensorWrite_one (p : Byte) (z : Sensor) : sensorWrite [p] z = { z with ptr := p } := rfl

end Sys2Proof.Machine
end

