-- ==== Sys2Proof/Laws/State.lean ====
section
/-! SUPPORT. One lemma for each group of the state and each update: what the update leaves in it. -/

namespace Sys2Proof.Machine

@[simp] theorem dropTurn_params (s : State) : s.dropTurn.params = s.params := rfl
@[simp] theorem dropTurn_a (s : State) : s.dropTurn.a = s.a := rfl
@[simp] theorem dropTurn_ch (s : State) : s.dropTurn.ch = s.ch := rfl
@[simp] theorem dropTurn_b (s : State) : s.dropTurn.b = s.b := rfl
@[simp] theorem dropTurn_sensor (s : State) : s.dropTurn.sensor = s.sensor := rfl
@[simp] theorem dropTurn_ghost (s : State) : s.dropTurn.ghost = s.ghost := rfl
@[simp] theorem dropTurn_inp (s : State) : s.dropTurn.inp = { s.inp with turns := s.inp.turns.rest } := rfl

@[simp] theorem dropAck_params (s : State) : s.dropAck.params = s.params := rfl
@[simp] theorem dropAck_a (s : State) : s.dropAck.a = s.a := rfl
@[simp] theorem dropAck_ch (s : State) : s.dropAck.ch = s.ch := rfl
@[simp] theorem dropAck_b (s : State) : s.dropAck.b = s.b := rfl
@[simp] theorem dropAck_sensor (s : State) : s.dropAck.sensor = s.sensor := rfl
@[simp] theorem dropAck_ghost (s : State) : s.dropAck.ghost = s.ghost := rfl
@[simp] theorem dropAck_inp (s : State) : s.dropAck.inp = { s.inp with acks := s.inp.acks.rest } := rfl

@[simp] theorem dropBytes_params (n : Nat) (s : State) : (s.dropBytes n).params = s.params := rfl
@[simp] theorem dropBytes_a (n : Nat) (s : State) : (s.dropBytes n).a = s.a := rfl
@[simp] theorem dropBytes_ch (n : Nat) (s : State) : (s.dropBytes n).ch = s.ch := rfl
@[simp] theorem dropBytes_b (n : Nat) (s : State) : (s.dropBytes n).b = s.b := rfl
@[simp] theorem dropBytes_sensor (n : Nat) (s : State) : (s.dropBytes n).sensor = s.sensor := rfl
@[simp] theorem dropBytes_ghost (n : Nat) (s : State) : (s.dropBytes n).ghost = s.ghost := rfl
@[simp] theorem dropBytes_inp (n : Nat) (s : State) : (s.dropBytes n).inp = { s.inp with bytes := s.inp.bytes.drop n } := rfl

@[simp] theorem dropFrame_params (s : State) : s.dropFrame.params = s.params := rfl
@[simp] theorem dropFrame_a (s : State) : s.dropFrame.a = s.a := rfl
@[simp] theorem dropFrame_ch (s : State) : s.dropFrame.ch = s.ch := rfl
@[simp] theorem dropFrame_b (s : State) : s.dropFrame.b = s.b := rfl
@[simp] theorem dropFrame_sensor (s : State) : s.dropFrame.sensor = s.sensor := rfl
@[simp] theorem dropFrame_ghost (s : State) : s.dropFrame.ghost = s.ghost := rfl
@[simp] theorem dropFrame_inp (s : State) : s.dropFrame.inp = { s.inp with busReq := none } := rfl

@[simp] theorem emitA_params (e : EventA) (s : State) : (s.emitA e).params = s.params := rfl
@[simp] theorem emitA_a (e : EventA) (s : State) : (s.emitA e).a = s.a := rfl
@[simp] theorem emitA_ch (e : EventA) (s : State) : (s.emitA e).ch = s.ch := rfl
@[simp] theorem emitA_b (e : EventA) (s : State) : (s.emitA e).b = s.b := rfl
@[simp] theorem emitA_sensor (e : EventA) (s : State) : (s.emitA e).sensor = s.sensor := rfl
@[simp] theorem emitA_ghost (e : EventA) (s : State) : (s.emitA e).ghost = { s.ghost with traceA := s.ghost.traceA ++ [e] } := rfl
@[simp] theorem emitA_inp (e : EventA) (s : State) : (s.emitA e).inp = s.inp := rfl

@[simp] theorem emitB_params (e : EventB) (s : State) : (s.emitB e).params = s.params := rfl
@[simp] theorem emitB_a (e : EventB) (s : State) : (s.emitB e).a = s.a := rfl
@[simp] theorem emitB_ch (e : EventB) (s : State) : (s.emitB e).ch = s.ch := rfl
@[simp] theorem emitB_b (e : EventB) (s : State) : (s.emitB e).b = s.b := rfl
@[simp] theorem emitB_sensor (e : EventB) (s : State) : (s.emitB e).sensor = s.sensor := rfl
@[simp] theorem emitB_ghost (e : EventB) (s : State) : (s.emitB e).ghost = { s.ghost with traceB := s.ghost.traceB ++ [e] } := rfl
@[simp] theorem emitB_inp (e : EventB) (s : State) : (s.emitB e).inp = s.inp := rfl

@[simp] theorem raiseFault_busError (i : BusErrorInfo) (s : State) : raiseFault (.busError i) s = raiseBusError i s := rfl
@[simp] theorem raiseBusError_params (i : BusErrorInfo) (s : State) : (raiseBusError i s).params = s.params := rfl
@[simp] theorem raiseBusError_a (i : BusErrorInfo) (s : State) : (raiseBusError i s).a = { s.a with busFault := true, st := .stalled } := rfl
@[simp] theorem raiseBusError_ch (i : BusErrorInfo) (s : State) : (raiseBusError i s).ch = s.ch := rfl
@[simp] theorem raiseBusError_b (i : BusErrorInfo) (s : State) : (raiseBusError i s).b = s.b := rfl
@[simp] theorem raiseBusError_sensor (i : BusErrorInfo) (s : State) : (raiseBusError i s).sensor = s.sensor := rfl
@[simp] theorem raiseBusError_ghost (i : BusErrorInfo) (s : State) : (raiseBusError i s).ghost = s.ghost := rfl
@[simp] theorem raiseBusError_inp (i : BusErrorInfo) (s : State) : (raiseBusError i s).inp = s.inp := rfl

@[simp] theorem advanceA_params (s : State) : s.advanceA.params = s.params := rfl
@[simp] theorem advanceA_a (s : State) : s.advanceA.a =
    { s.a with
      pc := (nextIndex s.params.progA s.a.pc).getD s.a.pc
      st := if (nextIndex s.params.progA s.a.pc).isSome then s.a.st else .done } := rfl
@[simp] theorem advanceA_ch (s : State) : s.advanceA.ch = s.ch := rfl
@[simp] theorem advanceA_b (s : State) : s.advanceA.b = s.b := rfl
@[simp] theorem advanceA_sensor (s : State) : s.advanceA.sensor = s.sensor := rfl
@[simp] theorem advanceA_ghost (s : State) : s.advanceA.ghost = s.ghost := rfl
@[simp] theorem advanceA_inp (s : State) : s.advanceA.inp = s.inp := rfl

@[simp] theorem advanceB_params (s : State) : s.advanceB.params = s.params := rfl
@[simp] theorem advanceB_a (s : State) : s.advanceB.a = s.a := rfl
@[simp] theorem advanceB_ch (s : State) : s.advanceB.ch = s.ch := rfl
@[simp] theorem advanceB_b (s : State) : s.advanceB.b =
    { s.b with
      pc := (nextIndex s.params.progB s.b.pc).getD s.b.pc
      st := if (nextIndex s.params.progB s.b.pc).isSome then s.b.st else .done } := rfl
@[simp] theorem advanceB_sensor (s : State) : s.advanceB.sensor = s.sensor := rfl
@[simp] theorem advanceB_ghost (s : State) : s.advanceB.ghost = s.ghost := rfl
@[simp] theorem advanceB_inp (s : State) : s.advanceB.inp = s.inp := rfl

end Sys2Proof.Machine
end

