-- ==== Sys2Proof/Laws/Ops.lean ====
section
/-! SUPPORT. One lemma for each shared operation: what it gives in each of its cases. -/

namespace Sys2Proof.Machine

/-! ## Program indices -/

/-- The index after a command, in the words of 10_state.md R32. -/
theorem nextIndex_advanced {St : Type} (p : Program) (done : St) (i : Nat) (st : St) :
    Advanced p done i st ((nextIndex p i).getD i) (if (nextIndex p i).isSome then st else done) := by
  refine ⟨fun h => by simp [nextIndex, h], fun h => ⟨fun j hj => ?_, fun hj => ?_⟩⟩
  · simp [nextIndex, hj, Nat.not_lt.2 h]
  · simp [nextIndex, hj, Nat.not_lt.2 h]

theorem advanceA_advanced (s t : State) (hp : t.params = s.params) (hpc : t.a.pc = s.a.pc) (hst : t.a.st = s.a.st) :
    AdvancedA s t.advanceA := by
  unfold AdvancedA
  simp only [advanceA_a, hp, hpc, hst]
  exact nextIndex_advanced _ _ _ _

theorem advanceB_advanced (s t : State) (hp : t.params = s.params) (hpc : t.b.pc = s.b.pc) (hst : t.b.st = s.b.st) :
    AdvancedB s t.advanceB := by
  unfold AdvancedB
  simp only [advanceB_b, hp, hpc, hst]
  exact nextIndex_advanced _ _ _ _

/-- In a program of the right shape the next index lies inside it. -/
theorem nextIndex_lt {p : Program} {i j : Nat} (hp : p.shapeOk = true) (h : nextIndex p i = some j) :
    j < p.cmds.length := by
  simp only [Program.shapeOk, Bool.and_eq_true] at hp
  unfold nextIndex at h
  split at h
  · cases h; assumption
  · rw [h] at hp
    simpa using hp.2

theorem nextIndex_getD_lt {p : Program} {i : Nat} (hp : p.shapeOk = true) (hi : i < p.cmds.length) :
    (nextIndex p i).getD i < p.cmds.length := by
  cases h : nextIndex p i with
  | none => exact hi
  | some j => exact nextIndex_lt hp h

/-! ## Bus transfers -/

theorem busWrite_of_ack {s : State} (dev : BusAddr) (bytes : List Byte) (nostop : Bool) (h : s.nextAck = true) :
    busWrite dev bytes nostop s =
      .ack () { s with
        sensor := sensorWrite bytes s.sensor
        ghost := { s.ghost with traceA := s.ghost.traceA ++ [.busW dev bytes nostop] }
        inp := { s.inp with acks := s.inp.acks.drop 1 } } := by
  simp only [busWrite, h, if_true]
  rfl

theorem busWrite_of_nack {s : State} (dev : BusAddr) (bytes : List Byte) (nostop : Bool) (h : s.nextAck = false) :
    busWrite dev bytes nostop s =
      .stalled { s with
        a := { s.a with busFault := true, st := .stalled }
        ghost := { s.ghost with traceA := s.ghost.traceA ++ [.busW dev bytes nostop] }
        inp := { s.inp with acks := s.inp.acks.drop 1 } } := by
  simp only [busWrite, h]
  rfl

theorem busRead_of_ack {s : State} (dev : BusAddr) (n : Nat) (h : s.nextAck = true) :
    busRead dev n s =
      .ack (s.readBurst n) { s with
        sensor := { s.sensor with ptr := s.sensor.ptr + BitVec.ofNat 8 n }
        ghost := { s.ghost with traceA := s.ghost.traceA ++ [.busR dev n (some (s.readBurst n))] }
        inp := { s.inp with acks := s.inp.acks.drop 1, bytes := s.inp.bytes.drop n } } := by
  simp only [busRead, h, if_true]
  rfl

theorem busRead_of_nack {s : State} (dev : BusAddr) (n : Nat) (h : s.nextAck = false) :
    busRead dev n s =
      .stalled { s with
        a := { s.a with busFault := true, st := .stalled }
        ghost := { s.ghost with traceA := s.ghost.traceA ++ [.busR dev n none] }
        inp := { s.inp with acks := s.inp.acks.drop 1 } } := by
  simp only [busRead, h]
  rfl

@[simp] theorem sensorBytes_length (ds : List Byte) (p : Byte) (m : Memory) : (sensorBytes ds p m).length = ds.length := by
  induction ds generalizing p with
  | nil => rfl
  | cons d ds ih => simp [sensorBytes, ih]

@[simp] theorem readBurst_length (s : State) (n : Nat) : (s.readBurst n).length = n := by
  simp [State.readBurst, State.takeBytes]

/-- A byte of a data register is the drawn one. -/
theorem sensorByte_data (d p : Byte) (m : Memory) (h : Config.regAccel ≤ p ∧ p ≤ Config.regDataLast) :
    sensorByte d p m = d := if_pos h

/-- Six bytes read from `REG_ACCEL` on are the six drawn. -/
theorem sensorBytes_accel (b0 b1 b2 b3 b4 b5 : Byte) (m : Memory) :
    sensorBytes [b0, b1, b2, b3, b4, b5] Config.regAccel m = [b0, b1, b2, b3, b4, b5] := by
  simp [sensorBytes, sensorByte, Config.regAccel, Config.regDataLast]

/-- Six bytes read from `REG_GYRO` on are the six drawn. -/
theorem sensorBytes_gyro (b0 b1 b2 b3 b4 b5 : Byte) (m : Memory) :
    sensorBytes [b0, b1, b2, b3, b4, b5] Config.regGyro m = [b0, b1, b2, b3, b4, b5] := by
  simp [sensorBytes, sensorByte, Config.regAccel, Config.regGyro, Config.regDataLast]

/-- Two bytes read from `REG_TEMP` on are the two drawn. -/
theorem sensorBytes_temp (b0 b1 : Byte) (m : Memory) :
    sensorBytes [b0, b1] Config.regTemp m = [b0, b1] := by
  simp [sensorBytes, sensorByte, Config.regAccel, Config.regTemp, Config.regDataLast]

/-- Two bytes put together, high byte first (20_memory.md R63). -/
theorem assemble_toNat (hi lo : Byte) : (assemble hi lo).toNat = 256 * hi.toNat + lo.toNat := by
  have h : hi.toNat * 256 ||| lo.toNat = hi.toNat * 256 + lo.toNat := by
    simpa [Nat.shiftLeft_eq] using (Nat.shiftLeft_add_eq_or_of_lt (a := hi.toNat) (i := 8) lo.isLt).symm
  have h1 := hi.isLt
  have h2 := lo.isLt
  simp only [assemble, BitVec.toNat_or, BitVec.toNat_shiftLeft, BitVec.toNat_setWidth, Nat.shiftLeft_eq]
  rw [Nat.mod_eq_of_lt (a := hi.toNat) (by omega), Nat.mod_eq_of_lt (a := lo.toNat) (by omega),
    Nat.mod_eq_of_lt (a := hi.toNat * 2 ^ 8) (by omega), h, Nat.mul_comm]

/-- Six bytes in a list. -/
theorem list_six {l : List Byte} (h : l.length = 6) : ∃ b0 b1 b2 b3 b4 b5, l = [b0, b1, b2, b3, b4, b5] :=
  match l, h with
  | [b0, b1, b2, b3, b4, b5], _ => ⟨b0, b1, b2, b3, b4, b5, rfl⟩

/-- Two bytes in a list. -/
theorem list_two {l : List Byte} (h : l.length = 2) : ∃ b0 b1, l = [b0, b1] :=
  match l, h with
  | [b0, b1], _ => ⟨b0, b1, rfl⟩

/-- An acceleration group is the next six bytes drawn (40_sensor_driver.md R129). -/
theorem readBurst_accel {s : State} (h : s.sensor.ptr = Config.regAccel) : s.readBurst 6 = s.takeBytes 6 := by
  obtain ⟨b0, b1, b2, b3, b4, b5, hl⟩ := list_six (l := s.takeBytes 6) (by simp [State.takeBytes])
  rw [State.readBurst, h, hl, sensorBytes_accel]

/-- An angular-rate group is the next six bytes drawn (40_sensor_driver.md R130). -/
theorem readBurst_gyro {s : State} (h : s.sensor.ptr = Config.regGyro) : s.readBurst 6 = s.takeBytes 6 := by
  obtain ⟨b0, b1, b2, b3, b4, b5, hl⟩ := list_six (l := s.takeBytes 6) (by simp [State.takeBytes])
  rw [State.readBurst, h, hl, sensorBytes_gyro]

/-- The temperature is the next two bytes drawn (40_sensor_driver.md R131). -/
theorem readBurst_temp {s : State} (h : s.sensor.ptr = Config.regTemp) : s.readBurst 2 = s.takeBytes 2 := by
  obtain ⟨b0, b1, hl⟩ := list_two (l := s.takeBytes 2) (by simp [State.takeBytes])
  rw [State.readBurst, h, hl, sensorBytes_temp]

/-! ## The transfers by themselves -/

theorem runWrite_of_ack {s : State} (bytes : List Byte) (nostop : Bool) (h : s.nextAck = true) :
    runWrite bytes nostop s =
      { s with
        sensor := sensorWrite bytes s.sensor
        ghost := { s.ghost with traceA := s.ghost.traceA ++ [.busW s.params.sensorAddr bytes nostop] }
        inp := { s.inp with acks := s.inp.acks.drop 1 } } := by
  simp only [runWrite, busWrite_of_ack _ _ _ h, BusOutcome.finish]

theorem runWrite_of_nack {s : State} (bytes : List Byte) (nostop : Bool) (h : s.nextAck = false) :
    runWrite bytes nostop s =
      { s with
        a := { s.a with busFault := true, st := .stalled }
        ghost := { s.ghost with traceA := s.ghost.traceA ++ [.busW s.params.sensorAddr bytes nostop] }
        inp := { s.inp with acks := s.inp.acks.drop 1 } } := by
  simp only [runWrite, busWrite_of_nack _ _ _ h, BusOutcome.finish]

theorem runRead_of_ack {s : State} (bytes : List Byte) (store : List Byte → State → State) (h : s.nextAck = true) :
    runRead bytes store s =
      store (sensorBytes bytes s.sensor.ptr s.sensor.reg)
        { s with
          sensor := { s.sensor with ptr := s.sensor.ptr + BitVec.ofNat 8 bytes.length }
          ghost := { s.ghost with
            traceA := s.ghost.traceA ++
              [.busR s.params.sensorAddr bytes.length (some (sensorBytes bytes s.sensor.ptr s.sensor.reg))] }
          inp := { s.inp with acks := s.inp.acks.drop 1 } } := by
  have h2 : (s.offerBytes bytes).nextAck = true := by
    simp only [State.offerBytes, h, if_true]
    exact h
  have h3 : (s.offerBytes bytes).readBurst bytes.length = sensorBytes bytes s.sensor.ptr s.sensor.reg := by
    simp only [State.readBurst, State.takeBytes, State.offerBytes, h, if_true, draws_take_given]
  simp only [runRead, busRead_of_ack _ _ h2, BusOutcome.finish, h3]
  simp only [State.offerBytes, h, if_true, draws_drop_given]

theorem runRead_of_nack {s : State} (bytes : List Byte) (store : List Byte → State → State) (h : s.nextAck = false) :
    runRead bytes store s =
      { s with
        a := { s.a with busFault := true, st := .stalled }
        ghost := { s.ghost with traceA := s.ghost.traceA ++ [.busR s.params.sensorAddr bytes.length none] }
        inp := { s.inp with acks := s.inp.acks.drop 1 } } := by
  have h1 : s.offerBytes bytes = s := by simp [State.offerBytes, h]
  simp only [runRead, h1, busRead_of_nack _ _ h, BusOutcome.finish]

/-! ## The channel -/

theorem chHasRoom_iff {s : State} : s.chHasRoom = true ↔ s.ch.length < s.params.chDepth := by
  unfold State.chHasRoom State.chLevel
  exact decide_eq_true_iff

theorem chHasRoom_eq_false_iff {s : State} : s.chHasRoom = false ↔ s.params.chDepth ≤ s.ch.length := by
  unfold State.chHasRoom State.chLevel
  exact decide_eq_false_iff_not.trans Nat.not_lt

theorem chEmpty_iff {s : State} : s.chEmpty = true ↔ s.ch = [] := by
  simp [State.chEmpty, State.chLevel]

theorem chPush_of_room {s : State} (w : Word) (h : s.ch.length < s.params.chDepth) :
    chPush w s = some { s with ch := s.ch ++ [w], ghost := { s.ghost with histPush := s.ghost.histPush ++ [w] } } := by
  simp [chPush, State.chHasRoom, State.chLevel, h]

theorem chPush_of_full {s : State} (w : Word) (h : s.params.chDepth ≤ s.ch.length) : chPush w s = none := by
  simp [chPush, State.chHasRoom, State.chLevel, Nat.not_lt.2 h]

theorem chPop_of_empty {s : State} (h : s.ch = []) : chPop s = none := by
  simp [chPop, h]

theorem chPop_of_cons {s : State} {w : Word} {ws : List Word} (h : s.ch = w :: ws) :
    chPop s = some (w, { s with ch := ws, ghost := { s.ghost with histPop := s.ghost.histPop ++ [w] } }) := by
  simp [chPop, h]

end Sys2Proof.Machine
end

