-- ==== Sys2Proof/Laws/Effects.lean ====
section
/-! SUPPORT. What an operation of each unit can do, said once: every operation of unit A is an `EffectA`, every operation
of unit B an `EffectB`, before the program index advances. -/

namespace Sys2Proof.Machine

/-- What an operation of unit A can change before it advances: its own registers (not its index), the sensor, the end of
the channel, its own events and the sensor's answers. Either it completes, or it ends in the stall. -/
structure EffectA (s t : State) : Prop where
  params : t.params = s.params
  b : t.b = s.b
  push : ∃ ws, t.ch = s.ch ++ ws ∧ t.ghost.histPush = s.ghost.histPush ++ ws
  level : s.ch.length ≤ s.params.chDepth → t.ch.length ≤ s.params.chDepth
  histPop : t.ghost.histPop = s.ghost.histPop
  traceB : t.ghost.traceB = s.ghost.traceB
  events : ∃ es, t.ghost.traceA = s.ghost.traceA ++ es ∧ ∀ e ∈ es, e.legalFor s.params.sensorAddr
  pc : t.a.pc = s.a.pc
  status : t.a.st = s.a.st ∧ t.a.busFault = s.a.busFault ∨ t.a.st = .stalled ∧ t.a.busFault = true
  memory : Memory.wf s.sensor.reg → Memory.wf t.sensor.reg
  power : ∀ x, Memory.read t.sensor.reg x = Memory.read s.sensor.reg x ∨
    x = 0x6B ∧ (Memory.read t.sensor.reg x = some 0x80 ∨ Memory.read t.sensor.reg x = some 0x00)
  turns : t.inp.turns = s.inp.turns
  busReq : t.inp.busReq = s.inp.busReq

/-- What an operation of unit B can change before it advances: its own registers (not its index), the front of the
channel and its own events. -/
structure EffectB (s t : State) : Prop where
  params : t.params = s.params
  a : t.a = s.a
  sensor : t.sensor = s.sensor
  inp : t.inp = s.inp
  pop : ∃ ws, s.ch = ws ++ t.ch ∧ t.ghost.histPop = s.ghost.histPop ++ ws
  histPush : t.ghost.histPush = s.ghost.histPush
  traceA : t.ghost.traceA = s.ghost.traceA
  pc : t.b.pc = s.b.pc
  st : t.b.st = s.b.st
  indicator : IndicatorParity s → IndicatorParity t

theorem EffectA.refl (s : State) : EffectA s s where
  params := rfl
  b := rfl
  push := ⟨[], by simp, by simp⟩
  level h := h
  histPop := rfl
  traceB := rfl
  events := ⟨[], by simp, by simp⟩
  pc := rfl
  status := .inl ⟨rfl, rfl⟩
  memory h := h
  power _ := .inl rfl
  turns := rfl
  busReq := rfl

theorem EffectA.trans {s t u : State} (h : EffectA s t) (k : EffectA t u) : EffectA s u where
  params := k.params.trans h.params
  b := k.b.trans h.b
  push := by
    obtain ⟨ws, h1, h2⟩ := h.push
    obtain ⟨vs, k1, k2⟩ := k.push
    exact ⟨ws ++ vs, by simp [k1, h1], by simp [k2, h2]⟩
  level hl := by simpa [h.params] using k.level (by simpa [h.params] using h.level hl)
  histPop := k.histPop.trans h.histPop
  traceB := k.traceB.trans h.traceB
  events := by
    obtain ⟨es, h1, h2⟩ := h.events
    obtain ⟨fs, k1, k2⟩ := k.events
    refine ⟨es ++ fs, by simp [k1, h1], fun e he => ?_⟩
    rcases List.mem_append.1 he with he | he
    · exact h2 e he
    · simpa [h.params] using k2 e he
  pc := k.pc.trans h.pc
  status := by
    rcases k.status with ⟨k1, k2⟩ | k
    · rcases h.status with ⟨h1, h2⟩ | h
      · exact .inl ⟨k1.trans h1, k2.trans h2⟩
      · exact .inr ⟨k1.trans h.1, k2.trans h.2⟩
    · exact .inr k
  memory hm := k.memory (h.memory hm)
  power x := by
    rcases k.power x with e | e
    · rw [e]; exact h.power x
    · exact .inr e
  turns := k.turns.trans h.turns
  busReq := k.busReq.trans h.busReq

theorem EffectB.refl (s : State) : EffectB s s where
  params := rfl
  a := rfl
  sensor := rfl
  inp := rfl
  pop := ⟨[], by simp, by simp⟩
  histPush := rfl
  traceA := rfl
  pc := rfl
  st := rfl
  indicator h := h

/-- A change of unit A's data registers and driver state alone. -/
theorem EffectA.ofRegs {s t : State} (ht : t = { s with a := t.a }) (hpc : t.a.pc = s.a.pc) (hst : t.a.st = s.a.st)
    (hf : t.a.busFault = s.a.busFault) : EffectA s t := by
  rw [ht]
  exact { EffectA.refl s with pc := hpc, status := .inl ⟨hst, hf⟩ }

/-- An event of unit A that is none of the bus, or a legal one. -/
theorem effectA_emitA (s : State) (e : EventA) (he : e.legalFor s.params.sensorAddr) : EffectA s (s.emitA e) :=
  { EffectA.refl s with events := ⟨[e], rfl, by simpa using he⟩ }

/-! ## Sequences of transfers -/

/-- What a sequence of transfers does: an `EffectA`, and a completed one leaves the status as it was. -/
def BusOutcome.EffectFrom {α : Type} (s : State) : BusOutcome α → Prop
  | .ack _ t => EffectA s t ∧ t.a.st = s.a.st ∧ t.a.busFault = s.a.busFault
  | .stalled t => EffectA s t ∧ t.a.st = .stalled

theorem effectFrom_andThen {α β : Type} {s : State} {o : BusOutcome α} {f : α → State → BusOutcome β}
    (ho : o.EffectFrom s) (hf : ∀ r t, EffectA s t → (f r t).EffectFrom t) : (o.andThen f).EffectFrom s := by
  cases o with
  | stalled t => exact ho
  | ack r t =>
    have h2 := hf r t ho.1
    simp only [BusOutcome.andThen]
    cases hft : f r t with
    | ack r' u =>
      rw [hft] at h2
      exact ⟨ho.1.trans h2.1, h2.2.1.trans ho.2.1, h2.2.2.trans ho.2.2⟩
    | stalled u =>
      rw [hft] at h2
      exact ⟨ho.1.trans h2.1, h2.2⟩

/-- The five write transfers of 30_encoding.md R101. -/
def LegalWrite (bytes : List Byte) (nostop : Bool) : Prop :=
  (bytes, nostop) = ([0x6B, 0x80], false) ∨ (bytes, nostop) = ([0x6B, 0x00], false) ∨
    (bytes, nostop) = ([0x3B], true) ∨ (bytes, nostop) = ([0x43], true) ∨ (bytes, nostop) = ([0x41], true)

theorem sensorWrite_power {bytes : List Byte} {nostop : Bool} (hb : LegalWrite bytes nostop) (z : Sensor) (x : Nat) :
    Memory.read (sensorWrite bytes z).reg x = Memory.read z.reg x ∨
      x = 0x6B ∧ (Memory.read (sensorWrite bytes z).reg x = some 0x80 ∨
        Memory.read (sensorWrite bytes z).reg x = some 0x00) := by
  have key : ∀ v : Byte, v = 0x80 ∨ v = 0x00 → Memory.read (sensorWrite [0x6B, v] z).reg x = Memory.read z.reg x ∨
      x = 0x6B ∧ (Memory.read (sensorWrite [0x6B, v] z).reg x = some 0x80 ∨
        Memory.read (sensorWrite [0x6B, v] z).reg x = some 0x00) := by
    intro v hv
    simp only [sensorWrite_pair, read_write]
    by_cases hx : x = BitVec.toNat (0x6B : Byte)
    · right
      refine ⟨hx, ?_⟩
      simp only [if_pos hx, Option.some.injEq]
      exact hv
    · left; rw [if_neg hx]
  rcases hb with h | h | h | h | h <;> simp only [Prod.mk.injEq] at h <;> rw [h.1]
  · exact key _ (.inl rfl)
  · exact key _ (.inr rfl)
  all_goals exact .inl rfl

theorem busWrite_effect {s : State} {bytes : List Byte} {nostop : Bool} (hb : LegalWrite bytes nostop) :
    (busWrite s.params.sensorAddr bytes nostop s).EffectFrom s := by
  have he : EventA.legalFor s.params.sensorAddr (.busW s.params.sensorAddr bytes nostop) := ⟨rfl, hb⟩
  cases h : s.nextAck with
  | true =>
    rw [busWrite_of_ack _ _ _ h]
    exact ⟨{ EffectA.refl s with
      events := ⟨[_], rfl, by simpa using he⟩
      memory := sensorWrite_wf bytes s.sensor
      power := sensorWrite_power hb s.sensor }, rfl, rfl⟩
  | false =>
    rw [busWrite_of_nack _ _ _ h]
    exact ⟨{ EffectA.refl s with
      events := ⟨[_], rfl, by simpa using he⟩
      status := .inr ⟨rfl, rfl⟩ }, rfl⟩

theorem busRead_effect {s : State} {n : Nat} (hn : n = 6 ∨ n = 2) :
    (busRead s.params.sensorAddr n s).EffectFrom s := by
  cases h : s.nextAck with
  | true =>
    rw [busRead_of_ack _ _ h]
    exact ⟨{ EffectA.refl s with
      events := ⟨[_], rfl, by simpa using ⟨rfl, hn, fun bs hbs => by cases hbs; simp⟩⟩ }, rfl, rfl⟩
  | false =>
    rw [busRead_of_nack _ _ h]
    exact ⟨{ EffectA.refl s with
      events := ⟨[_], rfl, by simpa using ⟨rfl, hn, fun bs hbs => by cases hbs⟩⟩
      status := .inr ⟨rfl, rfl⟩ }, rfl⟩

theorem memRead_effect {s : State} {addr : Byte} {n : Nat} (ha : LegalWrite [addr] true) (hn : n = 6 ∨ n = 2) :
    (memRead addr n s).EffectFrom s :=
  effectFrom_andThen (busWrite_effect ha) fun _ _ _ => busRead_effect hn

theorem readGroup_effect {s : State} {addr : Byte} {n : Nat} {store : List Byte → State → State}
    (ha : LegalWrite [addr] true) (hn : n = 6 ∨ n = 2)
    (hs : ∀ b t, EffectA t (store b t) ∧ (store b t).a.st = t.a.st ∧ (store b t).a.busFault = t.a.busFault) :
    (readGroup addr n store s).EffectFrom s :=
  effectFrom_andThen (memRead_effect ha hn) fun b t _ => hs b t

theorem storeAccel_effect (b : List Byte) (t : State) :
    EffectA t (storeAccel b t) ∧ (storeAccel b t).a.st = t.a.st ∧ (storeAccel b t).a.busFault = t.a.busFault :=
  ⟨EffectA.ofRegs rfl rfl rfl rfl, rfl, rfl⟩

theorem storeGyro_effect (b : List Byte) (t : State) :
    EffectA t (storeGyro b t) ∧ (storeGyro b t).a.st = t.a.st ∧ (storeGyro b t).a.busFault = t.a.busFault :=
  ⟨EffectA.ofRegs rfl rfl rfl rfl, rfl, rfl⟩

theorem storeTemp_effect (b : List Byte) (t : State) :
    EffectA t (storeTemp b t) ∧ (storeTemp b t).a.st = t.a.st ∧ (storeTemp b t).a.busFault = t.a.busFault :=
  ⟨EffectA.ofRegs rfl rfl rfl rfl, rfl, rfl⟩

theorem sresetTransfers_effect (s : State) : (sresetTransfers s).EffectFrom s := by
  refine effectFrom_andThen (busWrite_effect (.inl rfl)) fun _ t _ => ?_
  have h := busWrite_effect (s := t.emitA (.wait Config.tResetHold)) (bytes := [Config.regPwr, Config.pwrRunVal])
    (nostop := false) (.inr (.inl rfl))
  have he := effectA_emitA t (.wait Config.tResetHold) trivial
  unfold memWrite
  cases ho : busWrite (t.emitA (.wait Config.tResetHold)).params.sensorAddr [Config.regPwr, Config.pwrRunVal] false
      (t.emitA (.wait Config.tResetHold)) with
  | ack r u =>
    rw [ho] at h
    exact ⟨he.trans h.1, h.2.1, h.2.2⟩
  | stalled u =>
    rw [ho] at h
    exact ⟨he.trans h.1, h.2⟩

theorem sreadTransfers_effect (s : State) : (sreadTransfers s).EffectFrom s := by
  refine effectFrom_andThen
    (readGroup_effect (.inr (.inr (.inl rfl))) (.inl rfl) storeAccel_effect) fun _ t _ => ?_
  split
  · refine effectFrom_andThen
      (readGroup_effect (.inr (.inr (.inr (.inl rfl)))) (.inl rfl) storeGyro_effect) fun _ u _ => ?_
    exact readGroup_effect (.inr (.inr (.inr (.inr rfl)))) (.inr rfl) storeTemp_effect
  · exact ⟨EffectA.refl t, rfl, rfl⟩

/-! ## Every operation -/

/-- An operation of unit A: an effect, and then the index advances or not. -/
def StepsA (s t : State) : Prop :=
  ∃ m, EffectA s m ∧ (t = m ∨ t = m.advanceA ∧ m.a.st = s.a.st ∧ m.a.busFault = s.a.busFault)

/-- An operation of unit B: an effect, and then the index advances or not. -/
def StepsB (s t : State) : Prop := ∃ m, EffectB s m ∧ (t = m ∨ t = m.advanceB)

theorem stepsA_finish {s : State} {o : BusOutcome Unit} (ho : o.EffectFrom s) :
    StepsA s (o.finish fun _ t => t.advanceA) := by
  cases o with
  | ack r t => exact ⟨t, ho.1, .inr ⟨rfl, ho.2⟩⟩
  | stalled t => exact ⟨t, ho.1, .inl rfl⟩

theorem offerBytes_effect (s : State) (bytes : List Byte) : EffectA s (s.offerBytes bytes) := by
  unfold State.offerBytes
  split
  · exact { EffectA.refl s with }
  · exact EffectA.refl s

theorem runWrite_effect {s : State} {bytes : List Byte} {nostop : Bool} (hb : LegalWrite bytes nostop) :
    EffectA s (runWrite bytes nostop s) := by
  have h := busWrite_effect (s := s) hb
  unfold runWrite
  cases ho : busWrite s.params.sensorAddr bytes nostop s with
  | ack r t => rw [ho] at h; exact h.1
  | stalled t => rw [ho] at h; exact h.1

theorem runRead_effect {s : State} {bytes : List Byte} {store : List Byte → State → State}
    (hn : bytes.length = 6 ∨ bytes.length = 2) (hs : ∀ b t, EffectA t (store b t)) :
    EffectA s (runRead bytes store s) := by
  have hp : (s.offerBytes bytes).params = s.params := (offerBytes_effect s bytes).params
  have h := busRead_effect (s := s.offerBytes bytes) hn
  unfold runRead
  rw [hp] at h
  cases ho : busRead s.params.sensorAddr bytes.length (s.offerBytes bytes) with
  | ack r t => rw [ho] at h; exact ((offerBytes_effect s bytes).trans h.1).trans (hs r t)
  | stalled t => rw [ho] at h; exact (offerBytes_effect s bytes).trans h.1

theorem pushWord_stepsA (w : Word) (s : State) : StepsA s (pushWord w s) := by
  unfold pushWord
  by_cases h : s.ch.length < s.params.chDepth
  · rw [chPush_of_room w h]
    refine ⟨{ s with ch := s.ch ++ [w], ghost := { s.ghost with histPush := s.ghost.histPush ++ [w] } },
      { EffectA.refl s with push := ⟨[w], rfl, rfl⟩, level := fun _ => ?_ }, .inr ⟨rfl, rfl, rfl⟩⟩
    simpa using h
  · rw [chPush_of_full w (Nat.not_lt.1 h)]
    exact ⟨s, EffectA.refl s, .inl rfl⟩

theorem setRx_pc (b : UnitB) (sel : Sel) (q : S32) : (b.setRx sel q).pc = b.pc := by cases sel <;> rfl
theorem setRx_st (b : UnitB) (sel : Sel) (q : S32) : (b.setRx sel q).st = b.st := by cases sel <;> rfl
theorem setRx_ind (b : UnitB) (sel : Sel) (q : S32) : (b.setRx sel q).ind = b.ind := by cases sel <;> rfl

theorem stepsA_regs {s : State} {a' : UnitA} (h1 : a'.pc = s.a.pc) (h2 : a'.st = s.a.st)
    (h3 : a'.busFault = s.a.busFault) : StepsA s { s with a := a' }.advanceA :=
  ⟨_, EffectA.ofRegs (t := { s with a := a' }) rfl h1 h2 h3, .inr ⟨rfl, h2, h3⟩⟩

theorem execSreset_steps {s t : State} (h : execSreset s = .next t) : StepsA s t := by
  unfold execSreset at h
  split at h
  · cases h
  · cases h
    have ho := sresetTransfers_effect s
    cases hso : sresetTransfers s with
    | ack r t =>
      rw [hso] at ho
      exact ⟨_, (ho.1.trans (effectA_emitA t (.wait Config.tResetSettle) trivial)).trans
        (EffectA.ofRegs (t := { t.emitA (.wait Config.tResetSettle) with
          a := { (t.emitA (.wait Config.tResetSettle)).a with drv := .ready } }) rfl rfl rfl rfl), .inr ⟨rfl, ho.2⟩⟩
    | stalled t =>
      rw [hso] at ho
      exact ⟨t, ho.1, .inl rfl⟩

theorem execSread_steps {s t : State} (h : execSread s = .next t) : StepsA s t := by
  unfold execSread at h
  split at h
  · cases h
  · cases h
    exact stepsA_finish (sreadTransfers_effect s)

/-- What `ORIENT` needs and does. -/
theorem execOrient_next {s t : State} (h : execOrient s = .next t) :
    ∃ ax ay az, s.a.ax = some ax ∧ s.a.ay = some ay ∧ s.a.az = some az ∧
      t = { s with a := { s.a with roll := some (rollOf ay az), pitch := some (pitchOf ax ay az) } }.advanceA := by
  simp only [execOrient, withReg] at h
  repeat' split at h
  all_goals cases h
  exact ⟨_, _, _, ‹_›, ‹_›, ‹_›, rfl⟩

/-- What `ENCODE` needs and does. -/
theorem execEncode_next {s t : State} (h : execEncode s = .next t) :
    ∃ r p qr qp, s.a.roll = some r ∧ s.a.pitch = some p ∧ quantize r = some qr ∧ quantize p = some qp ∧
      t = { s with a := { s.a with wmRoll := some qr, wmPitch := some qp } }.advanceA := by
  simp only [execEncode, withReg, withQuantized] at h
  repeat' split at h
  all_goals cases h
  exact ⟨_, _, _, _, ‹_›, ‹_›, ‹_›, ‹_›, rfl⟩

/-- What `PUSH` needs and does. -/
theorem execPush_next {sel : Sel} {s t : State} (h : execPush sel s = .next t) :
    ∃ q, s.a.wm sel = some q ∧ t = pushWord (asU32 q) s := by
  simp only [execPush, withReg] at h
  split at h
  · cases h; exact ⟨_, ‹_›, rfl⟩
  · cases h

/-- What `DECODE` needs and does. -/
theorem execDecode_next {s t : State} (h : execDecode s = .next t) :
    ∃ r p, s.b.rxRoll = some r ∧ s.b.rxPitch = some p ∧
      t = { s with b := { s.b with roll := some (dequantize r), pitch := some (dequantize p) } }.advanceB := by
  simp only [execDecode, withReg] at h
  repeat' split at h
  all_goals cases h
  exact ⟨_, _, ‹_›, ‹_›, rfl⟩

/-- What `REDRAW` needs and does. -/
theorem execRedraw_next {s t : State} (h : execRedraw s = .next t) :
    ∃ r p, s.b.roll = some r ∧ s.b.pitch = some p ∧ t = (s.emitB (.redraw (fmt1 r) (fmt1 p))).advanceB := by
  simp only [execRedraw, withReg] at h
  repeat' split at h
  all_goals cases h
  exact ⟨_, _, ‹_›, ‹_›, rfl⟩

theorem execPop_of_empty {s : State} (sel : Sel) (h : s.ch = []) : execPop sel s = .next s := by
  simp only [execPop, chPop_of_empty h]

theorem execPop_of_cons {s : State} {w : Word} {ws : List Word} (sel : Sel) (h : s.ch = w :: ws) :
    execPop sel s = .next { s with
      ch := ws, ghost := { s.ghost with histPop := s.ghost.histPop ++ [w] }
      b := s.b.setRx sel (asS32 w) }.advanceB := by
  simp only [execPop, chPop_of_cons h]

theorem execPop_steps {sel : Sel} {s t : State} (h : execPop sel s = .next t) : StepsB s t := by
  cases hc : s.ch with
  | nil =>
    rw [execPop_of_empty sel hc] at h
    cases h
    exact ⟨s, EffectB.refl s, .inl rfl⟩
  | cons w ws =>
    rw [execPop_of_cons sel hc] at h
    cases h
    refine ⟨{ s with
      ch := ws, ghost := { s.ghost with histPop := s.ghost.histPop ++ [w] }, b := s.b.setRx sel (asS32 w) },
      { EffectB.refl s with
        pop := ⟨[w], by simp [hc], rfl⟩, pc := setRx_pc _ _ _, st := setRx_st _ _ _
        indicator := fun hi => ?_ }, .inr rfl⟩
    simpa [IndicatorParity, setRx_ind] using hi

theorem execToggle_steps {s t : State} (h : execToggle s = .next t) : StepsB s t := by
  cases h
  refine ⟨{ s with b := { s.b with ind := toggled s.b.ind } }.emitB (.ind (toggled s.b.ind)),
    { EffectB.refl s with indicator := fun hi => ?_ }, .inr rfl⟩
  simp only [IndicatorParity] at hi ⊢
  simp only [emitB_b, emitB_ghost, List.filter_append, List.length_append, toggled, hi]
  simp only [List.filter_cons, List.filter_nil, if_true, List.length_cons, List.length_nil, Nat.zero_add]
  generalize (List.filter _ s.ghost.traceB).length = n
  rcases Nat.mod_two_eq_zero_or_one n with h | h <;> simp [h, Nat.add_mod, Config.indReset]

theorem execRedraw_steps {s t : State} (h : execRedraw s = .next t) : StepsB s t := by
  obtain ⟨r, p, -, -, rfl⟩ := execRedraw_next h
  refine ⟨s.emitB (.redraw (fmt1 r) (fmt1 p)), { EffectB.refl s with indicator := fun hi => ?_ }, .inr rfl⟩
  simpa [IndicatorParity, List.filter_append] using hi

/-- What every operation can do (10_state.md R28): one at port B is a step of unit B, any other a step of unit A. -/
theorem exec_steps {i : Instr} {s t : State} (h : exec i s = .next t) :
    (i.port ≠ some .B → StepsA s t) ∧ (i.port = some .B → StepsB s t) := by
  cases i with
  | sreset => exact ⟨fun _ => execSreset_steps h, nofun⟩
  | sread => exact ⟨fun _ => execSread_steps h, nofun⟩
  | orient =>
    obtain ⟨ax, ay, az, -, -, -, rfl⟩ := execOrient_next h
    exact ⟨fun _ => stepsA_regs rfl rfl rfl, nofun⟩
  | encode =>
    obtain ⟨r, p, qr, qp, -, -, -, -, rfl⟩ := execEncode_next h
    exact ⟨fun _ => stepsA_regs rfl rfl rfl, nofun⟩
  | push sel =>
    obtain ⟨q, -, rfl⟩ := execPush_next h
    exact ⟨fun _ => pushWord_stepsA _ s, nofun⟩
  | pushi imm => cases h; exact ⟨fun _ => pushWord_stepsA _ s, nofun⟩
  | wait n => cases h; exact ⟨fun _ => ⟨_, effectA_emitA s (.wait n) trivial, .inr ⟨rfl, rfl, rfl⟩⟩, nofun⟩
  | diag => cases h; exact ⟨fun _ => ⟨_, effectA_emitA s .diag trivial, .inr ⟨rfl, rfl, rfl⟩⟩, nofun⟩
  | pop sel => exact ⟨fun hp => absurd rfl hp, fun _ => execPop_steps h⟩
  | decode =>
    obtain ⟨r, p, -, -, rfl⟩ := execDecode_next h
    exact ⟨fun hp => absurd rfl hp, fun _ =>
      ⟨{ s with b := { s.b with roll := some (dequantize r), pitch := some (dequantize p) } },
        { EffectB.refl s with }, .inr rfl⟩⟩
  | toggle => exact ⟨fun hp => absurd rfl hp, fun _ => execToggle_steps h⟩
  | redraw => exact ⟨fun hp => absurd rfl hp, fun _ => execRedraw_steps h⟩
  | bwPwrReset => cases h; exact ⟨fun _ => ⟨_, runWrite_effect (.inl rfl), .inl rfl⟩, nofun⟩
  | bwPwrRun => cases h; exact ⟨fun _ => ⟨_, runWrite_effect (.inr (.inl rfl)), .inl rfl⟩, nofun⟩
  | bwPtrAccel => cases h; exact ⟨fun _ => ⟨_, runWrite_effect (.inr (.inr (.inl rfl))), .inl rfl⟩, nofun⟩
  | bwPtrGyro => cases h; exact ⟨fun _ => ⟨_, runWrite_effect (.inr (.inr (.inr (.inl rfl)))), .inl rfl⟩, nofun⟩
  | bwPtrTemp => cases h; exact ⟨fun _ => ⟨_, runWrite_effect (.inr (.inr (.inr (.inr rfl)))), .inl rfl⟩, nofun⟩
  | brAccel =>
    cases h
    exact ⟨fun _ => ⟨_, runRead_effect (.inl rfl) fun b t => (storeAccel_effect b t).1, .inl rfl⟩, nofun⟩
  | brGyro =>
    cases h
    exact ⟨fun _ => ⟨_, runRead_effect (.inl rfl) fun b t => (storeGyro_effect b t).1, .inl rfl⟩, nofun⟩
  | brTemp =>
    cases h
    exact ⟨fun _ => ⟨_, runRead_effect (.inr rfl) fun b t => (storeTemp_effect b t).1, .inl rfl⟩, nofun⟩

/-! ## Every step -/

/-- What a step can do: nothing but a draw, or an operation of the unit whose turn it is. -/
theorem step_cases {s t : State} (h : step s = .next t) :
    (∃ f, s.inp.busReq = some f ∧
      (t = s.dropFrame ∨ s.a.st = .run ∧ ∃ i, decodeFrame s.sensor.ptr f = .ok i ∧ exec i s.dropFrame = .next t)) ∨
    (s.inp.busReq = none ∧
      (t = s.dropTurn ∨ s.running s.nextTurn = true ∧ ∃ c i, s.fetch s.nextTurn = some c ∧
        decodeAt s.nextTurn c = .ok i ∧ exec i s.dropTurn = .next t)) := by
  unfold step at h
  split at h
  · rename_i f hf
    refine .inl ⟨f, hf, ?_⟩
    unfold stepFrame at h
    split at h
    · rename_i hr
      split at h
      · rename_i i hi
        exact .inr ⟨by simpa [State.running] using hr, i, hi, h⟩
      · cases h
    · cases h; exact .inl rfl
  · rename_i hf
    refine .inr ⟨hf, ?_⟩
    unfold stepUnit at h
    split at h
    · rename_i hr
      split at h
      · cases h
      · rename_i c hc
        split at h
        · rename_i i hi
          exact .inr ⟨by cases hu : s.nextTurn <;> simpa [State.running, hu] using hr, c, i,
            by cases hu : s.nextTurn <;> simpa [State.fetch, State.pc, hu] using hc, hi, h⟩
        · cases h
    · cases h; exact .inl rfl

/-- A command decoded at a port is one of that port. -/
theorem decodeAt_port {u : UnitId} {c : Cmd} {i : Instr} (h : decodeAt u c = .ok i) : i.port = some u := by
  unfold decodeAt at h
  split at h
  · cases h
  · split at h
    · rename_i hl
      cases h
      simpa [Instr.legalAt] using hl
    · cases h

/-- A transfer is an operation of no command port. -/
theorem decodeFrame_port {p : Byte} {f : BusFrame} {i : Instr} (h : decodeFrame p f = .ok i) : i.port = none := by
  unfold decodeFrame at h
  repeat' split at h
  all_goals cases h <;> rfl

/-- What a step can do, by unit: from a state `m` that differs from `s` in the schedule and the waiting transfer only,
nothing, or a step of unit A, or a step of unit B. -/
theorem step_effects {s t : State} (h : step s = .next t) :
    ∃ m : State, m = { s with inp := { s.inp with turns := m.inp.turns, busReq := m.inp.busReq } } ∧
      (t = m ∨ (StepsA m t ∧ s.a.st = .run ∧ (s.inp.busReq = none → s.nextTurn = .A)) ∨
        (StepsB m t ∧ s.b.st = .run ∧ s.inp.busReq = none ∧ s.nextTurn = .B)) := by
  rcases step_cases h with ⟨f, hf, h⟩ | ⟨hf, h⟩
  · refine ⟨s.dropFrame, rfl, ?_⟩
    rcases h with h | ⟨hr, i, hd, he⟩
    · exact .inl h
    · exact .inr (.inl ⟨(exec_steps he).1 (by rw [decodeFrame_port hd]; nofun), hr, by simp [hf]⟩)
  · refine ⟨s.dropTurn, rfl, ?_⟩
    rcases h with h | ⟨hr, c, i, hc, hd, he⟩
    · exact .inl h
    · have hp := decodeAt_port hd
      cases hu : s.nextTurn with
      | A =>
        exact .inr (.inl ⟨(exec_steps he).1 (by simp [hp, hu]), by simpa [hu, State.running] using hr, fun _ => rfl⟩)
      | B =>
        exact .inr (.inr ⟨(exec_steps he).2 (by simp [hp, hu]), by simpa [hu, State.running] using hr, hf, rfl⟩)

/-! ## Holds -/

/-- The next operation of a unit is one of its port (30_encoding.md R104). -/
theorem nextOp_port {s : State} {u : UnitId} {i : Instr} (h : s.nextOp u = some i) : i.port = some u := by
  unfold State.nextOp at h
  cases hc : s.fetch u with
  | none => simp [hc] at h
  | some c =>
    cases hd : decodeAt u c with
    | error e => simp [hc, hd, Except.toOption] at h
    | ok j =>
      simp only [hc, hd, Option.bind_some, Except.toOption, Option.some.injEq] at h
      exact h ▸ decodeAt_port hd

/-- A held unit A is at a push, and the channel is full (42_channel.md R186). -/
theorem heldA_full {s : State} (h : s.held .A = true) :
    ((∃ sel, s.nextOp .A = some (.push sel)) ∨ ∃ w, s.nextOp .A = some (.pushi w)) ∧
      s.params.chDepth ≤ s.ch.length := by
  unfold State.held at h
  split at h
  · rename_i sel ho
    simp only [Bool.and_eq_true, Bool.not_eq_true'] at h
    exact ⟨.inl ⟨sel, ho⟩, chHasRoom_eq_false_iff.1 h.2⟩
  · rename_i w ho
    simp only [Bool.not_eq_true'] at h
    exact ⟨.inr ⟨w, ho⟩, chHasRoom_eq_false_iff.1 h⟩
  · rename_i sel ho
    exact absurd (nextOp_port ho) (by simp [Instr.port])
  · cases h

/-- A held unit B is at a pop, and the channel is empty (42_channel.md R186). -/
theorem heldB_empty {s : State} (h : s.held .B = true) : (∃ sel, s.nextOp .B = some (.pop sel)) ∧ s.ch = [] := by
  unfold State.held at h
  split at h
  · rename_i sel ho
    exact absurd (nextOp_port ho) (by simp [Instr.port])
  · rename_i w ho
    exact absurd (nextOp_port ho) (by simp [Instr.port])
  · rename_i sel ho
    exact ⟨⟨sel, ho⟩, chEmpty_iff.1 h⟩
  · cases h

end Sys2Proof.Machine
end

