-- ==== Sys2Proof/Laws/Fairness.lean ====
section
/-! SUPPORT. Runs under a schedule (20_memory.md R77): what one step of a run does, and that an enabled unit stays as it
is until its turn. -/

namespace Sys2Proof.Machine

@[simp] theorem offerTurn_nextTurn (s : State) (u : UnitId) : (s.offerTurn u).nextTurn = u := rfl
@[simp] theorem offerTurn_dropTurn (s : State) (u : UnitId) : (s.offerTurn u).dropTurn = s := rfl
@[simp] theorem offerTurn_busReq (s : State) (u : UnitId) : (s.offerTurn u).inp.busReq = s.inp.busReq := rfl
@[simp] theorem offerTurn_running (s : State) (u v : UnitId) : (s.offerTurn u).running v = s.running v := by
  cases v <;> rfl
@[simp] theorem offerTurn_fetch (s : State) (u v : UnitId) : (s.offerTurn u).fetch v = s.fetch v := by
  cases v <;> rfl

/-- A step of a run: nothing where the unit does not run, else its next operation. -/
theorem offered_cases {s t : State} {u : UnitId} (hf : s.inp.busReq = none) (h : step (s.offerTurn u) = .next t) :
    (s.running u = false ∧ t = s) ∨ (s.running u = true ∧ ∃ i, s.nextOp u = some i ∧ exec i s = .next t) := by
  unfold step at h
  simp only [offerTurn_busReq, hf, offerTurn_nextTurn, offerTurn_dropTurn] at h
  unfold stepUnit at h
  split at h
  · rename_i hr
    refine .inr ⟨hr, ?_⟩
    split at h
    · cases h
    · rename_i c hc
      split at h
      · rename_i i hi
        exact ⟨i, by simp [State.nextOp, hc, hi, Except.toOption], h⟩
      · cases h
  · rename_i hr
    cases h
    exact .inl ⟨by simpa using hr, rfl⟩

/-- What a step of unit A in a run leaves to unit B. -/
theorem offered_A {s t : State} (hf : s.inp.busReq = none) (h : step (s.offerTurn .A) = .next t) :
    t.inp.busReq = none ∧ t.params = s.params ∧ t.b = s.b ∧ t.ghost.histPop = s.ghost.histPop ∧
      ∃ ws, t.ch = s.ch ++ ws ∧ t.ghost.histPush = s.ghost.histPush ++ ws := by
  rcases offered_cases hf h with ⟨-, rfl⟩ | ⟨-, i, hi, he⟩
  · exact ⟨hf, rfl, rfl, rfl, [], by simp, by simp⟩
  · obtain ⟨m, k, rfl | ⟨rfl, -, -⟩⟩ := (exec_steps he).1 (by rw [nextOp_port hi]; nofun)
    all_goals exact ⟨k.busReq.trans hf, k.params, k.b, k.histPop, k.push⟩

/-- What a step of unit B in a run leaves to unit A. -/
theorem offered_B {s t : State} (hf : s.inp.busReq = none) (h : step (s.offerTurn .B) = .next t) :
    t.inp.busReq = none ∧ t.params = s.params ∧ t.a = s.a ∧ t.ghost.histPush = s.ghost.histPush ∧
      ∃ ws, s.ch = ws ++ t.ch ∧ t.ghost.histPop = s.ghost.histPop ++ ws := by
  rcases offered_cases hf h with ⟨-, rfl⟩ | ⟨-, i, hi, he⟩
  · exact ⟨hf, rfl, rfl, rfl, [], by simp, by simp⟩
  · obtain ⟨m, k, rfl | rfl⟩ := (exec_steps he).2 (nextOp_port hi)
    all_goals exact ⟨(congrArg Inputs.busReq k.inp).trans hf, k.params, k.a, k.histPush, k.pop⟩

/-- No transfer ever waits in a run. -/
theorem IsRun.noFrameAt {sched : Nat → UnitId} {σ : Nat → State} (h : IsRun sched σ) (n : Nat) :
    (σ n).inp.busReq = none := by
  induction n with
  | zero => exact h.noFrame
  | succ n ih =>
    have hs := h.steps n
    cases hu : sched n with
    | A => rw [hu] at hs; exact (offered_A ih hs).1
    | B => rw [hu] at hs; exact (offered_B ih hs).1

/-- What unit A would perform next depends on its group and its program. -/
theorem nextOp_A_congr {s t : State} (hp : t.params = s.params) (ha : t.a = s.a) : t.nextOp .A = s.nextOp .A := by
  simp [State.nextOp, State.fetch, State.pc, hp, ha]

/-- What unit B would perform next depends on its group and its program. -/
theorem nextOp_B_congr {s t : State} (hp : t.params = s.params) (hb : t.b = s.b) : t.nextOp .B = s.nextOp .B := by
  simp [State.nextOp, State.fetch, State.pc, hp, hb]

/-- A step of unit B does not hold up unit A (42_channel.md R186). -/
theorem enabled_A_of_offered_B {s t : State} (hf : s.inp.busReq = none) (h : step (s.offerTurn .B) = .next t)
    (he : s.enabled .A = true) : t.enabled .A = true := by
  obtain ⟨-, hp, ha, -, ws, hc, -⟩ := offered_B hf h
  have hroom : s.chHasRoom = true → t.chHasRoom = true := by
    simp only [chHasRoom_iff, hp, hc, List.length_append]
    omega
  have ho := nextOp_A_congr hp ha
  simp only [State.enabled, Bool.and_eq_true, Bool.not_eq_true', State.held, ho, State.running, ha] at he ⊢
  refine ⟨he.1, ?_⟩
  have h2 := he.2
  split at h2 <;> rename_i hi
  · simp only [Bool.and_eq_false_iff, Bool.not_eq_false'] at h2 ⊢
    exact h2.imp id hroom
  · simp only [Bool.not_eq_false'] at h2 ⊢
    exact hroom h2
  · exact absurd (nextOp_port hi) (by simp [Instr.port])
  · rfl

/-- A step of unit A does not hold up unit B (42_channel.md R186). -/
theorem enabled_B_of_offered_A {s t : State} (hf : s.inp.busReq = none) (h : step (s.offerTurn .A) = .next t)
    (he : s.enabled .B = true) : t.enabled .B = true := by
  obtain ⟨-, hp, hb, -, ws, hc, -⟩ := offered_A hf h
  have hne : s.chEmpty = false → t.chEmpty = false := by
    simp only [← Bool.not_eq_true, chEmpty_iff, hc, List.append_eq_nil_iff]
    exact fun h k => h k.1
  have ho := nextOp_B_congr hp hb
  simp only [State.enabled, Bool.and_eq_true, Bool.not_eq_true', State.held, ho, State.running, hb] at he ⊢
  refine ⟨he.1, ?_⟩
  have h2 := he.2
  split at h2 <;> rename_i hi
  · exact absurd (nextOp_port hi) (by simp [Instr.port])
  · exact absurd (nextOp_port hi) (by simp [Instr.port])
  · exact hne h2
  · rfl

/-- Between its turns nothing happens to unit A, and an enabled one stays enabled. -/
theorem IsRun.keepsA {sched : Nat → UnitId} {σ : Nat → State} (h : IsRun sched σ) {n : Nat} (k : Nat)
    (hno : ∀ m, n ≤ m → m < n + k → sched m = .B) :
    (σ (n + k)).a = (σ n).a ∧ (σ (n + k)).params = (σ n).params ∧
      (σ (n + k)).ghost.histPush = (σ n).ghost.histPush ∧
      ((σ n).enabled .A = true → (σ (n + k)).enabled .A = true) := by
  induction k with
  | zero => exact ⟨rfl, rfl, rfl, id⟩
  | succ k ih =>
    obtain ⟨h1, h2, h3, h4⟩ := ih fun m hm hk => hno m hm (by omega)
    have hs := h.steps (n + k)
    rw [hno (n + k) (by omega) (by omega)] at hs
    have hf := h.noFrameAt (n + k)
    obtain ⟨-, hp, ha, hh, -⟩ := offered_B hf hs
    exact ⟨ha.trans h1, hp.trans h2, hh.trans h3, fun he => enabled_A_of_offered_B hf hs (h4 he)⟩

/-- Between its turns nothing happens to unit B, and an enabled one stays enabled. -/
theorem IsRun.keepsB {sched : Nat → UnitId} {σ : Nat → State} (h : IsRun sched σ) {n : Nat} (k : Nat)
    (hno : ∀ m, n ≤ m → m < n + k → sched m = .A) :
    (σ (n + k)).b = (σ n).b ∧ (σ (n + k)).params = (σ n).params ∧
      (σ (n + k)).ghost.histPop = (σ n).ghost.histPop ∧
      (∃ ws, (σ (n + k)).ch = (σ n).ch ++ ws) ∧
      ((σ n).enabled .B = true → (σ (n + k)).enabled .B = true) := by
  induction k with
  | zero => exact ⟨rfl, rfl, rfl, ⟨[], by simp⟩, id⟩
  | succ k ih =>
    obtain ⟨h1, h2, h3, ⟨ws, h4⟩, h5⟩ := ih fun m hm hk => hno m hm (by omega)
    have hs := h.steps (n + k)
    rw [hno (n + k) (by omega) (by omega)] at hs
    have hf := h.noFrameAt (n + k)
    obtain ⟨-, hp, hb, hh, vs, hc, -⟩ := offered_A hf hs
    exact ⟨hb.trans h1, hp.trans h2, hh.trans h3, ⟨ws ++ vs, by rw [← List.append_assoc, ← h4]; exact hc⟩,
      fun he => enabled_B_of_offered_A hf hs (h5 he)⟩

end Sys2Proof.Machine
end

