-- ==== Sys2Proof/Laws/Rounding.lean ====
section
/-! SUPPORT. Rounding as a statement about rational numbers: the pattern made of a sign and `roundMag` is the nearest to
the signed quotient, ties to even; with the size of the error. -/

namespace Sys2Proof.Machine

/-- The sign of a value. -/
def signOf (neg : Bool) : ℚ := if neg then -1 else 1

theorem signOf_mul_self (neg : Bool) : signOf neg * signOf neg = 1 := by cases neg <;> simp [signOf]

theorem abs_signOf (neg : Bool) : |signOf neg| = 1 := by cases neg <;> simp [signOf]

theorem signOf_xor (a b : Bool) : signOf (a ^^ b) = signOf a * signOf b := by cases a <;> cases b <;> simp [signOf]

/-- The value of a magnitude. -/
def magReal (p : Nat) : ℚ := (magUnits p : ℚ) / (unitsPerOne : ℚ)

theorem magReal_nonneg (p : Nat) : 0 ≤ magReal p := div_nonneg (Nat.cast_nonneg _) unitsPerOne_pos.le

@[simp] theorem magReal_zero : magReal 0 = 0 := by simp [magReal]

theorem realOf_eq_mag (v : F32) : realOf v = signOf v.msb * magReal (magBits v) := realOf_eq v

theorem realOf_packF {mag : Nat} (neg : Bool) (h : mag < 2 ^ 31) : realOf (packF neg mag) = signOf neg * magReal mag := by
  rw [realOf_eq_mag, msb_packF neg h, magBits_packF neg h]

theorem abs_realOf (v : F32) : |realOf v| = magReal (magBits v) := by
  rw [realOf_eq_mag, abs_mul, abs_signOf, one_mul, abs_of_nonneg (magReal_nonneg _)]

theorem realOf_fNeg (v : F32) : realOf (fNeg v) = -realOf v := by
  rw [fNeg_eq, realOf_packF _ (magBits_lt v), realOf_eq_mag]
  cases v.msb <;> simp [signOf]

theorem isFinite_fNeg (v : F32) : isFinite (fNeg v) = isFinite v := by
  have h := isFinite_packF (!v.msb) (magBits_lt v)
  rw [← fNeg_eq] at h
  rw [Bool.eq_iff_iff, h]
  simp [isFinite]

/-- The quotient of `num / den` units as a number. -/
def quotReal (num den : Nat) : ℚ := (num : ℚ) / ((den : ℚ) * (unitsPerOne : ℚ))

theorem quotReal_nonneg (num den : Nat) : 0 ≤ quotReal num den :=
  div_nonneg (Nat.cast_nonneg _) (mul_nonneg (Nat.cast_nonneg _) unitsPerOne_pos.le)

/-- The distance of a magnitude from a quotient, in units times `den`. -/
theorem mag_sub_quot {num den : Nat} (hd : 0 < den) (p : Nat) :
    magReal p - quotReal num den =
      (((magUnits p : Int) * den - num : Int) : ℚ) / ((den : ℚ) * (unitsPerOne : ℚ)) := by
  have h1 : (den : ℚ) ≠ 0 := by exact_mod_cast hd.ne'
  have h2 := unitsPerOne_pos.ne'
  unfold magReal quotReal
  push_cast
  field_simp

theorem abs_mag_sub_quot {num den : Nat} (hd : 0 < den) (p : Nat) :
    |magReal p - quotReal num den| =
      ((|(magUnits p : Int) * den - num| : Int) : ℚ) / ((den : ℚ) * (unitsPerOne : ℚ)) := by
  have h1 : (0 : ℚ) < (den : ℚ) * (unitsPerOne : ℚ) := mul_pos (by exact_mod_cast hd) unitsPerOne_pos
  rw [mag_sub_quot hd, abs_div, abs_of_pos h1]
  push_cast
  rfl

/-- `roundPattern` is nearest among the magnitudes, as numbers. -/
theorem magReal_near {num den : Nat} (hd : 0 < den) (p : Nat) :
    |magReal (roundPattern num den) - quotReal num den| ≤ |magReal p - quotReal num den| ∧
      (magReal p ≠ magReal (roundPattern num den) →
        |magReal p - quotReal num den| = |magReal (roundPattern num den) - quotReal num den| →
        roundPattern num den % 2 = 0) := by
  have h1 : (0 : ℚ) < (den : ℚ) * (unitsPerOne : ℚ) := mul_pos (by exact_mod_cast hd) unitsPerOne_pos
  obtain ⟨a, b⟩ := roundPattern_near (num := num) hd p
  rw [abs_mag_sub_quot hd, abs_mag_sub_quot hd]
  refine ⟨by gcongr, fun hne he => b (fun h => hne (by rw [magReal, magReal, h])) ?_⟩
  exact_mod_cast (div_left_inj' h1.ne').1 he

/-- The lowest bit of a packed pattern is that of its magnitude. -/
theorem getLsbD_packF {mag : Nat} (neg : Bool) (h : mag < 2 ^ 31) : (packF neg mag).getLsbD 0 = decide (mag % 2 = 1) := by
  rw [BitVec.getLsbD, packF_toNat neg h, Nat.testBit_zero]
  cases neg
  · simp
  · simp [Nat.add_mod]

/-- A finite pattern made of a sign and a rounded magnitude is the value nearest to the signed quotient, ties to even
(00_scope.md R9, `RN`). -/
theorem nearestEven_packF {num den : Nat} (neg : Bool) (hd : 0 < den)
    (hf : isFinite (packF neg (roundMag num den)) = true) :
    NearestEven (signOf neg * quotReal num den) (packF neg (roundMag num den)) := by
  obtain ⟨-, he⟩ := isFinite_roundMag.1 hf
  have hlt := roundMag_lt num den
  have hr : realOf (packF neg (roundMag num den)) = signOf neg * magReal (roundPattern num den) := by
    rw [realOf_packF neg hlt, he]
  have hq := quotReal_nonneg num den
  -- a candidate of the other sign is no nearer than zero
  have dist : ∀ w : F32, |realOf w - signOf neg * quotReal num den| =
      if w.msb = neg then |magReal (magBits w) - quotReal num den| else magReal (magBits w) + quotReal num den := by
    intro w
    have hw := magReal_nonneg (magBits w)
    rw [realOf_eq_mag]
    split
    · rename_i h
      rw [h, ← mul_sub, abs_mul, abs_signOf, one_mul]
    · rename_i h
      have e : signOf w.msb = -signOf neg := by
        cases hn : neg <;> cases hm : w.msb <;> simp_all [signOf]
      rw [e, show -signOf neg * magReal (magBits w) - signOf neg * quotReal num den =
        -(signOf neg * (magReal (magBits w) + quotReal num den)) by ring, abs_neg, abs_mul, abs_signOf, one_mul,
        abs_of_nonneg (by linarith)]
  have self : |realOf (packF neg (roundMag num den)) - signOf neg * quotReal num den| =
      |magReal (roundPattern num den) - quotReal num den| := by
    rw [hr, ← mul_sub, abs_mul, abs_signOf, one_mul]
  have zero := magReal_near (num := num) hd 0
  rw [magReal_zero, zero_sub, abs_neg, abs_of_nonneg hq] at zero
  refine ⟨hf, fun w _ => ?_, fun w _ hne heq => ?_⟩
  · rw [self, dist]
    have hw := magReal_nonneg (magBits w)
    split
    · exact (magReal_near hd _).1
    · linarith [zero.1]
  · rw [getLsbD_packF neg hlt, he]
    rw [self, dist] at heq
    have hw := magReal_nonneg (magBits w)
    have even : roundPattern num den % 2 = 0 := by
      split at heq
      · rename_i h
        refine (magReal_near hd (magBits w)).2 (fun h2 => hne ?_) heq
        rw [hr, realOf_eq_mag, h, h2]
      · have h0 : magReal (magBits w) = 0 := by linarith [zero.1]
        refine zero.2 (fun h2 => hne ?_) (by linarith)
        rw [hr, ← h2, realOf_eq_mag, h0, mul_zero, mul_zero]
    simp [even]

/-- The error of a rounded magnitude is at most half of the last place kept. -/
theorem magReal_error {num den j : Nat} (hd : 0 < den) (h : num < 2 ^ (24 + j) * den) :
    |magReal (roundPattern num den) - quotReal num den| ≤ 2 ^ j / (2 * (unitsPerOne : ℚ)) := by
  have h1 : (0 : ℚ) < (den : ℚ) := by exact_mod_cast hd
  have h2 := unitsPerOne_pos
  have h3 : 2 * |(magUnits (roundPattern num den) : Int) * den - num| ≤ den * 2 ^ j := by
    refine (roundPattern_error hd).trans ?_
    gcongr
    · exact_mod_cast (by decide : 1 ≤ 2)
    · exact excessBits_le h
  have h4 : 2 * ((|(magUnits (roundPattern num den) : Int) * den - num| : Int) : ℚ) ≤ den * 2 ^ j := by exact_mod_cast h3
  rw [abs_mag_sub_quot hd, div_le_div_iff₀ (by positivity) (by positivity)]
  nlinarith [mul_le_mul_of_nonneg_right h4 h2.le]

/-! ## The operands of the three operations -/

theorem quotReal_mul (v w : F32) :
    signOf (v.msb ^^ w.msb) * quotReal (magUnits (magBits v) * magUnits (magBits w)) unitsPerOne = realOf v * realOf w := by
  have h := unitsPerOne_pos.ne'
  rw [signOf_xor, realOf_eq_mag, realOf_eq_mag, quotReal, magReal, magReal]
  push_cast
  field_simp

theorem magUnits_ne_zero {w : F32} (h : realOf w ≠ 0) : 0 < magUnits (magBits w) := by
  refine Nat.pos_of_ne_zero fun h0 => h ?_
  rw [realOf_eq_mag, magReal, h0]
  simp

theorem quotReal_div {w : F32} (v : F32) (hw : realOf w ≠ 0) :
    signOf (v.msb ^^ w.msb) * quotReal (magUnits (magBits v) * unitsPerOne) (magUnits (magBits w)) =
      realOf v / realOf w := by
  have h := unitsPerOne_pos.ne'
  have h2 : (magUnits (magBits w) : ℚ) ≠ 0 := by exact_mod_cast (magUnits_ne_zero hw).ne'
  rw [signOf_xor, realOf_eq_mag, realOf_eq_mag, quotReal, magReal, magReal]
  have hs : signOf w.msb ≠ 0 := by cases w.msb <;> simp [signOf]
  have hs2 := signOf_mul_self w.msb
  push_cast
  rw [mul_div_assoc, div_mul_eq_div_div, mul_div_mul_comm]
  rw [show signOf v.msb * signOf w.msb = signOf v.msb / signOf w.msb by
    rw [eq_div_iff hs, mul_assoc, hs2, mul_one]]
  field_simp

theorem quotReal_int (i : Int) : signOf (decide (i < 0)) * quotReal (i.natAbs * unitsPerOne) 1 = i := by
  have h := unitsPerOne_pos.ne'
  rw [quotReal]
  push_cast
  rw [one_mul, mul_div_assoc, div_self h, mul_one, Nat.cast_natAbs, Int.cast_abs]
  unfold signOf
  by_cases hi : i < 0
  · have h2 : (i : ℚ) < 0 := by exact_mod_cast hi
    simp [hi, abs_of_neg h2]
  · have h2 : (0 : ℚ) ≤ i := by exact_mod_cast not_lt.1 hi
    simp [hi, abs_of_nonneg h2]

/-! ## Exact results -/

/-- A significand of at most 24 bits at any exponent is a magnitude. -/
theorem exists_magnitude (k n : Nat) (h : n ≤ 2 ^ 24) : ∃ p, magUnits p = n * 2 ^ k := by
  induction k generalizing n with
  | zero => exact ⟨0 * 2 ^ 23 + n, magUnits_pattern h (.inl rfl)⟩
  | succ k ih =>
    rcases Nat.lt_or_ge n (2 ^ 23) with h1 | h1
    · obtain ⟨p, hp⟩ := ih (2 * n) (by omega)
      exact ⟨p, by rw [hp]; ring⟩
    · exact ⟨(k + 1) * 2 ^ 23 + n, magUnits_pattern h (.inr h1)⟩

/-- A quotient of at most 24 significant bits is exact: the result is finite and is the quotient. -/
theorem roundMag_exact {num den n k : Nat} (neg : Bool) (hd : 0 < den) (hn : n ≤ 2 ^ 24)
    (h : num = n * 2 ^ k * den) (hlt : n * 2 ^ k < 2 ^ 256) :
    isFinite (packF neg (roundMag num den)) = true ∧
      realOf (packF neg (roundMag num den)) = signOf neg * quotReal num den := by
  obtain ⟨p, hp⟩ := exists_magnitude k n hn
  have hlt2 : num < 2 ^ 256 * den := by rw [h]; exact Nat.mul_lt_mul_of_pos_right hlt hd
  have hfin : isFinite (packF neg (roundMag num den)) = true :=
    isFinite_roundMag.2 ⟨roundPattern_lt_infMag hd hlt2, by
      rw [roundMag_eq]
      exact Nat.min_eq_left (roundPattern_lt_infMag hd hlt2).le⟩
  refine ⟨hfin, ?_⟩
  have hd' : (den : ℚ) ≠ 0 := by exact_mod_cast hd.ne'
  have hu := unitsPerOne_pos.ne'
  rw [realOf_packF neg (roundMag_lt _ _), (isFinite_roundMag.1 hfin).2, magReal,
    roundPattern_exact hd p (by rw [hp, h]), hp, quotReal, h]
  push_cast
  field_simp

/-- Integers below 2^24 are converted exactly (00_scope.md R9). -/
theorem fOfInt_exact {i : Int} (h : i.natAbs ≤ 2 ^ 24) : isFinite (fOfInt i) = true ∧ realOf (fOfInt i) = i := by
  have h1 := roundMag_exact (decide (i < 0)) (den := 1) (k := 149) (num := i.natAbs * unitsPerOne) Nat.one_pos h
    (by rw [unitsPerOne, Nat.mul_one])
    (lt_of_le_of_lt (Nat.mul_le_mul_right _ h) (by norm_num))
  rw [quotReal_int] at h1
  exact h1

/-! ## Bounds -/

/-- A quotient at most a magnitude is rounded to at most that magnitude. -/
theorem roundPattern_le {num den : Nat} (hd : 0 < den) (p : Nat) (h : num ≤ magUnits p * den) :
    magUnits (roundPattern num den) ≤ magUnits p := by
  by_contra hc
  have h1 := (roundPattern_near (num := num) hd p).1
  have h2 : (num : Int) ≤ magUnits p * den := by exact_mod_cast h
  have h3 : (magUnits p : Int) * den < magUnits (roundPattern num den) * den := by
    exact_mod_cast Nat.mul_lt_mul_of_pos_right (not_le.1 hc) hd
  rw [abs_of_nonneg (by linarith), abs_of_nonneg (by linarith)] at h1
  linarith

/-- A quotient at least a magnitude is rounded to at least that magnitude. -/
theorem le_roundPattern {num den : Nat} (hd : 0 < den) (p : Nat) (h : magUnits p * den ≤ num) :
    magUnits p ≤ magUnits (roundPattern num den) := by
  by_contra hc
  have h1 := (roundPattern_near (num := num) hd p).1
  have h2 : (magUnits p : Int) * den ≤ num := by exact_mod_cast h
  have h3 : (magUnits (roundPattern num den) : Int) * den < magUnits p * den := by
    exact_mod_cast Nat.mul_lt_mul_of_pos_right (not_le.1 hc) hd
  rw [abs_of_nonpos (by linarith), abs_of_nonpos (by linarith)] at h1
  linarith

/-- A quotient below 2^256 units has a finite result. -/
theorem isFinite_of_lt {num den : Nat} (neg : Bool) (hd : 0 < den) (h : num < 2 ^ 256 * den) :
    isFinite (packF neg (roundMag num den)) = true :=
  isFinite_roundMag.2 ⟨roundPattern_lt_infMag hd h, by
    rw [roundMag_eq]
    exact Nat.min_eq_left (roundPattern_lt_infMag hd h).le⟩

/-- A signed word lies within 2^31. -/
theorem natAbs_word_le (q : S32) : q.toInt.natAbs ≤ 2 ^ 31 := by
  have h1 := BitVec.two_mul_toInt_lt (x := q)
  have h2 := BitVec.le_two_mul_toInt (x := q)
  norm_num at h1 h2
  omega

/-- A sample lies within 2^15. -/
theorem natAbs_sample_le (c : S16) : c.toInt.natAbs ≤ 2 ^ 15 := by
  have h1 := BitVec.two_mul_toInt_lt (x := c)
  have h2 := BitVec.le_two_mul_toInt (x := c)
  norm_num at h1 h2
  omega

/-- The magnitude of a converted word: finite, and at most 2^31. -/
theorem fOfInt_word (q : S32) :
    isFinite (fOfInt q.toInt) = true ∧ magUnits (magBits (fOfInt q.toInt)) ≤ 2 ^ 31 * unitsPerOne := by
  have hq := Nat.mul_le_mul_right unitsPerOne (natAbs_word_le q)
  have hf : isFinite (fOfInt q.toInt) = true := by
    refine isFinite_of_lt _ Nat.one_pos (lt_of_le_of_lt hq ?_)
    unfold unitsPerOne
    norm_num
  refine ⟨hf, ?_⟩
  obtain ⟨p, hp⟩ := exists_magnitude 180 1 (by norm_num)
  have e : 2 ^ 31 * unitsPerOne = magUnits p := by
    rw [hp]
    unfold unitsPerOne
    norm_num
  have h := roundPattern_le (num := q.toInt.natAbs * unitsPerOne) Nat.one_pos p (by rw [Nat.mul_one, ← e]; exact hq)
  unfold fOfInt at hf ⊢
  rw [magBits_packF _ (roundMag_lt _ _), (isFinite_roundMag.1 hf).2, e]
  exact h

/-! ## The two constants -/

theorem magUnits_scale : magUnits (magBits Config.scale) = 100 * unitsPerOne := by decide
theorem magUnits_accelSens : magUnits (magBits Config.accelSens) = 16384 * unitsPerOne := by decide
theorem msb_scale : Config.scale.msb = false := by decide
theorem msb_accelSens : Config.accelSens.msb = false := by decide

/-- `SCALE` is 100 (00_scope.md R6). -/
theorem realOf_scale : realOf Config.scale = 100 := by
  have h := unitsPerOne_pos.ne'
  rw [realOf_eq_mag, magReal, magUnits_scale, msb_scale]
  push_cast
  rw [mul_div_assoc, div_self h]
  simp [signOf]

/-- `ACCEL_SENS` is 16384 (00_scope.md R6). -/
theorem realOf_accelSens : realOf Config.accelSens = 16384 := by
  have h := unitsPerOne_pos.ne'
  rw [realOf_eq_mag, magReal, magUnits_accelSens, msb_accelSens]
  push_cast
  rw [mul_div_assoc, div_self h]
  simp [signOf]

/-- A finite value of a known size, in units. -/
theorem magUnits_of_abs {v : F32} {n : Nat} (h : |realOf v| = n) : magUnits (magBits v) = n * unitsPerOne := by
  rw [abs_realOf, magReal, div_eq_iff unitsPerOne_pos.ne'] at h
  exact_mod_cast h

/-- A finite value within `n`, in units. -/
theorem magUnits_le_iff {v : F32} {n : Nat} : |realOf v| ≤ n ↔ magUnits (magBits v) ≤ n * unitsPerOne := by
  rw [abs_realOf, magReal, div_le_iff₀ unitsPerOne_pos]
  exact_mod_cast Iff.rfl

end Sys2Proof.Machine
end

