-- ==== Sys2Proof/Laws/Numerics.lean ====
section
/-! SUPPORT. What is known of the two open functions: `atan2deg` and `hyp` keep the properties imposed on them, and so
does the text of a value; and the sign and the bounds of a value in units. -/

namespace Sys2Proof.Machine

/-! ## Values in units -/

theorem units_unit_pos : (0 : Int) < unitsPerOne := by decide

theorem realOf_pos_iff {v : F32} : 0 < realOf v ↔ 0 < units v := by
  rw [realOf, div_pos_iff_of_pos_right unitsPerOne_pos]
  exact_mod_cast Iff.rfl

theorem realOf_neg_iff {v : F32} : realOf v < 0 ↔ units v < 0 := by
  rw [realOf, div_lt_iff₀ unitsPerOne_pos, zero_mul]
  exact_mod_cast Iff.rfl

theorem realOf_eq_zero_iff {v : F32} : realOf v = 0 ↔ units v = 0 := by
  rw [realOf, div_eq_iff unitsPerOne_pos.ne', zero_mul]
  exact_mod_cast Iff.rfl

theorem realOf_le_iff {v : F32} (n : Int) : realOf v ≤ n ↔ units v ≤ n * unitsPerOne := by
  rw [realOf, div_le_iff₀ unitsPerOne_pos]
  exact_mod_cast Iff.rfl

theorem le_realOf_iff {v : F32} (n : Int) : (n : ℚ) ≤ realOf v ↔ n * unitsPerOne ≤ units v := by
  rw [realOf, le_div_iff₀ unitsPerOne_pos]
  exact_mod_cast Iff.rfl

theorem units_posZero : units posZero = 0 := by decide
theorem units_negZero : units negZero = 0 := by decide
theorem units_deg90 : units deg90 = 90 * unitsPerOne := by decide
theorem units_degNeg90 : units degNeg90 = -(90 * unitsPerOne) := by decide
theorem units_deg180 : units deg180 = 180 * unitsPerOne := by decide
theorem units_degNeg180 : units degNeg180 = -(180 * unitsPerOne) := by decide

/-- A finite value in units is below 2^277. -/
theorem magUnits_lt_of_finite {v : F32} (h : isFinite v = true) : magUnits (magBits v) < 2 ^ 24 * 2 ^ 253 := by
  have hp : magBits v < infMag := by simpa [isFinite] using h
  obtain ⟨k, r, he, hr, hk, hm⟩ := exists_pattern (magBits v)
  rw [hm]
  have hk2 : k ≤ 253 := by
    unfold infMag at hp
    omega
  calc r * 2 ^ k ≤ r * 2 ^ 253 := Nat.mul_le_mul_left _ (Nat.pow_le_pow_right (by decide) hk2)
    _ < 2 ^ 24 * 2 ^ 253 := Nat.mul_lt_mul_of_pos_right hr (by positivity)

/-! ## `NUM` (41_orientation_encoder.md R153) -/

theorem atan2Axis_zero_pos {y x : F32} (hy : y = posZero ∨ y = negZero) (hx : 0 < units x) : atan2Axis y x = some y := by
  rw [atan2Axis, if_pos hy, if_pos hx]

theorem atan2Axis_zero_neg {y x : F32} (hy : y = posZero ∨ y = negZero) (hx : units x < 0) :
    atan2Axis y x = some (if y = posZero then deg180 else degNeg180) := by
  rw [atan2Axis, if_pos hy, if_neg (by omega), if_pos hx]

theorem atan2Axis_zero_zero {y : F32} (hy : y = posZero ∨ y = negZero) : atan2Axis y posZero = some y := by
  rw [atan2Axis, if_pos hy, if_neg (by rw [units_posZero]; decide), if_neg (by rw [units_posZero]; decide), if_pos rfl]

theorem atan2Axis_vertical {y : F32} (hy : units y ≠ 0) :
    atan2Axis y posZero = some (if 0 < units y then deg90 else degNeg90) := by
  have h : ¬ (y = posZero ∨ y = negZero) := by
    rintro (rfl | rfl)
    · exact hy units_posZero
    · exact hy units_negZero
  rw [atan2Axis, if_neg h, if_pos rfl]

theorem atan2deg_axis {y x r : F32} (hy : isFinite y = true) (hx : isFinite x = true) (h : atan2Axis y x = some r) :
    atan2deg y x = r := by
  simp only [atan2deg, hy, hx, Bool.and_true, if_true, h]

/-- `atan2deg` of finite operands is finite, lies within 180 degrees and has the sign of its first operand. -/
theorem atan2deg_allowed {y x : F32} (hy : isFinite y = true) (hx : isFinite x = true) :
    atan2Allowed y (atan2deg y x) = true := by
  have hu := units_unit_pos
  unfold atan2deg
  rw [hy, hx]
  simp only [Bool.and_true, if_true]
  cases h : atan2Axis y x with
  | none =>
    simp only
    split
    · assumption
    · simp [atan2Allowed, units_posZero]
      decide
  | some r =>
    simp only
    unfold atan2Axis at h
    split at h
    · rename_i hz
      have hy0 : units y = 0 := by
        rcases hz with rfl | rfl
        · exact units_posZero
        · exact units_negZero
      split at h
      · cases h
        simp [atan2Allowed, hy0, hy]
      · split at h
        · cases h
          split
          · simp [atan2Allowed, hy0, units_deg180]
            decide
          · simp [atan2Allowed, hy0, units_degNeg180]
            decide
        · split at h
          · cases h
            simp [atan2Allowed, hy0, hy]
          · cases h
    · split at h
      · cases h
        split
        · simp [atan2Allowed, units_deg90]
          constructor
          · decide
          · omega
        · simp [atan2Allowed, units_degNeg90]
          constructor
          · decide
          · omega
      · cases h

theorem fAbs_eq (v : F32) : fAbs v = packF false (magBits v) := by
  apply BitVec.eq_of_toNat_eq
  rw [packF_toNat _ (magBits_lt v)]
  simp only [fAbs, BitVec.toNat_and, magBits]
  change v.toNat &&& (2 ^ 31 - 1) = _
  rw [Nat.and_two_pow_sub_one_eq_mod]
  simp

theorem fAbs_allowed {v : F32} (h : isFinite v = true) : hypAllowed (fAbs v) = true := by
  have hp : magBits v < infMag := by simpa [isFinite] using h
  have hne : packF false (magBits v) ≠ negZero := fun he => by
    have := congrArg BitVec.msb he
    rw [msb_packF _ (magBits_lt v)] at this
    exact absurd this (by decide)
  simp only [hypAllowed, fAbs_eq, (isFinite_packF false (magBits_lt v)).2 hp, units_packF _ (magBits_lt v), Bool.true_and,
    Bool.and_eq_true, decide_eq_true_iff]
  exact ⟨by simp, hne⟩

/-- `hyp` of finite operands is finite, not negative and not -0. -/
theorem hyp_allowed {y z : F32} (hy : isFinite y = true) (hz : isFinite z = true) : hypAllowed (hyp y z) = true := by
  unfold hyp
  rw [hy, hz]
  simp only [Bool.and_true, if_true]
  split
  · exact fAbs_allowed hy
  · split
    · exact fAbs_allowed hz
    · split
      · assumption
      · decide

/-! ## `FMT1` (43_sequencers.md R217) -/

theorem digitsValue_append (l m : List (Fin 10)) (a : Nat) :
    digitsValue a (l ++ m) = digitsValue (digitsValue a l) m := by
  induction l generalizing a with
  | nil => rfl
  | cons d l ih => exact ih _

theorem digitsValue_lastDigits (n w : Nat) : digitsValue 0 (lastDigits n w) = w % 10 ^ n := by
  induction n generalizing w with
  | zero => simp [lastDigits, digitsValue, Nat.mod_one]
  | succ n ih =>
    rw [lastDigits, digitsValue_append, ih]
    simp only [digitsValue, Fin.ofNat]
    rw [Nat.pow_succ', Nat.mod_mul]
    omega

theorem digitsValue_zero (l : List (Fin 10)) : digitsValue 0 (0 :: l) = digitsValue 0 l := rfl

/-- The digits of a text made from a number of tenths spell that number, where there are enough of them. -/
theorem digitsValue_tenths {d n : Nat} (h : n / 10 < 10 ^ d) :
    digitsValue 0 (0 :: lastDigits d (n / 10) ++ [Fin.ofNat 10 n]) = n := by
  rw [digitsValue_append, digitsValue_zero, digitsValue_lastDigits, Nat.mod_eq_of_lt h]
  simp only [digitsValue, Fin.ofNat]
  omega

/-- `nearestText` spells the nearest tenth. -/
theorem tenthsOf_nearestText {v : F32} (hv : isFinite v = true) :
    tenthsOf (nearestText v) =
      (if v.msb then -1 else 1) *
        (((20 * (units v).natAbs + unitsPerOne) / (2 * unitsPerOne) : Nat) : Int) := by
  have hm := magUnits_lt_of_finite hv
  rw [← natAbs_units] at hm
  have hlt : (20 * (units v).natAbs + unitsPerOne) / (2 * unitsPerOne) / 10 < 10 ^ 40 := by
    rw [Nat.div_div_eq_div_mul, Nat.div_lt_iff_lt_mul (by decide)]
    calc 20 * (units v).natAbs + unitsPerOne ≤ 20 * (2 ^ 24 * 2 ^ 253) + unitsPerOne := by omega
      _ < 10 ^ 40 * (2 * unitsPerOne * 10) := by
        unfold unitsPerOne
        norm_num
  have hd := digitsValue_tenths hlt
  unfold tenthsOf nearestText
  simp only
  rw [hd]
  cases v.msb <;> simp

/-- The nearest tenth keeps the property of R217. -/
theorem nearestText_allowed {v : F32} (hv : isFinite v = true) : textAllowed v (nearestText v) = true := by
  unfold textAllowed
  rw [tenthsOf_nearestText hv, decide_eq_true_iff, natAbs_units]
  have hu := units_eq v
  have e1 := Nat.div_add_mod (20 * magUnits (magBits v) + unitsPerOne) (2 * unitsPerOne)
  have e2 := Nat.mod_lt (20 * magUnits (magBits v) + unitsPerOne) (show 0 < 2 * unitsPerOne by decide)
  generalize (20 * magUnits (magBits v) + unitsPerOne) / (2 * unitsPerOne) = n at *
  generalize magUnits (magBits v) = m at *
  generalize unitsPerOne = u at *
  rw [show 2 * u * n = 2 * (n * u) by ring] at e1
  rw [hu]
  cases v.msb
  · simp only [Bool.false_eq_true, if_false, one_mul]
    rw [show 2 * (n : Int) * u = 2 * (n * u : Nat) by push_cast; ring]
    omega
  · simp only [if_true]
    rw [show 2 * (-1 * (n : Int)) * u = -2 * (n * u : Nat) by push_cast; ring]
    omega

/-- The text of a finite value keeps the property of R217. -/
theorem oneDecimal_allowed {v : F32} (hv : isFinite v = true) : textAllowed v (oneDecimal v) = true := by
  unfold oneDecimal
  split
  · assumption
  · exact nearestText_allowed hv

end Sys2Proof.Machine
end

