-- ==== Sys2Proof/Laws/Observe.lean ====
section
/-! SUPPORT. Two states that agree on what unit A can see have operations of unit A that agree on what unit A can change
(20_memory.md R74). -/

namespace Sys2Proof.Machine

/-- Agreement on what unit A can see but the channel's level: the parameters, its group, the sensor and its answers. -/
structure AgreeA (s t : State) : Prop where
  params : s.params = t.params
  a : s.a = t.a
  sensor : s.sensor = t.sensor
  acks : s.inp.acks = t.inp.acks
  bytes : s.inp.bytes = t.inp.bytes

/-- `t₁` comes from `s₁` as `t₂` comes from `s₂`: they agree, with the same events emitted and the same words appended. -/
structure SameMoveA (s₁ s₂ t₁ t₂ : State) : Prop where
  agree : AgreeA t₁ t₂
  events : ∃ es, t₁.ghost.traceA = s₁.ghost.traceA ++ es ∧ t₂.ghost.traceA = s₂.ghost.traceA ++ es
  words : ∃ ws, t₁.ch = s₁.ch ++ ws ∧ t₂.ch = s₂.ch ++ ws

theorem SameMoveA.refl {s₁ s₂ : State} (h : AgreeA s₁ s₂) : SameMoveA s₁ s₂ s₁ s₂ :=
  ⟨h, ⟨[], by simp, by simp⟩, ⟨[], by simp, by simp⟩⟩

theorem SameMoveA.trans {s₁ s₂ t₁ t₂ u₁ u₂ : State} (h : SameMoveA s₁ s₂ t₁ t₂) (k : SameMoveA t₁ t₂ u₁ u₂) :
    SameMoveA s₁ s₂ u₁ u₂ := by
  obtain ⟨es, e1, e2⟩ := h.events
  obtain ⟨fs, f1, f2⟩ := k.events
  obtain ⟨ws, w1, w2⟩ := h.words
  obtain ⟨vs, v1, v2⟩ := k.words
  exact ⟨k.agree, ⟨es ++ fs, by simp [f1, e1], by simp [f2, e2]⟩, ⟨ws ++ vs, by simp [v1, w1], by simp [v2, w2]⟩⟩

theorem sameMoveA_regs (f : UnitA → UnitA) {s t : State} (h : AgreeA s t) :
    SameMoveA s t { s with a := f s.a } { t with a := f t.a } :=
  ⟨⟨h.params, by simp [h.a], h.sensor, h.acks, h.bytes⟩, ⟨[], by simp, by simp⟩, ⟨[], by simp, by simp⟩⟩

theorem sameMoveA_advance {s₁ s₂ t₁ t₂ : State} (h : SameMoveA s₁ s₂ t₁ t₂) : SameMoveA s₁ s₂ t₁.advanceA t₂.advanceA :=
  ⟨⟨h.agree.params, by simp [h.agree.a, h.agree.params], h.agree.sensor, h.agree.acks, h.agree.bytes⟩, h.events, h.words⟩

theorem sameMoveA_emit {s t : State} (h : AgreeA s t) (e : EventA) : SameMoveA s t (s.emitA e) (t.emitA e) :=
  ⟨⟨h.params, h.a, h.sensor, h.acks, h.bytes⟩, ⟨[e], rfl, rfl⟩, ⟨[], by simp, by simp⟩⟩

theorem agreeA_nextAck {s t : State} (h : AgreeA s t) : s.nextAck = t.nextAck := by
  unfold State.nextAck
  rw [h.acks]

/-! ## Transfers -/

/-- Two sequences of transfers end the same way. -/
def SameOutcome {α : Type} (s₁ s₂ : State) : BusOutcome α → BusOutcome α → Prop
  | .ack r t, .ack r' t' => r = r' ∧ SameMoveA s₁ s₂ t t'
  | .stalled t, .stalled t' => SameMoveA s₁ s₂ t t'
  | _, _ => False

theorem SameOutcome.after {α : Type} {s₁ s₂ t₁ t₂ : State} (h : SameMoveA s₁ s₂ t₁ t₂) {o₁ o₂ : BusOutcome α}
    (ho : SameOutcome t₁ t₂ o₁ o₂) : SameOutcome s₁ s₂ o₁ o₂ := by
  cases o₁ <;> cases o₂ <;> try exact ho.elim
  · exact ⟨ho.1, h.trans ho.2⟩
  · exact h.trans ho

theorem SameOutcome.andThen {α β : Type} {s₁ s₂ : State} {o₁ o₂ : BusOutcome α} {f : α → State → BusOutcome β}
    (h : SameOutcome s₁ s₂ o₁ o₂) (hf : ∀ r t₁ t₂, AgreeA t₁ t₂ → SameOutcome t₁ t₂ (f r t₁) (f r t₂)) :
    SameOutcome s₁ s₂ (o₁.andThen f) (o₂.andThen f) := by
  cases o₁ <;> cases o₂ <;> try exact h.elim
  · obtain ⟨rfl, h⟩ := h
    exact SameOutcome.after h (hf _ _ _ h.agree)
  · exact h

theorem SameOutcome.finish {α : Type} {s₁ s₂ : State} {o₁ o₂ : BusOutcome α} {f : α → State → State}
    (h : SameOutcome s₁ s₂ o₁ o₂) (hf : ∀ r t₁ t₂, AgreeA t₁ t₂ → SameMoveA t₁ t₂ (f r t₁) (f r t₂)) :
    SameMoveA s₁ s₂ (o₁.finish f) (o₂.finish f) := by
  cases o₁ <;> cases o₂ <;> try exact h.elim
  · obtain ⟨rfl, h⟩ := h
    exact h.trans (hf _ _ _ h.agree)
  · exact h

theorem busWrite_same {s t : State} (h : AgreeA s t) (bytes : List Byte) (nostop : Bool) :
    SameOutcome s t (busWrite s.params.sensorAddr bytes nostop s) (busWrite t.params.sensorAddr bytes nostop t) := by
  have ha := agreeA_nextAck h
  rw [h.params]
  cases hb : s.nextAck with
  | true =>
    rw [busWrite_of_ack _ _ _ hb, busWrite_of_ack _ _ _ (ha ▸ hb)]
    exact ⟨rfl, ⟨h.params, h.a, by simp [h.sensor], by simp [h.acks], h.bytes⟩, ⟨_, rfl, rfl⟩, ⟨[], by simp, by simp⟩⟩
  | false =>
    rw [busWrite_of_nack _ _ _ hb, busWrite_of_nack _ _ _ (ha ▸ hb)]
    exact ⟨⟨h.params, by simp [h.a], h.sensor, by simp [h.acks], h.bytes⟩, ⟨_, rfl, rfl⟩, ⟨[], by simp, by simp⟩⟩

theorem busRead_same {s t : State} (h : AgreeA s t) (n : Nat) :
    SameOutcome s t (busRead s.params.sensorAddr n s) (busRead t.params.sensorAddr n t) := by
  have ha := agreeA_nextAck h
  have hr : s.readBurst n = t.readBurst n := by
    unfold State.readBurst State.takeBytes
    rw [h.bytes, h.sensor]
  rw [h.params]
  cases hb : s.nextAck with
  | true =>
    rw [busRead_of_ack _ _ hb, busRead_of_ack _ _ (ha ▸ hb), hr]
    exact ⟨rfl, ⟨h.params, h.a, by simp [h.sensor], by simp [h.acks], by simp [h.bytes]⟩, ⟨_, rfl, rfl⟩,
      ⟨[], by simp, by simp⟩⟩
  | false =>
    rw [busRead_of_nack _ _ hb, busRead_of_nack _ _ (ha ▸ hb)]
    exact ⟨⟨h.params, by simp [h.a], h.sensor, by simp [h.acks], h.bytes⟩, ⟨_, rfl, rfl⟩, ⟨[], by simp, by simp⟩⟩

theorem readGroup_same {s t : State} (h : AgreeA s t) (addr : Byte) (n : Nat) {store : List Byte → State → State}
    (hs : ∀ b s t, AgreeA s t → SameMoveA s t (store b s) (store b t)) :
    SameOutcome s t (readGroup addr n store s) (readGroup addr n store t) :=
  ((busWrite_same h _ _).andThen fun _ _ _ h => busRead_same h n).andThen fun b _ _ h => ⟨rfl, hs b _ _ h⟩

theorem sresetTransfers_same {s t : State} (h : AgreeA s t) :
    SameOutcome s t (sresetTransfers s) (sresetTransfers t) :=
  (busWrite_same h _ _).andThen fun _ _ _ h =>
    SameOutcome.after (sameMoveA_emit h (.wait Config.tResetHold))
      (busWrite_same (sameMoveA_emit h (.wait Config.tResetHold)).agree _ _)

theorem storeAccel_same (b : List Byte) {s t : State} (h : AgreeA s t) :
    SameMoveA s t (storeAccel b s) (storeAccel b t) :=
  sameMoveA_regs (fun a => { a with
    ax := some (component b 0), ay := some (component b 1), az := some (component b 2) }) h

theorem storeGyro_same (b : List Byte) {s t : State} (h : AgreeA s t) :
    SameMoveA s t (storeGyro b s) (storeGyro b t) :=
  sameMoveA_regs (fun a => { a with
    gx := some (component b 0), gy := some (component b 1), gz := some (component b 2) }) h

theorem storeTemp_same (b : List Byte) {s t : State} (h : AgreeA s t) :
    SameMoveA s t (storeTemp b s) (storeTemp b t) :=
  sameMoveA_regs (fun a => { a with temp := some (component b 0) }) h

theorem sreadTransfers_same {s t : State} (h : AgreeA s t) : SameOutcome s t (sreadTransfers s) (sreadTransfers t) := by
  refine (readGroup_same h _ _ fun b _ _ h => storeAccel_same b h).andThen fun _ t₁ t₂ h => ?_
  rw [h.params]
  split
  · exact (readGroup_same h _ _ fun b _ _ h => storeGyro_same b h).andThen fun _ _ _ h =>
      readGroup_same h _ _ fun b _ _ h => storeTemp_same b h
  · exact ⟨rfl, SameMoveA.refl h⟩

/-! ## Every operation of unit A -/

theorem pushWord_same {s t : State} (h : AgreeA s t) (hl : s.ch.length = t.ch.length) (w : Word) :
    SameMoveA s t (pushWord w s) (pushWord w t) := by
  by_cases hr : s.ch.length < s.params.chDepth
  · rw [pushWord, pushWord, chPush_of_room _ hr, chPush_of_room _ (by rwa [← hl, ← h.params])]
    exact sameMoveA_advance
      ⟨⟨h.params, h.a, h.sensor, h.acks, h.bytes⟩, ⟨[], by simp, by simp⟩, ⟨[w], rfl, rfl⟩⟩
  · have hf := Nat.not_lt.1 hr
    rw [pushWord, pushWord, chPush_of_full _ hf, chPush_of_full _ (by rwa [← hl, ← h.params])]
    exact SameMoveA.refl h

/-- An operation of unit A depends on what unit A can see only, and the channel's contents show as their number. -/
theorem exec_sameA {i : Instr} {s₁ s₂ t₁ : State} (hp : i.port = some .A) (h : AgreeA s₁ s₂)
    (hl : s₁.ch.length = s₂.ch.length) (he : exec i s₁ = .next t₁) :
    ∃ t₂, exec i s₂ = .next t₂ ∧ SameMoveA s₁ s₂ t₁ t₂ := by
  cases i <;> simp only [Instr.port, Option.some.injEq, reduceCtorEq] at hp
  case sreset =>
    simp only [exec, execSreset] at he ⊢
    rw [← h.a]
    split at he
    · cases he
    · cases he
      refine ⟨_, rfl, (sresetTransfers_same h).finish fun _ u₁ u₂ k => ?_⟩
      have e := sameMoveA_emit k (.wait Config.tResetSettle)
      exact sameMoveA_advance (e.trans (sameMoveA_regs (fun a => { a with drv := .ready }) e.agree))
  case sread =>
    simp only [exec, execSread] at he ⊢
    rw [← h.a]
    split at he
    · cases he
    · cases he
      exact ⟨_, rfl, (sreadTransfers_same h).finish fun _ _ _ k => sameMoveA_advance (SameMoveA.refl k)⟩
  case orient =>
    obtain ⟨ax, ay, az, h1, h2, h3, rfl⟩ := execOrient_next he
    refine ⟨_, ?_, sameMoveA_advance
      (sameMoveA_regs (fun a => { a with roll := some (rollOf ay az), pitch := some (pitchOf ax ay az) }) h)⟩
    simp [exec, execOrient, withReg, ← h.a, h1, h2, h3]
  case encode =>
    obtain ⟨r, p, qr, qp, h1, h2, h3, h4, rfl⟩ := execEncode_next he
    refine ⟨_, ?_, sameMoveA_advance
      (sameMoveA_regs (fun a => { a with wmRoll := some qr, wmPitch := some qp }) h)⟩
    simp [exec, execEncode, withReg, withQuantized, ← h.a, h1, h2, h3, h4]
  case push sel =>
    obtain ⟨q, hq, rfl⟩ := execPush_next he
    refine ⟨_, ?_, pushWord_same h hl _⟩
    simp [exec, execPush, withReg, ← h.a, hq]
  case pushi w =>
    cases he
    exact ⟨_, rfl, pushWord_same h hl _⟩
  case wait n =>
    cases he
    exact ⟨_, rfl, sameMoveA_advance (sameMoveA_emit h _)⟩
  case diag =>
    cases he
    exact ⟨_, rfl, sameMoveA_advance (sameMoveA_emit h _)⟩

end Sys2Proof.Machine
end

