-- ==== Sys2Proof/Laws/PerInstr.lean ====
section
/-! SUPPORT. Statements made for every operation, one lemma for each constructor. -/

namespace Sys2Proof.Laws.TableFormat

/-- The encoding of the operation has the shape of its row's format in spec/opcode_table.json: a command for `CMD`; a
write of two bytes with a stop for `BW2`, of one byte without for `BW1`; a read of six bytes for `BR6`, of two for `BR2`
(30_encoding.md R93, R97). -/
def Statement (i : Instr) : Prop :=
  match i.format, encode i with
  | .cmd, .cmd _ => True
  | .bw2, .frame _ (.write bytes nostop) => bytes.length = 2 ∧ nostop = false
  | .bw1, .frame _ (.write bytes nostop) => bytes.length = 1 ∧ nostop = true
  | .br6, .frame _ (.read bytes) => bytes.length = 6
  | .br2, .frame _ (.read bytes) => bytes.length = 2
  | _, _ => False

theorem sreset : Statement .sreset := trivial
theorem sread : Statement .sread := trivial
theorem orient : Statement .orient := trivial
theorem encode : Statement .encode := trivial
theorem push (sel : Sel) : Statement (.push sel) := trivial
theorem pushi (imm : Word) : Statement (.pushi imm) := trivial
theorem wait (n : Word) : Statement (.wait n) := trivial
theorem pop (sel : Sel) : Statement (.pop sel) := trivial
theorem decode : Statement .decode := trivial
theorem toggle : Statement .toggle := trivial
theorem redraw : Statement .redraw := trivial
theorem diag : Statement .diag := trivial
theorem bwPwrReset : Statement .bwPwrReset := ⟨rfl, rfl⟩
theorem bwPwrRun : Statement .bwPwrRun := ⟨rfl, rfl⟩
theorem bwPtrAccel : Statement .bwPtrAccel := ⟨rfl, rfl⟩
theorem brAccel (b0 b1 b2 b3 b4 b5 : Byte) : Statement (.brAccel b0 b1 b2 b3 b4 b5) := rfl
theorem bwPtrGyro : Statement .bwPtrGyro := ⟨rfl, rfl⟩
theorem brGyro (b0 b1 b2 b3 b4 b5 : Byte) : Statement (.brGyro b0 b1 b2 b3 b4 b5) := rfl
theorem bwPtrTemp : Statement .bwPtrTemp := ⟨rfl, rfl⟩
theorem brTemp (b0 b1 : Byte) : Statement (.brTemp b0 b1) := rfl

end Sys2Proof.Laws.TableFormat
end

