-- ==== Sys2Proof/Laws/Quantizer.lean ====
section
/-! SUPPORT. Truncation toward zero, and what the quantizer answers. -/

namespace Sys2Proof.Machine

/-- Truncation of a value that is not negative is its floor (00_scope.md R7). -/
theorem trunc0_floor {p : F32} (h : 0 ≤ realOf p) : trunc0 p = ⌊realOf p⌋ := by
  have hu : (0 : Int) < (unitsPerOne : Int) := by decide
  have hq := unitsPerOne_pos
  have h0 : 0 ≤ units p := by
    rw [realOf, le_div_iff₀ hq, zero_mul] at h
    exact_mod_cast h
  symm
  rw [trunc0, Int.tdiv_eq_ediv_of_nonneg h0, realOf, Int.floor_eq_iff, le_div_iff₀ hq, div_lt_iff₀ hq]
  have e1 := Int.ediv_mul_le (units p) hu.ne'
  have e2 := Int.lt_ediv_add_one_mul_self (units p) hu
  exact ⟨by exact_mod_cast e1, by exact_mod_cast e2⟩

/-- Truncation of a negative value is its ceiling (00_scope.md R7). -/
theorem trunc0_ceil {p : F32} (h : realOf p < 0) : trunc0 p = ⌈realOf p⌉ := by
  have hu : (0 : Int) < (unitsPerOne : Int) := by decide
  have hq := unitsPerOne_pos
  have h0 : units p < 0 := by
    rw [realOf, div_lt_iff₀ hq, zero_mul] at h
    exact_mod_cast h
  have h1 : (units p).tdiv unitsPerOne = -((-units p) / unitsPerOne) := by
    rw [← Int.tdiv_eq_ediv_of_nonneg (by omega), Int.neg_tdiv, neg_neg]
  symm
  rw [trunc0, h1, realOf, Int.ceil_eq_iff, div_le_iff₀ hq, lt_div_iff₀ hq]
  have e1 := Int.ediv_mul_le (-units p) hu.ne'
  have e2 := Int.lt_ediv_add_one_mul_self (-units p) hu
  generalize (-units p) / (unitsPerOne : Int) = d at *
  constructor
  · have : (-d - 1) * (unitsPerOne : Int) < units p := by linarith
    exact_mod_cast this
  · have : units p ≤ -d * unitsPerOne := by linarith
    exact_mod_cast this

/-- Truncation moves a value by less than 1, toward zero. -/
theorem trunc0_error (p : F32) :
    |(trunc0 p : ℚ) - realOf p| < 1 ∧ (0 < trunc0 p → 0 < realOf p) ∧ (trunc0 p < 0 → realOf p < 0) := by
  rcases le_or_gt 0 (realOf p) with h | h
  · rw [trunc0_floor h]
    have h1 := Int.floor_le (realOf p)
    have h2 := Int.lt_floor_add_one (realOf p)
    refine ⟨by rw [abs_lt]; constructor <;> linarith, fun h3 => ?_, fun h3 => ?_⟩
    · have : (0 : ℚ) < ⌊realOf p⌋ := by exact_mod_cast h3
      linarith
    · have := Int.floor_nonneg.2 h
      omega
  · rw [trunc0_ceil h]
    have h1 := Int.le_ceil (realOf p)
    have h2 := Int.ceil_lt_add_one (realOf p)
    refine ⟨by rw [abs_lt]; constructor <;> linarith, fun h3 => ?_, fun _ => h⟩
    have : ⌈realOf p⌉ ≤ 0 := Int.ceil_le.2 (by exact_mod_cast h.le)
    omega

/-- What the quantizer answers with, where it answers (41_orientation_encoder.md R157). -/
theorem quantize_some {v : F32} {q : S32} (h : quantize v = some q) :
    isFinite v = true ∧ isFinite (fMul v Config.scale) = true ∧ q.toInt = trunc0 (fMul v Config.scale) := by
  unfold quantize at h
  split at h
  · rename_i c
    cases h
    refine ⟨c.1, c.2.1, ?_⟩
    rw [BitVec.toInt_ofInt_eq_self (by decide) (by simpa using c.2.2.1) (by have := c.2.2.2; norm_num; omega)]
  · cases h

/-- When the quantizer answers (41_orientation_encoder.md R157). -/
theorem quantize_isSome {v : F32} (h1 : isFinite v = true) (h2 : isFinite (fMul v Config.scale) = true)
    (h3 : -2 ^ 31 ≤ trunc0 (fMul v Config.scale)) (h4 : trunc0 (fMul v Config.scale) ≤ 2 ^ 31 - 1) :
    ∃ q, quantize v = some q := by
  exact ⟨_, if_pos ⟨h1, h2, h3, h4⟩⟩

end Sys2Proof.Machine
end

