-- ==== Sys2Proof/Tests/Slice0.lean ====
section
/-! SUPPORT. Tests. Expected values come from the spec: the encodings of 30_encoding.md and the vectors of
95_test_vectors.md, named in each section. Then, for every statement with hypotheses, a witness that meets them. -/

namespace Sys2Proof.Tests

open Sys2Proof Sys2Proof.Machine

/-! ## Well-formedness: each check refuses an ill-formed term -/

theorem test_legalAt_refuses_pop_at_A : (Instr.pop .pitch).legalAt .A = false := by decide
theorem test_legalAt_refuses_push_at_B : (Instr.push .roll).legalAt .B = false := by decide
theorem test_legalAt_refuses_transfer : Instr.bwPwrReset.legalAt .A = false := by decide
theorem test_shapeOk_refuses_empty : Program.shapeOk ⟨[], none⟩ = false := by decide
theorem test_shapeOk_refuses_loop_outside : Program.shapeOk ⟨[0x100000000], some 1⟩ = false := by decide
theorem test_shapeOk_accepts_canonical : Config.canonicalProgA.shapeOk = true := by decide
theorem test_params_refuse_depth_zero : Params.ok { Config.defaults with chDepth := 0 } = false := by decide
theorem test_params_refuse_bad_program :
    Params.ok { Config.defaults with progB := ⟨[0x900000000], some 5⟩ } = false := by decide
theorem test_params_accept_defaults : Config.defaults.ok = true := by decide
theorem test_legalFor_refuses_reserved_word : Program.legalFor .A ⟨[0x100000000, 0], none⟩ = false := by decide
theorem test_legalFor_refuses_other_port : Program.legalFor .B Config.canonicalProgA = false := by decide
theorem test_legalFor_accepts_canonical :
    Program.legalFor .A Config.canonicalProgA = true ∧ Program.legalFor .B Config.canonicalProgB = true := by decide

/-! ## Decoding, every constructor: words of 30_encoding.md R100 (as 95_test_vectors.md 2.1 writes them) and R101 -/

theorem test_decode_sreset : decodeAt .A 0x100000000 = .ok .sreset := by decide
theorem test_decode_sread : decodeAt .A 0x200000000 = .ok .sread := by decide
theorem test_decode_orient : decodeAt .A 0x300000000 = .ok .orient := by decide
theorem test_decode_encode : decodeAt .A 0x400000000 = .ok .encode := by decide
theorem test_decode_push0 : decodeAt .A 0x500000000 = .ok (.push .roll) := by decide
theorem test_decode_push1 : decodeAt .A 0x500000001 = .ok (.push .pitch) := by decide
theorem test_decode_pushi : decodeAt .A 0x6FFFFDCD8 = .ok (.pushi 0xFFFFDCD8) := by decide
theorem test_decode_wait : decodeAt .A 0x7FFFFFFFF = .ok (.wait 4294967295) := by decide
theorem test_decode_pop0 : decodeAt .B 0x800000000 = .ok (.pop .roll) := by decide
theorem test_decode_pop1 : decodeAt .B 0x800000001 = .ok (.pop .pitch) := by decide
theorem test_decode_decode : decodeAt .B 0x900000000 = .ok .decode := by decide
theorem test_decode_toggle : decodeAt .B 0xA00000000 = .ok .toggle := by decide
theorem test_decode_redraw : decodeAt .B 0xB00000000 = .ok .redraw := by decide
theorem test_decode_diag : decodeAt .A 0xC00000000 = .ok .diag := by decide
theorem test_decode_bwPwrReset : decodeFrame 0 (.write [0x6B, 0x80] false) = .ok .bwPwrReset := by decide
theorem test_decode_bwPwrRun : decodeFrame 0 (.write [0x6B, 0x00] false) = .ok .bwPwrRun := by decide
theorem test_decode_bwPtrAccel : decodeFrame 0 (.write [0x3B] true) = .ok .bwPtrAccel := by decide
theorem test_decode_bwPtrGyro : decodeFrame 0 (.write [0x43] true) = .ok .bwPtrGyro := by decide
theorem test_decode_bwPtrTemp : decodeFrame 0 (.write [0x41] true) = .ok .bwPtrTemp := by decide
theorem test_decode_brAccel :
    decodeFrame 0x3B (.read [0x03, 0xE8, 0xF8, 0x30, 0x3A, 0x98]) = .ok (.brAccel 0x03 0xE8 0xF8 0x30 0x3A 0x98) := by
  decide
theorem test_decode_brGyro :
    decodeFrame 0x43 (.read [0x00, 0x10, 0xFF, 0xF0, 0x00, 0x00]) = .ok (.brGyro 0x00 0x10 0xFF 0xF0 0x00 0x00) := by
  decide
theorem test_decode_brTemp : decodeFrame 0x41 (.read [0xF5, 0x30]) = .ok (.brTemp 0xF5 0x30) := by decide

/-! ## Rejected words: the rows marked `Illegal` in 95_test_vectors.md 2.1, and transfers that are none of R101 -/

theorem test_reject_reserved_bit : decodeAt .A 0x500000002 = .error .reservedArg := by decide
theorem test_reject_diag_arg : decodeAt .A 0xC00000001 = .error .reservedArg := by decide
theorem test_reject_orient_arg : decodeAt .A 0x300000001 = .error .reservedArg := by decide
theorem test_reject_pop_at_A : decodeAt .A 0x800000001 = .error .wrongPort := by decide
theorem test_reject_push_at_B : decodeAt .B 0x500000000 = .error .wrongPort := by decide
theorem test_reject_code_0 : decodeAt .B 0x000000000 = .error .reservedOp := by decide
theorem test_reject_code_D : decodeAt .A 0xD00000000 = .error .reservedOp := by decide
theorem test_reject_code_E : decodeAt .A 0xE00000000 = .error .reservedOp := by decide
theorem test_reject_code_F : decodeAt .B 0xF00000000 = .error .reservedOp := by decide
theorem test_reject_power_value : decodeFrame 0 (.write [0x6B, 0x01] false) = .error .unknownTransfer := by decide
theorem test_reject_pointer_with_stop : decodeFrame 0 (.write [0x3B] false) = .error .unknownTransfer := by decide
theorem test_reject_read_elsewhere : decodeFrame 0x3C (.read [0, 0]) = .error .unknownTransfer := by decide

/-! ## The numbering of spec/opcode_table.json -/

theorem test_table_command : decodeTableWord 40 0x6FFFFDCD8 = some (.pushi 0xFFFFDCD8) := by decide
theorem test_table_reserved : decodeTableWord 40 0xD00000000 = none := by decide
theorem test_table_power : decodeTableWord 16 0x6B80 = some .bwPwrReset := by decide
theorem test_table_temp : decodeTableWord 16 0xF530 = some (.brTemp 0xF5 0x30) := by decide
theorem test_table_pointer : decodeTableWord 8 0x43 = some .bwPtrGyro := by decide
theorem test_table_accel :
    decodeTableWord 48 0x03E8F8303A98 = some (.brAccel 0x03 0xE8 0xF8 0x30 0x3A 0x98) := by decide

/-! ## Samples and values: 95_test_vectors.md 2.1, 2.4, 2.5 and 2.6 -/

theorem test_assemble_high_first : (assemble 0x40 0x00).toInt = 16384 := by decide
theorem test_assemble_signed : (assemble 0xF5 0x30).toInt = -2768 := by decide
theorem test_quantize_029 : quantize 0x3E947AE1 = some 29 := by decide
theorem test_quantize_half_truncates : quantize 0x4145851F = some 1234 := by decide
theorem test_quantize_toward_zero : quantize 0xBC1374BC = some 0 := by decide
theorem test_quantize_least : quantize 0xCBA3D70A = some 0x80000000 := by decide
theorem test_quantize_too_large : quantize 0x4BA3D70A = none := by decide
theorem test_quantize_nan : quantize 0x7FC00000 = none ∧ quantize 0xFF800000 = none := by decide
theorem test_dequantize_one : dequantize 1 = 0x3C23D70A := by decide
theorem test_dequantize_3526 : dequantize 0xFFFFF23A = 0xC20D0A3D := by decide
theorem test_dequantize_largest : dequantize 0x7FFFFFFF = 0x4BA3D70A := by decide
theorem test_requantize_53 : dequantize 53 = 0x3F07AE14 ∧ quantize (dequantize 53) = some 52 := by decide

/-! ## States for one step -/

/-- The machine after reset, with these answers and bytes of the sensor given. -/
def heard (acks : List Bool) (bytes : List Byte) : State :=
  { State.reset with
    inp := { State.reset.inp with acks := { given := acks, count := 0 }, bytes := { given := bytes, count := 0 } } }

/-- The draws of vector V-S2. -/
def sampleBytes : List Byte := [0x03, 0xE8, 0xF8, 0x30, 0x3A, 0x98, 0x00, 0x10, 0xFF, 0xF0, 0x00, 0x00, 0xF5, 0x30]

/-- The driver ready at `SREAD`, with these answers given and the draws of V-S2. -/
def ready (acks : List Bool) : State :=
  let s := heard acks sampleBytes
  { s with a := { s.a with drv := .ready, pc := 1 } }

/-- A state with an acceleration sample. -/
def sampled (ax ay az : S16) : State :=
  { State.reset with a := { State.reset.a with ax := some ax, ay := some ay, az := some az } }

/-- A state with angles in unit A. -/
def angled (roll pitch : F32) : State :=
  { State.reset with a := { State.reset.a with roll := some roll, pitch := some pitch } }

/-- A state with a message in unit A, a channel of two words, and these words in it, pushed since reset. -/
def messaged (ch : List Word) : State :=
  { State.reset with
    params := { State.reset.params with chDepth := 2 }
    a := { State.reset.a with wmRoll := some 0xFFFFDCD8, wmPitch := some 0x1194 }
    ch := ch
    ghost := { State.reset.ghost with histPush := ch } }

/-- A state with received words. -/
def received (roll pitch : S32) : State :=
  { State.reset with b := { State.reset.b with rxRoll := some roll, rxPitch := some pitch } }

/-- A state with decoded angles. -/
def shown (roll pitch : F32) : State :=
  { State.reset with b := { State.reset.b with roll := some roll, pitch := some pitch } }

/-- The state with the turns given, and one command as each unit's program. -/
def atCommands (u : UnitId) (a b : Cmd) (s : State) : State :=
  { s with
    params := { s.params with progA := ⟨[a], none⟩, progB := ⟨[b], none⟩ }
    inp := { s.inp with turns := { given := [u], count := 0 } } }

/-- The operation answers a next state, and it has the property. -/
def after (o : Host.Outcome State Fault Refusal) (p : State → Bool) : Bool :=
  match o with
  | .next t => p t
  | .fault _ => false
  | .refused _ => false

/-- The operation is refused for this reason. -/
def refusedAs (o : Host.Outcome State Fault Refusal) (r : Refusal) : Bool :=
  match o with
  | .next _ => false
  | .fault _ => false
  | .refused r' => decide (r' = r)

/-! ## One instruction: 95_test_vectors.md 2.2, 2.3, 2.7, 2.8 and 2.9 -/

/-- V-S1. -/
theorem test_sreset : after (exec .sreset (heard [true, true] [])) (fun t => decide
    (t.ghost.traceA = [.busW 0x68 [0x6B, 0x80] false, .wait 100, .busW 0x68 [0x6B, 0x00] false, .wait 10] ∧
      t.a.drv = .ready ∧ t.a.pc = 1 ∧
      t.sensor = { ptr := 0x6C, mode := .awake, reg := [(0x6B, 0x00)] })) = true := by decide
/-- V-S6, the second write. -/
theorem test_sreset_nack : after (exec .sreset (heard [true, false] [])) (fun t => decide
    (t.a.drv = .uninit ∧ t.a.pc = 0 ∧ t.a.st = .stalled ∧ t.a.busFault = true ∧ t.sensor.mode = .resetting ∧
      t.ghost.traceA.length = 3)) = true := by decide
/-- V-S2. -/
theorem test_sread : after (exec .sread (ready [true, true, true, true, true, true])) (fun t => decide
    ((t.a.ax, t.a.ay, t.a.az) = (some 1000, some (-2000), some 15000) ∧
      (t.a.gx, t.a.gy, t.a.gz, t.a.temp) = (some 16, some (-16), some 0, some (-2768)) ∧ t.a.pc = 2 ∧
      t.sensor.ptr = 0x43 ∧
      t.ghost.traceA[3]? = some (.busR 0x68 6 (some [0x00, 0x10, 0xFF, 0xF0, 0x00, 0x00])))) = true := by decide
/-- V-S4. -/
theorem test_sread_nack : after (exec .sread (ready [true, true, false])) (fun t => decide
    ((t.a.ax, t.a.gx, t.a.temp) = (some 1000, none, none) ∧ t.a.pc = 1 ∧ t.a.st = .stalled ∧
      t.a.busFault = true ∧ t.ghost.traceA.length = 3)) = true := by decide
/-- 2.3: the inverted case (E4). -/
theorem test_orient_inverted : after (exec .orient (sampled 0 0 (-16384))) (fun t => decide
    (t.a.roll = some 0x43340000 ∧ t.a.pitch = some 0x80000000)) = true := by decide
/-- 2.3: (1, 0, 0). -/
theorem test_orient_pitch_down : after (exec .orient (sampled 1 0 0)) (fun t => decide
    (t.a.roll = some 0x00000000 ∧ t.a.pitch = some 0xC2B40000)) = true := by decide
/-- 2.4: 35.26439 and -5.05. -/
theorem test_encode : after (exec .encode (angled 0x420D0EBC 0xC0A1999A)) (fun t => decide
    (t.a.wmRoll = some 3526 ∧ t.a.wmPitch = some (-505))) = true := by decide
/-- 2.9: 3.0e7 is refused. -/
theorem test_encode_range : refusedAs (exec .encode (angled 0x4BE4E1C0 0)) (.quantRange 0x4BE4E1C0) = true := by decide
/-- V-C2. -/
theorem test_push : after (exec (.push .roll) (messaged [])) (fun t => decide
    (t.ch = [0xFFFFDCD8])) = true := by decide
/-- V-C3. -/
theorem test_push_refused : refusedAs (exec (.push .roll) State.reset) (.readBeforeWrite .wmRoll) = true := by decide
/-- V-C1, steps 2 and 4. -/
theorem test_pushi : after (exec (.pushi 0x0B) (messaged [0x0A])) (fun t => decide
    (t.ch = [0x0A, 0x0B])) = true := by decide
theorem test_pushi_held : exec (.pushi 0x0C) (messaged [0x0A, 0x0B]) = .next (messaged [0x0A, 0x0B]) := rfl
/-- V-C1, steps 5 and 1. -/
theorem test_pop : after (exec (.pop .roll) (messaged [0x0A, 0x0B])) (fun t => decide
    (t.ch = [0x0B] ∧ t.b.rxRoll = some 10 ∧ t.b.rxPitch = none ∧ t.ghost.histPop = [0x0A])) = true := by decide
theorem test_pop_held : exec (.pop .roll) State.reset = .next State.reset := rfl
/-- V-Q2. -/
theorem test_wait : after (exec (.wait 250) State.reset) (fun t => decide
    (t.ghost.traceA = [.wait 250] ∧ t.a.pc = 1)) = true := by decide
theorem test_diag : after (exec .diag State.reset) (fun t => decide
    (t.ghost.traceA = [.diag])) = true := by decide
/-- Part 3, P2. -/
theorem test_decode : after (exec .decode (received 4500 (-3526))) (fun t => decide
    (t.b.roll = some 0x42340000 ∧ t.b.pitch = some 0xC20D0A3D)) = true := by decide
/-- V-Q1. -/
theorem test_toggle : after (exec .toggle State.reset) (fun t => decide
    (t.b.ind = true ∧ t.ghost.traceB = [.ind true])) = true := by decide
/-- V-Q3. -/
theorem test_redraw : ∃ t, exec .redraw (shown 0x414570A4 0xC20D0A3D) = .next t ∧
    t.ghost.traceB = [.redraw (fmt1 0x414570A4) (fmt1 0xC20D0A3D)] := ⟨_, rfl, rfl⟩
/-- V-Q3: "12.3" and "-35.3" are allowed for these values, "12.4" is not. -/
theorem test_text : textAllowed 0x414570A4 ⟨false, 1, [2], 3⟩ = true ∧ textAllowed 0xC20D0A3D ⟨true, 3, [5], 3⟩ = true ∧
    textAllowed 0x414570A4 ⟨false, 1, [2], 4⟩ = false ∧ OneDecimal.text ⟨true, 3, [5], 3⟩ = "-35.3" := by decide
/-- V-Q4. -/
theorem test_redraw_refused : refusedAs (exec .redraw State.reset) (.readBeforeWrite .rollB) = true := by decide
/-- The eight transfers of 30_encoding.md R101. -/
theorem test_bwPwrReset : after (exec .bwPwrReset (heard [true] [])) (fun t => decide
    (t.sensor = { ptr := 0x6C, mode := .resetting, reg := [(0x6B, 0x80)] } ∧ t.a.pc = 0)) = true := by decide
theorem test_bwPwrRun : after (exec .bwPwrRun (heard [true] [])) (fun t => decide
    (t.sensor.mode = .awake)) = true := by decide
theorem test_bwPtrAccel : after (exec .bwPtrAccel (heard [true] [])) (fun t => decide
    (t.sensor.ptr = 0x3B)) = true := by decide
theorem test_bwPtrGyro : after (exec .bwPtrGyro (heard [true] [])) (fun t => decide
    (t.sensor.ptr = 0x43)) = true := by decide
theorem test_bwPtrTemp : after (exec .bwPtrTemp (heard [false] [])) (fun t => decide
    (t.sensor.ptr = 0 ∧ t.a.st = .stalled)) = true := by decide
/-- The sensor with its pointer at an address, acknowledging. -/
def pointed (p : Byte) : State :=
  let s := heard [true] []
  { s with sensor := { s.sensor with ptr := p } }
/-- 2.1, `unpack3`. -/
theorem test_brAccel : after (exec (.brAccel 0xF0 0x60 0x0B 0xB8 0xD1 0x20) (pointed 0x3B)) (fun t => decide
    ((t.a.ax, t.a.ay, t.a.az) = (some (-4000), some 3000, some (-12000)) ∧ t.sensor.ptr = 0x41)) = true := by decide
theorem test_brGyro : after (exec (.brGyro 0x80 0x00 0x7F 0xFF 0xFF 0xFF) (pointed 0x43)) (fun t => decide
    ((t.a.gx, t.a.gy, t.a.gz) = (some (-32768), some 32767, some (-1)) ∧ t.sensor.ptr = 0x49)) = true := by decide
theorem test_brTemp : after (exec (.brTemp 0xF5 0x30) (pointed 0x41)) (fun t => decide
    (t.a.temp = some (-2768) ∧ t.sensor.ptr = 0x43)) = true := by decide

/-! ## Steps and the host's entry points -/

/-- V-Q5: the loop back of the canonical program of unit A. -/
theorem test_loop_back : nextIndex Config.canonicalProgA 7 = some 1 ∧ nextIndex Config.canonicalProgB 4 = some 0 ∧
    nextIndex ⟨[0x100000000], none⟩ 0 = none := by decide
theorem test_withFetchWord_command :
    step (State.reset.withFetchWord 40 0x7000000FA) =
      exec (.wait 250) (State.reset.withFetchWord 40 0x7000000FA).dropTurn := rfl
theorem test_withFetchWord_transfer :
    step (pointed 0 |>.withFetchWord 16 0xF530) = exec (.brTemp 0xF5 0x30) (pointed 0x41) := rfl

/-! ## Witnesses: a state and operands that meet the hypotheses of each statement, clause by clause -/

/-- The state after reset at one command of unit `u`, whose turn it is. -/
def turnAt (u : UnitId) (c : Cmd) (s : State) : State := atCommands u c c s

theorem witness_ResetMeetsCanonicalInvariant : 1 ≤ 1 := by decide
theorem witness_EncodeInvertsDecode : decodeCmd 0x500000001 = .ok (.push .pitch) := by decide
theorem witness_IllegalCommandsAreRefused_code : (0xF : BitVec 4) = 0x0 ∨ (0xF : BitVec 4) = 0xD ∨
    (0xF : BitVec 4) = 0xE ∨ (0xF : BitVec 4) = 0xF := by decide
theorem witness_IllegalCommandsAreRefused_arg : (0xC : BitVec 4) = 0xC ∧ (0xFFFFFFFF : Word) ≠ 0 ∧
    (0x8 : BitVec 4) = 0x8 ∧ (2 : Word) >>> 1 ≠ 0 := by decide
theorem witness_IllegalCommandsAreRefused_port : decodeCmd 0x800000001 = .ok (.pop .pitch) ∧
    (Instr.pop .pitch).port ≠ some .A := by decide
theorem witness_IllegalCommandsAreRefused_step :
    (turnAt .A 0 State.reset).turnOf .A ∧ (turnAt .A 0 State.reset).running .A = true ∧
      (turnAt .A 0 State.reset).fetch .A = some 0 ∧ decodeAt .A 0 = .error .reservedOp :=
  ⟨⟨rfl, rfl⟩, rfl, rfl, rfl⟩

theorem witness_StepRunsTheFetchedCommand_legal :
    (turnAt .B 0xA00000000 State.reset).turnOf .B ∧ (turnAt .B 0xA00000000 State.reset).running .B = true ∧
      (turnAt .B 0xA00000000 State.reset).fetch .B = some 0xA00000000 ∧ decodeAt .B 0xA00000000 = .ok .toggle :=
  ⟨⟨rfl, rfl⟩, rfl, rfl, rfl⟩
theorem witness_StepRunsTheFetchedCommand_held :
    (turnAt .B 0x800000000 State.reset).turnOf .B ∧ (turnAt .B 0x800000000 State.reset).running .B = true ∧
      (turnAt .B 0x800000000 State.reset).held .B = true := ⟨⟨rfl, rfl⟩, rfl, rfl⟩
/-- Unit A stalled, at a command. -/
def stalledAt (c : Cmd) : State :=
  let s := turnAt .A c State.reset
  { s with a := { s.a with st := .stalled, busFault := true } }
theorem witness_StepRunsTheFetchedCommand_stopped :
    (stalledAt 0xC00000000).turnOf .A ∧ (stalledAt 0xC00000000).running .A = false := ⟨⟨rfl, rfl⟩, rfl⟩
theorem witness_StepRunsTheLoneTransfer :
    ((pointed 0).withFetchWord 16 0xF530).inp.busReq = some (.read [0xF5, 0x30]) ∧
      ((pointed 0).withFetchWord 16 0xF530).a.st = .run ∧
      decodeFrame ((pointed 0).withFetchWord 16 0xF530).sensor.ptr (.read [0xF5, 0x30]) = .ok (.brTemp 0xF5 0x30) := by
  decide

theorem witness_SresetResetsTheSensor : (heard [true, true] []).a.drv = .uninit ∧
    (heard [true, true] []).ackAt 0 = true ∧ (heard [true, true] []).ackAt 1 = true := by decide
theorem witness_SresetFaultStallsUnitA : (heard [false] []).a.drv = .uninit ∧ (heard [false] []).ackAt 0 = false ∧
    (heard [true, false] []).ackAt 0 = true ∧ (heard [true, false] []).ackAt 1 = false := by decide
theorem witness_SreadReadsTheWholeSample : (ready [true, true, true, true, true, true]).a.drv = .ready ∧
    (ready [true, true, true, true, true, true]).params.readUnused = true ∧
    ∀ k < 6, (ready [true, true, true, true, true, true]).ackAt k = true := by decide
/-- The driver ready, without the two unused groups. -/
def readyShort (acks : List Bool) : State :=
  let s := ready acks
  { s with params := { s.params with readUnused := false } }
theorem witness_SreadWithoutUnusedReadsAcceleration : (readyShort [true, true]).a.drv = .ready ∧
    (readyShort [true, true]).params.readUnused = false ∧ (readyShort [true, true]).ackAt 0 = true ∧
    (readyShort [true, true]).ackAt 1 = true := by decide
theorem witness_SreadFaultKeepsEarlierGroups_first : (ready [false]).a.drv = .ready ∧
    0 < (if (ready [false]).params.readUnused then 6 else 2) ∧ (ready [false]).ackAt 0 = false := by decide
theorem witness_SreadFaultKeepsEarlierGroups_last : (ready [true, true, true, true, true, false]).a.drv = .ready ∧
    5 < (if (ready [true, true, true, true, true, false]).params.readUnused then 6 else 2) ∧
    (∀ j < 5, (ready [true, true, true, true, true, false]).ackAt j = true) ∧
    (ready [true, true, true, true, true, false]).ackAt 5 = false := by decide
theorem witness_SreadFaultKeepsEarlierGroups_short :
    1 < (if (readyShort [true, false]).params.readUnused then 6 else 2) ∧
    (∀ j < 1, (readyShort [true, false]).ackAt j = true) ∧ (readyShort [true, false]).ackAt 1 = false := by decide
theorem witness_DriverMisuseIsRefused : State.reset.a.drv = .uninit ∧ (ready []).a.drv = .ready := by decide
theorem witness_BusWritesReachTheSensor : (heard [true] []).nextAck = true ∧
    (Instr.bwPwrRun, (0x00 : Byte), SdMode.awake) = (.bwPwrRun, 0x00, .awake) ∧
    (Instr.bwPtrGyro, (0x43 : Byte)) = (.bwPtrGyro, 0x43) := by decide
theorem witness_BusReadsFillTheGroup : (pointed 0x3B).nextAck = true ∧ (pointed 0x3B).sensor.ptr = 0x3B ∧
    (pointed 0x43).nextAck = true ∧ (pointed 0x43).sensor.ptr = 0x43 ∧
    (pointed 0x41).nextAck = true ∧ (pointed 0x41).sensor.ptr = 0x41 := by decide
theorem witness_BusErrorStallsUnitA : (heard [false] []).nextAck = false ∧
    transferFailure 0x68 (.brTemp 1 2) = some (.busR 0x68 2 none) ∧
    transferFailure 0x68 .bwPwrReset = some (.busW 0x68 [0x6B, 0x80] false) := by decide
theorem witness_StallIsForEver : step (stalledAt 0xC00000000) = .next (stalledAt 0xC00000000).dropTurn ∧
    (stalledAt 0xC00000000).a.busFault = true ∧ (stalledAt 0xC00000000).a.st = .stalled := ⟨rfl, rfl, rfl⟩
theorem witness_OnlyTheEightTransfersReachTheBus :
    (∃ t, step (turnAt .A 0x100000000 (heard [true, true] [])) = .next t) ∧
      ∀ e ∈ (turnAt .A 0x100000000 (heard [true, true] [])).ghost.traceA, e.legalFor 0x68 := ⟨⟨_, rfl⟩, nofun⟩

theorem witness_OnlyPowerRegisterIsWritten :
    ∃ t, step (turnAt .A 0x100000000 (heard [true, false] [])) = .next t ∧ Memory.read t.sensor.reg 0x6B = some 0x80 :=
  ⟨_, rfl, rfl⟩

theorem witness_OrientComputesBothAngles : (sampled 1 (-2) 3).a.ax = some 1 ∧ (sampled 1 (-2) 3).a.ay = some (-2) ∧
    (sampled 1 (-2) 3).a.az = some 3 := by decide
/-- The two clauses of the axes meet at the sample (0, 0, 0), where they agree. -/
theorem witness_OrientIsExactOnTheAxes : (0 : S16) = 0 ∧ 0 < (1 : S16).toInt ∧ (0x8000 : S16).toInt < 0 ∧
    after (exec .orient (sampled 0 0 0)) (fun t => decide
      (t.a.roll = some 0x00000000 ∧ t.a.pitch = some 0x80000000)) = true := by decide
/-- Every choice of the free value is within 360 degrees of the exact angle. -/
theorem witness_AnglesStayInRange : Atan2Accurate 360 := by
  intro y x hy hx
  have h := atan2deg_allowed hy hx
  simp only [atan2Allowed, Bool.and_eq_true, decide_eq_true_iff] at h
  have h1 : realOf (atan2deg y x) ≤ ((180 : Int) : ℚ) := (realOf_le_iff 180).2 h.1.1.1.2
  have h2 : ((-180 : Int) : ℚ) ≤ realOf (atan2deg y x) := (le_realOf_iff (-180)).2 (by linarith [h.1.1.2])
  have h1' : ((realOf (atan2deg y x) : ℚ) : ℝ) ≤ 180 := by exact_mod_cast h1
  have h2' : (-180 : ℝ) ≤ ((realOf (atan2deg y x) : ℚ) : ℝ) := by exact_mod_cast h2
  have a1 := Complex.abs_arg_le_pi ⟨((realOf x : ℚ) : ℝ), ((realOf y : ℚ) : ℝ)⟩
  generalize Complex.arg _ = A at a1 ⊢
  have hp := Real.pi_pos
  have a2 : |A * 180 / Real.pi| ≤ 180 := by
    rw [abs_div, abs_mul, abs_of_pos hp, abs_of_pos (by norm_num : (0 : ℝ) < 180), div_le_iff₀ hp]
    nlinarith
  rw [abs_le] at a2 ⊢
  constructor <;> linarith [a2.1, a2.2]
theorem witness_AnglesStayInRange_signs : 0 < (1 : S16).toInt ∧ (-1 : S16).toInt < 0 := by decide
theorem witness_NumHasTheNamedProperties : isFinite 0x3F800000 = true ∧ isFinite 0xBF800000 = true ∧
    0 < realOf 0x3F800000 ∧ realOf 0xBF800000 < 0 :=
  ⟨by decide, by decide, realOf_pos_iff.2 (by decide), realOf_neg_iff.2 (by decide)⟩

theorem witness_EncodeQuantizesBothAngles : (angled 0x43340000 0xC1200000).a.roll = some 0x43340000 ∧
    (angled 0x43340000 0xC1200000).a.pitch = some 0xC1200000 ∧ quantize 0x43340000 = some 18000 ∧
    quantize 0xC1200000 = some (-1000) := by decide
theorem witness_QuantizerTruncatesTowardZero : quantize 0xC145851F = some (-1234) ∧ quantize 0x7F800000 = none := by
  decide
theorem witness_EncodeRefusesOutOfRange : quantize 0x4BE4E1C0 = none ∧ quantize 0x43340000 = some 18000 ∧
    (angled 0x43340000 0x4BE4E1C0).a.roll = some 0x43340000 ∧
    (angled 0x43340000 0x4BE4E1C0).a.pitch = some 0x4BE4E1C0 := by decide
theorem witness_QuantizerIsTotalOnAngles : isFinite 0xC3340000 = true ∧ |realOf 0xC3340000| ≤ 180 := by
  refine ⟨by decide, ?_⟩
  have h : |realOf 0xC3340000| ≤ ((180 : Nat) : ℚ) := magUnits_le_iff.2 (by decide)
  exact_mod_cast h
theorem witness_ArithmeticRoundsToNearestEven : isFinite 0x3E947AE1 = true ∧ isFinite Config.scale = true ∧
    isFinite (fMul 0x3E947AE1 Config.scale) = true ∧ realOf Config.scale ≠ 0 ∧
    isFinite (fDiv 0x3E947AE1 Config.scale) = true ∧ isFinite (fOfInt 2147483647) = true ∧ |(-16777215 : Int)| < 2 ^ 24 :=
  ⟨by decide, by decide, by decide, by rw [realOf_scale]; norm_num, by decide, by decide, by decide⟩
theorem witness_DecodeDequantizesBothWords : (received 18000 (-1)).b.rxRoll = some 18000 ∧
    (received 18000 (-1)).b.rxPitch = some (-1) := by decide
theorem witness_DequantizerIsTheRoundedQuotient : |(16777215 : S32).toInt| < 2 ^ 24 := by decide
theorem witness_RoundTripErrorIsBounded : quantize 0x43340000 = some 18000 ∧ |realOf 0x43340000| ≤ 180 ∧
    |(-18000 : S32).toInt| ≤ 18000 := by
  refine ⟨by decide, ?_, by decide⟩
  have h : |realOf 0x43340000| ≤ ((180 : Nat) : ℚ) := magUnits_le_iff.2 (by decide)
  exact_mod_cast h
/-- A sample without `ay`, then without `az`. -/
theorem witness_ReadBeforeWriteIsRefused :
    State.reset.a.ax = none ∧ State.reset.a.roll = none ∧ State.reset.a.wmRoll = none ∧ State.reset.a.wmPitch = none ∧
      State.reset.b.rxRoll = none ∧ State.reset.b.roll = none ∧
      ({ State.reset.a with ax := some 0 } : UnitA).ax.isSome ∧ ({ State.reset.a with ax := some 0 } : UnitA).ay = none ∧
      ({ State.reset.a with ax := some 0, ay := some 0 } : UnitA).ay.isSome ∧
      ({ State.reset.a with ax := some 0, ay := some 0 } : UnitA).az = none ∧
      ({ State.reset.a with roll := some 0 } : UnitA).roll.isSome ∧ ({ State.reset.a with roll := some 0 } : UnitA).pitch = none ∧
      ({ State.reset.b with rxRoll := some 0 } : UnitB).rxRoll.isSome ∧
      ({ State.reset.b with rxRoll := some 0 } : UnitB).rxPitch = none ∧
      ({ State.reset.b with roll := some 0 } : UnitB).roll.isSome ∧ ({ State.reset.b with roll := some 0 } : UnitB).pitch = none := by
  decide

theorem witness_PushAppendsTheSelectedWord : (messaged [1]).a.wmRoll = some 0xFFFFDCD8 ∧
    (messaged [1]).a.wmPitch = some 0x1194 ∧ (messaged [1]).ch.length < (messaged [1]).params.chDepth := by decide
theorem witness_PushiAppendsTheLiteralWord : (messaged [1]).ch.length < (messaged [1]).params.chDepth := by decide
theorem witness_PopTakesTheOldestWord : (messaged [1, 2]).ch = 1 :: [2] := by decide
theorem witness_HeldOperationsChangeNothing : (messaged [1, 2]).params.chDepth ≤ (messaged [1, 2]).ch.length ∧
    (messaged []).ch = [] := by decide

/-- The states below meet the invariant of every run. -/
theorem messaged_inv {ch : List Word} (h : ch.length ≤ 2) : Inv (messaged ch) where
  paramsOk := (by decide : Params.ok { Config.defaults with chDepth := 2 } = true)
  pcA := (by decide : 0 < Config.canonicalProgA.cmds.length)
  pcB := (by decide : 0 < Config.canonicalProgB.cmds.length)
  level := h
  history := rfl
  memory := ⟨List.Pairwise.nil, nofun⟩
  stall := ⟨nofun, nofun⟩
theorem witness_PopReturnsTheWordOfItsNumber : Inv (messaged [1]) ∧ (messaged [1]).ch ≠ [] :=
  ⟨messaged_inv (by decide), by decide⟩
theorem witness_PoppedPairIsTheNextTwoWords : Inv (messaged [1, 2]) ∧ 2 ≤ (messaged [1, 2]).ch.length :=
  ⟨messaged_inv (by decide), by decide⟩
theorem witness_HoldsExcludeEachOther : 1 ≤ State.reset.params.chDepth := by decide
/-- Both units at one command, with this message and this channel. -/
def messagedAt (u : UnitId) (a b : Cmd) (ch : List Word) : State := atCommands u a b (messaged ch)
theorem messagedAt_inv (u : UnitId) (a b : Cmd) {ch : List Word} (h : ch.length ≤ 2) : Inv (messagedAt u a b ch) where
  paramsOk := (by cases u <;> rfl : (messagedAt u a b ch).params.ok = true)
  pcA := Nat.one_pos
  pcB := Nat.one_pos
  level := h
  history := rfl
  memory := ⟨List.Pairwise.nil, nofun⟩
  stall := ⟨nofun, nofun⟩
theorem witness_TheOtherUnitLiftsTheHold_A : Inv (messagedAt .A 0x500000000 0x800000000 [1, 2]) ∧
    (messagedAt .A 0x500000000 0x800000000 [1, 2]).held .A = true := ⟨messagedAt_inv _ _ _ (by decide), by decide⟩
theorem witness_TheOtherUnitLiftsTheHold_B : Inv (messagedAt .B 0x500000000 0x800000001 []) ∧
    (messagedAt .B 0x500000000 0x800000001 []).held .B = true ∧
    (messagedAt .B 0x500000000 0x800000001 []).a.wmPitch.isSome := ⟨messagedAt_inv _ _ _ (by decide), by decide, by decide⟩
theorem witness_WaitAndDiagRecordTheirEvent :
    (∃ n, Instr.wait 250 = .wait n ∧ EventA.wait 250 = .wait n) ∧ Instr.diag = .diag ∧ EventA.diag = .diag :=
  ⟨⟨250, rfl, rfl⟩, rfl, rfl⟩
theorem witness_IndicatorShowsToggleParity : IndicatorParity State.reset ∧
    ∃ t, step (turnAt .B 0xA00000000 State.reset) = .next t ∧ t.b.ind = true := ⟨rfl, _, rfl, rfl⟩
theorem witness_RedrawHandsOverBothTexts : (shown 0x414570A4 0).b.roll = some 0x414570A4 ∧
    (shown 0x414570A4 0).b.pitch = some 0 := by decide
theorem witness_TextIsWithinHalfATenth : isFinite 0xFF7FFFFF = true := by decide

theorem witness_StepKeepsInvariant : Inv (messagedAt .A 0x500000000 0x800000000 [1]) ∧
    ∃ t, step (messagedAt .A 0x500000000 0x800000000 [1]) = .next t ∧ t.ch = [1, 0xFFFFDCD8] :=
  ⟨messagedAt_inv _ _ _ (by decide), _, rfl, rfl⟩
/-- The invariant of the canonical loops, half-way through a message. -/
def halfMessage : State :=
  let s := messaged [5]
  { s with
    a := { s.a with
      pc := 5, drv := .ready, ax := some 0, ay := some 0, az := some 0, roll := some 0, pitch := some 0 } }
theorem witness_CanonicalLoopsAreNeverRefused : CanonInv halfMessage where
  inv :=
    { messaged_inv (ch := [5]) (by decide) with
      pcA := (by decide : 5 < Config.canonicalProgA.cmds.length)
      stall := ⟨nofun, nofun⟩ }
  progA := rfl
  progB := rfl
  noFrame := rfl
  stA := nofun
  stB := rfl
  driver := ⟨nofun, nofun⟩
  sample := fun _ => ⟨rfl, rfl, rfl⟩
  angles := fun _ => ⟨0, 0, rfl, rfl, ⟨by decide, by decide, by decide⟩, ⟨by decide, by decide, by decide⟩⟩
  message := fun _ => ⟨rfl, rfl⟩
  decoded := fun h => absurd h (by decide)
  pushParity := rfl
  popParity := rfl
  popped1 := fun h => absurd h (by decide)
  popped2 := fun h => absurd h (by decide)
theorem witness_StepsStayInTheirOwnersGroup :
    (∃ t, step (messagedAt .A 0x500000000 0x800000000 [1]) = .next t) ∧
      (messagedAt .A 0x500000000 0x800000000 [1]).turnOf .A ∧
      (∃ t, step (messagedAt .B 0x500000000 0x800000000 [1]) = .next t) ∧
      (messagedAt .B 0x500000000 0x800000000 [1]).turnOf .B := ⟨⟨_, rfl⟩, ⟨rfl, rfl⟩, ⟨_, rfl⟩, ⟨rfl, rfl⟩⟩
/-- The same for both units, with another history. -/
def otherHistory (s : State) : State :=
  { s with ghost := { s.ghost with histPush := [9] ++ s.ghost.histPush, histPop := [9] ++ s.ghost.histPop } }
theorem witness_UnitsObserveOnlyTheChannel :
    (messagedAt .B 0x500000000 0x800000000 [1]).turnOf .B ∧
      (otherHistory (messagedAt .B 0x500000000 0x800000000 [1])).turnOf .B ∧
      (∃ t, step (messagedAt .B 0x500000000 0x800000000 [1]) = .next t) ∧
      (messagedAt .A 0x500000000 0x800000000 [1]).turnOf .A ∧
      (otherHistory (messagedAt .A 0x500000000 0x800000000 [2])).turnOf .A ∧
      (∃ t, step (messagedAt .A 0x500000000 0x800000000 [1]) = .next t) :=
  ⟨⟨rfl, rfl⟩, ⟨rfl, rfl⟩, ⟨_, rfl⟩, ⟨rfl, rfl⟩, ⟨rfl, rfl⟩, ⟨_, rfl⟩⟩
/-- Unit A done with a full channel before it, unit B done: the run is final, and so quiescent. -/
def finished : State :=
  let s := messagedAt .A 0x500000000 0x800000000 [1]
  { s with a := { s.a with st := .done }, b := { s.b with st := .done } }
theorem witness_QuiescentStatesAreTheTable : Inv finished ∧ finished.quiescent = true ∧ finished.inp.busReq = none :=
  ⟨{ messagedAt_inv .A 0x500000000 0x800000000 (ch := [1]) (by decide) with stall := ⟨nofun, nofun⟩ }, by decide, rfl⟩

/-- The cause code of the fault and the codes of refusals: the table of 60_exceptions.md R242. -/
theorem test_cause_codes : noFaultCode = 0 ∧ (HardwareFault.busError (.busR 6)).code = 1 ∧
    (Refusal.secondReset).code = none ∧ Refusal.label .readBeforeReset = some "ReadBeforeReset" := by decide

/-- The state after a step of unit `u`. -/
def stepOf (u : UnitId) (s : State) : State :=
  match step (s.offerTurn u) with
  | .next t => t
  | _ => s

/-- A run of one step of unit `u` and one of unit `v` from `s`, after which no unit has a step. -/
def shortRun (u v : UnitId) (s : State) : Nat → State
  | 0 => s
  | 1 => stepOf u s
  | _ + 2 => stepOf v (stepOf u s)

/-- Its schedule. -/
def shortSched (u v : UnitId) : Nat → UnitId
  | 0 => u
  | _ + 1 => v

/-- A run that ends in a state in which no unit has a step is weakly fair (20_memory.md R77). -/
theorem shortRun_fair (u v : UnitId) (s : State) (h : (stepOf v (stepOf u s)).quiescent = true) :
    WeaklyFair (shortSched u v) (shortRun u v s) := by
  intro w n he
  have hw : (stepOf v (stepOf u s)).enabled w = true := he (n + 2) (by omega)
  cases w <;> simp [State.quiescent, hw] at h

/-- Unit A held on a full channel before unit B pops. -/
def heldProducer : State := messagedAt .A 0x500000000 0x800000000 [1, 2]
/-- Unit B held on an empty channel before unit A pushes. -/
def heldConsumer : State := messagedAt .A 0x6FFFFDCD8 0x800000001 []

theorem heldProducer_run : IsRun (shortSched .B .A) (shortRun .B .A heldProducer) where
  noFrame := rfl
  steps n := match n with
    | 0 => rfl
    | 1 => rfl
    | _ + 2 => rfl
theorem heldConsumer_run : IsRun (shortSched .A .B) (shortRun .A .B heldConsumer) where
  noFrame := rfl
  steps n := match n with
    | 0 => rfl
    | 1 => rfl
    | _ + 2 => rfl
theorem heldProducer_fair : WeaklyFair (shortSched .B .A) (shortRun .B .A heldProducer) :=
  shortRun_fair .B .A _ (by decide)
theorem heldConsumer_fair : WeaklyFair (shortSched .A .B) (shortRun .A .B heldConsumer) :=
  shortRun_fair .A .B _ (by decide)

theorem witness_FairRunsStepEveryEnabledUnit : IsRun (shortSched .B .A) (shortRun .B .A heldProducer) ∧
    WeaklyFair (shortSched .B .A) (shortRun .B .A heldProducer) ∧
    (shortRun .B .A heldProducer 0).enabled .B = true ∧ (shortRun .B .A heldProducer 1).enabled .A = true :=
  ⟨heldProducer_run, heldProducer_fair, by decide, by decide⟩
theorem witness_FairRunsCompleteHeldOperations_A : IsRun (shortSched .B .A) (shortRun .B .A heldProducer) ∧
    WeaklyFair (shortSched .B .A) (shortRun .B .A heldProducer) ∧ Inv (shortRun .B .A heldProducer 0) ∧
    (shortRun .B .A heldProducer 0).held .A = true ∧ (shortRun .B .A heldProducer 0).a.st = .run ∧
    (shortRun .B .A heldProducer 1).ghost.histPop ≠ (shortRun .B .A heldProducer 0).ghost.histPop :=
  ⟨heldProducer_run, heldProducer_fair, messagedAt_inv _ _ _ (by decide), by decide, by decide, by decide⟩
theorem witness_FairRunsCompleteHeldOperations_B : IsRun (shortSched .A .B) (shortRun .A .B heldConsumer) ∧
    WeaklyFair (shortSched .A .B) (shortRun .A .B heldConsumer) ∧ Inv (shortRun .A .B heldConsumer 0) ∧
    (shortRun .A .B heldConsumer 0).held .B = true ∧ (shortRun .A .B heldConsumer 0).b.st = .run ∧
    (shortRun .A .B heldConsumer 1).ghost.histPush = (shortRun .A .B heldConsumer 0).ghost.histPush ++ [0xFFFFDCD8] :=
  ⟨heldConsumer_run, heldConsumer_fair, messagedAt_inv _ _ _ (by decide), by decide, by decide, by decide⟩

end Sys2Proof.Tests
end

section
/-! PROOFS. Each of the three operations packs a sign and a rounded quotient (`nearestEven_packF`), and that signed
quotient is the exact result of the operation (`quotReal_mul`, `quotReal_div`, `quotReal_int`). -/

namespace Sys2Proof.Machine

/-- 00_scope.md R9, `f_mul`. -/
theorem nearestEven_fMul {v w : F32} (hf : isFinite (fMul v w) = true) :
    NearestEven (realOf v * realOf w) (fMul v w) := by
  rw [← quotReal_mul v w]
  exact nearestEven_packF _ (Nat.two_pow_pos 149) hf

/-- 00_scope.md R9, `f_div`. -/
theorem nearestEven_fDiv {v w : F32} (hw : realOf w ≠ 0) (hf : isFinite (fDiv v w) = true) :
    NearestEven (realOf v / realOf w) (fDiv v w) := by
  rw [← quotReal_div v hw]
  exact nearestEven_packF _ (magUnits_ne_zero hw) hf

/-- 00_scope.md R9, `f_of_int`. -/
theorem nearestEven_fOfInt {i : Int} (hf : isFinite (fOfInt i) = true) : NearestEven i (fOfInt i) := by
  rw [← quotReal_int i]
  exact nearestEven_packF _ Nat.one_pos hf

/-- Settles O33: one rounding lemma at the exact quotient of each operation; below 2^24 the conversion drops no bit. -/
theorem arithmeticRoundsToNearestEven : Obligations.ArithmeticRoundsToNearestEven :=
  ⟨fun _ _ _ _ hf => nearestEven_fMul hf,
    fun _ _ _ _ hw hf => nearestEven_fDiv hw hf,
    fun _ hf => nearestEven_fOfInt hf,
    fun i hi => fOfInt_exact (by rw [Int.abs_eq_natAbs] at hi; omega)⟩

end Sys2Proof.Machine
end

section
/-! PROOFS. The state: its values at reset, the refused read of a register without a value, and who owns which part. -/

namespace Sys2Proof.Machine

/-! ## Reset -/

/-- Settles O1: every row of the table is a closed fact about `State.reset`. -/
theorem resetStateAsSpecified : Obligations.ResetStateAsSpecified := by
  unfold Obligations.ResetStateAsSpecified
  decide

/-- The two canonical programs have the shape of 30_encoding.md R110, so only the depth can be out of range. -/
theorem canonicalParams_ok {depth : Nat} (hd : 1 ≤ depth) (dev : BusAddr) (unused : Bool) :
    Params.ok { State.reset.params with chDepth := depth, sensorAddr := dev, readUnused := unused } = true := by
  have hA : Config.canonicalProgA.shapeOk = true := by decide
  have hB : Config.canonicalProgB.shapeOk = true := by decide
  simp [Params.ok, State.reset, Config.defaults, hd, hA, hB]

/-- The invariant of every run holds after reset with any parameters in range (42_channel.md R187). -/
theorem reset_inv {p : Params} (hp : p.ok = true) : Inv { State.reset with params := p } := by
  have ⟨⟨hd, hA⟩, hB⟩ : (1 ≤ p.chDepth ∧ p.progA.shapeOk = true) ∧ p.progB.shapeOk = true := by
    simpa [Params.ok] using hp
  have inside : ∀ {q : Program}, q.shapeOk = true → 0 < q.cmds.length := by
    intro q hq
    rw [Program.shapeOk, Bool.and_eq_true] at hq
    simpa [List.length_pos_iff] using hq.1
  exact {
    paramsOk := hp
    pcA := inside hA
    pcB := inside hB
    level := Nat.zero_le _
    history := rfl
    memory := ⟨List.Pairwise.nil, nofun⟩
    stall := ⟨nofun, nofun⟩ }

/-- Settles O3: both indices are 0 and nothing has been pushed or popped, so every clause about a later index has a
false premise. -/
theorem resetMeetsCanonicalInvariant : Obligations.ResetMeetsCanonicalInvariant := by
  intro depth dev unused hd
  exact {
    inv := reset_inv (canonicalParams_ok hd dev unused)
    progA := rfl
    progB := rfl
    noFrame := rfl
    stA := nofun
    stB := rfl
    driver := ⟨fun _ => rfl, fun _ => rfl⟩
    sample := nofun
    angles := nofun
    message := nofun
    decoded := nofun
    pushParity := rfl
    popParity := rfl
    popped1 := nofun
    popped2 := nofun }

/-! ## Reading a register -/

/-- A register without a value is refused, whatever comes after the read (10_state.md R21). -/
theorem withReg_of_none {w : Nat} {v : Option (BitVec w)} (r : DataReg) (h : v = none)
    (k : BitVec w → Host.Outcome State Fault Refusal) : withReg r v k = .refused (.readBeforeWrite r) := by
  rw [h, withReg]

/-- Past a register that holds a value the outcome is that of what comes after, here the same for every value. -/
theorem withReg_of_isSome {w : Nat} {v : Option (BitVec w)} (r : DataReg) (h : v.isSome)
    {k : BitVec w → Host.Outcome State Fault Refusal} {o : Host.Outcome State Fault Refusal} (hk : ∀ x, k x = o) :
    withReg r v k = o := by
  obtain ⟨x, rfl⟩ := Option.isSome_iff_exists.1 h
  exact hk x

/-- Settles O37: the reads of each operation in the order of its pseudocode (60_exceptions.md R251), those that succeed
and then the one that is refused. -/
theorem readBeforeWriteIsRefused : Obligations.ReadBeforeWriteIsRefused := fun _ =>
  ⟨fun x => withReg_of_none .ax x _,
    fun x y => withReg_of_isSome .ax x fun _ => withReg_of_none .ay y _,
    fun x y z => withReg_of_isSome .ax x fun _ => withReg_of_isSome .ay y fun _ => withReg_of_none .az z _,
    fun r => withReg_of_none .rollA r _,
    fun r p => withReg_of_isSome .rollA r fun _ => withReg_of_none .pitchA p _,
    fun r => withReg_of_none .wmRoll r _,
    fun p => withReg_of_none .wmPitch p _,
    fun r => withReg_of_none .rxRoll r _,
    fun r p => withReg_of_isSome .rxRoll r fun _ => withReg_of_none .rxPitch p _,
    fun r => withReg_of_none .rollB r _,
    fun r p => withReg_of_isSome .rollB r fun _ => withReg_of_none .pitchB p _⟩

/-! ## Owners (10_state.md R20, R28) -/

/-- What an operation of unit A leaves to unit B: an advance of `pc_A` adds nothing to the effect before it. -/
theorem StepsA.leaves_B {s t : State} (h : StepsA s t) :
    t.params = s.params ∧ t.b = s.b ∧ t.ghost.traceB = s.ghost.traceB ∧ t.ghost.histPop = s.ghost.histPop ∧
      ∃ ws, t.ch = s.ch ++ ws := by
  obtain ⟨m, e, rfl | ⟨rfl, -⟩⟩ := h
  all_goals exact ⟨e.params, e.b, e.traceB, e.histPop, e.push.imp fun _ hw => hw.1⟩

/-- What an operation of unit B leaves to unit A: an advance of `pc_B` adds nothing to the effect before it. -/
theorem StepsB.leaves_A {s t : State} (h : StepsB s t) :
    t.params = s.params ∧ t.a = s.a ∧ t.sensor = s.sensor ∧ t.ghost.traceA = s.ghost.traceA ∧
      t.ghost.histPush = s.ghost.histPush ∧ t.inp.acks = s.inp.acks ∧ t.inp.bytes = s.inp.bytes ∧
      ∃ ws, s.ch = ws ++ t.ch := by
  obtain ⟨m, e, rfl | rfl⟩ := h
  all_goals exact ⟨e.params, e.a, e.sensor, e.traceA, e.histPush, congrArg Inputs.acks e.inp,
    congrArg Inputs.bytes e.inp, e.pop.imp fun _ hw => hw.1⟩

/-- Settles O53: a step is a draw alone, an operation of unit A or one of unit B (`step_effects`), and each leaves the
other's group alone (`StepsA.leaves_B`, `StepsB.leaves_A`); neither is performed on the other's turn. -/
theorem stepsStayInTheirOwnersGroup : Obligations.StepsStayInTheirOwnersGroup := by
  intro s t h
  obtain ⟨m, hm, h⟩ := step_effects h
  generalize m.inp.turns = turns, m.inp.busReq = req at hm
  subst hm
  rcases h with rfl | ⟨hA, -, turnA⟩ | ⟨hB, -, -, turnB⟩
  · exact ⟨rfl, fun _ => ⟨rfl, rfl, rfl, [], (List.append_nil _).symm⟩,
      fun _ => ⟨rfl, rfl, rfl, rfl, rfl, rfl, [], rfl⟩⟩
  · obtain ⟨hp, hb⟩ := hA.leaves_B
    exact ⟨hp, fun _ => hb, fun hu => absurd ((turnA hu.1).symm.trans hu.2) nofun⟩
  · obtain ⟨hp, ha⟩ := hB.leaves_A
    exact ⟨hp, fun hu => absurd (hu.2.symm.trans turnB) nofun, fun _ => ha⟩

end Sys2Proof.Machine
end

section
/-! PROOFS. Memory (20_memory.md): what a unit observes of the other (R74), and the turns of a fair run (R77). A step on
a unit's turn is the step that a run offers it, so the lemmas of runs serve for both. -/

namespace Sys2Proof.Machine

/-! ## The step on a unit's turn (43_sequencers.md R211) -/

/-- A step draws its turn, so it is the step of a run after that draw. -/
theorem step_eq_offered {s : State} {u : UnitId} (h : s.turnOf u) : step s = step (s.dropTurn.offerTurn u) := by
  obtain ⟨hf, hu⟩ := h
  simp only [step, offerTurn_busReq, dropTurn_inp, hf, hu, offerTurn_nextTurn, offerTurn_dropTurn]

theorem step_offered_of_idle {s : State} {u : UnitId} (hf : s.inp.busReq = none) (hr : s.running u = false) :
    step (s.offerTurn u) = .next s := by
  simp [step, hf, stepUnit, hr]

theorem step_offered_of_nextOp {s : State} {u : UnitId} {i : Instr} (hf : s.inp.busReq = none)
    (hr : s.running u = true) (hi : s.nextOp u = some i) : step (s.offerTurn u) = exec i s := by
  obtain ⟨c, hc, hd⟩ := Option.bind_eq_some_iff.1 hi
  cases hd' : decodeAt u c with
  | error e => simp [hd', Except.toOption] at hd
  | ok j =>
    obtain rfl : j = i := by simpa [hd', Except.toOption] using hd
    simp [step, hf, stepUnit, hr, hc, hd']

/-- Where a unit runs alike and is at the same operation in two states, its two steps are both idle or both that
operation. -/
theorem step_cases_same {s₁ s₂ t₁ : State} {u : UnitId} (h₁ : s₁.turnOf u) (h₂ : s₂.turnOf u)
    (hr : s₁.dropTurn.running u = s₂.dropTurn.running u) (ho : s₁.dropTurn.nextOp u = s₂.dropTurn.nextOp u)
    (h : step s₁ = .next t₁) :
    (t₁ = s₁.dropTurn ∧ step s₂ = .next s₂.dropTurn) ∨
      ∃ i, i.port = some u ∧ exec i s₁.dropTurn = .next t₁ ∧ step s₂ = exec i s₂.dropTurn := by
  rw [step_eq_offered h₁] at h
  rw [step_eq_offered h₂]
  rcases offered_cases (s := s₁.dropTurn) h₁.1 h with ⟨hi, rfl⟩ | ⟨hrun, i, hi, he⟩
  · exact .inl ⟨rfl, step_offered_of_idle (s := s₂.dropTurn) h₂.1 (hr ▸ hi)⟩
  · exact .inr ⟨i, nextOp_port hi, he, step_offered_of_nextOp (s := s₂.dropTurn) h₂.1 (hr ▸ hrun) (ho ▸ hi)⟩

/-! ## What unit B observes (20_memory.md R74) -/

/-- Agreement on what unit B can see: the parameters, its group and the words of the channel. -/
structure AgreeB (s t : State) : Prop where
  params : s.params = t.params
  b : s.b = t.b
  ch : s.ch = t.ch

/-- `t₁` comes from `s₁` as `t₂` comes from `s₂`: they agree, with the same events emitted. -/
structure SameMoveB (s₁ s₂ t₁ t₂ : State) : Prop where
  agree : AgreeB t₁ t₂
  events : ∃ es, t₁.ghost.traceB = s₁.ghost.traceB ++ es ∧ t₂.ghost.traceB = s₂.ghost.traceB ++ es

theorem SameMoveB.refl {s₁ s₂ : State} (h : AgreeB s₁ s₂) : SameMoveB s₁ s₂ s₁ s₂ :=
  ⟨h, [], by simp, by simp⟩

theorem sameMoveB_advance {s₁ s₂ t₁ t₂ : State} (h : SameMoveB s₁ s₂ t₁ t₂) : SameMoveB s₁ s₂ t₁.advanceB t₂.advanceB :=
  ⟨⟨h.agree.params, by simp [h.agree.b, h.agree.params], h.agree.ch⟩, h.events⟩

theorem sameMoveB_regs (f : UnitB → UnitB) {s t : State} (h : AgreeB s t) :
    SameMoveB s t { s with b := f s.b } { t with b := f t.b } :=
  ⟨⟨h.params, by simp [h.b], h.ch⟩, [], by simp, by simp⟩

theorem sameMoveB_emit {s t : State} (h : AgreeB s t) (e : EventB) : SameMoveB s t (s.emitB e) (t.emitB e) :=
  ⟨⟨h.params, h.b, h.ch⟩, [e], rfl, rfl⟩

theorem execPop_same {s₁ s₂ t₁ : State} (sel : Sel) (h : AgreeB s₁ s₂)
    (he : execPop sel s₁ = .next t₁) : ∃ t₂, execPop sel s₂ = .next t₂ ∧ SameMoveB s₁ s₂ t₁ t₂ := by
  cases hc : s₁.ch with
  | nil =>
    cases (execPop_of_empty sel hc).symm.trans he
    exact ⟨s₂, execPop_of_empty sel (h.ch ▸ hc), SameMoveB.refl h⟩
  | cons w ws =>
    cases (execPop_of_cons sel hc).symm.trans he
    exact ⟨_, execPop_of_cons sel (h.ch ▸ hc), sameMoveB_advance
      ⟨⟨h.params, by simp [h.b], rfl⟩, [], by simp, by simp⟩⟩

/-- An operation of unit B depends on what unit B can see only. -/
theorem exec_sameB {i : Instr} {s₁ s₂ t₁ : State} (hi : i.port = some .B) (h : AgreeB s₁ s₂)
    (he : exec i s₁ = .next t₁) : ∃ t₂, exec i s₂ = .next t₂ ∧ SameMoveB s₁ s₂ t₁ t₂ := by
  cases i <;> simp only [Instr.port, Option.some.injEq, reduceCtorEq] at hi
  case pop sel => exact execPop_same sel h he
  case decode =>
    obtain ⟨r, p, hr, hq, rfl⟩ := execDecode_next he
    refine ⟨_, ?_, sameMoveB_advance
      (sameMoveB_regs (fun b => { b with roll := some (dequantize r), pitch := some (dequantize p) }) h)⟩
    simp [exec, execDecode, withReg, ← h.b, hr, hq]
  case toggle =>
    cases he
    exact ⟨_, rfl, sameMoveB_advance
      ⟨⟨h.params, by simp [h.b], h.ch⟩, _, rfl, by simp [h.b]⟩⟩
  case redraw =>
    obtain ⟨r, p, hr, hq, rfl⟩ := execRedraw_next he
    refine ⟨_, ?_, sameMoveB_advance (sameMoveB_emit h _)⟩
    simp [exec, execRedraw, withReg, ← h.b, hr, hq]

/-- Unit B's step depends on the parameters, its own group and the channel's words. -/
theorem step_sameB {s₁ s₂ t₁ : State} (h₁ : s₁.turnOf .B) (h₂ : s₂.turnOf .B) (h : AgreeB s₁ s₂)
    (hs : step s₁ = .next t₁) : ∃ t₂, step s₂ = .next t₂ ∧ SameMoveB s₁ s₂ t₁ t₂ := by
  have hd : AgreeB s₁.dropTurn s₂.dropTurn := ⟨h.params, h.b, h.ch⟩
  rcases step_cases_same h₁ h₂ (by simp [State.running, h.b]) (nextOp_B_congr h.params h.b) hs with
    ⟨rfl, h2⟩ | ⟨i, hi, he, h2⟩
  · exact ⟨_, h2, hd, (SameMoveB.refl hd).events⟩
  · obtain ⟨t₂, he₂, move⟩ := exec_sameB hi hd he
    exact ⟨t₂, h2.trans he₂, move.agree, move.events⟩

/-- Unit A's step depends on the parameters, its own group, the sensor and its answers, and the channel's level. -/
theorem step_sameA {s₁ s₂ t₁ : State} (h₁ : s₁.turnOf .A) (h₂ : s₂.turnOf .A) (h : AgreeA s₁ s₂)
    (hl : s₁.ch.length = s₂.ch.length) (hs : step s₁ = .next t₁) :
    ∃ t₂, step s₂ = .next t₂ ∧ SameMoveA s₁ s₂ t₁ t₂ := by
  have hd : AgreeA s₁.dropTurn s₂.dropTurn := ⟨h.params, h.a, h.sensor, h.acks, h.bytes⟩
  rcases step_cases_same h₁ h₂ (by simp [State.running, h.a]) (nextOp_A_congr h.params h.a) hs with
    ⟨rfl, h2⟩ | ⟨i, hi, he, h2⟩
  · exact ⟨_, h2, hd, (SameMoveA.refl hd).events, (SameMoveA.refl hd).words⟩
  · obtain ⟨t₂, he₂, move⟩ := exec_sameA hi hd hl he
    exact ⟨t₂, h2.trans he₂, move.agree, move.events, move.words⟩

/-- Settles O54: the two units' steps, each from the states that agree on what the unit can see. -/
theorem unitsObserveOnlyTheChannel : Obligations.UnitsObserveOnlyTheChannel := by
  refine ⟨fun s₁ s₂ t₁ h₁ h₂ hp hb hc hs => ?_, fun s₁ s₂ t₁ h₁ h₂ hp ha hz hk hy hl hs => ?_⟩
  · obtain ⟨t₂, hs₂, move⟩ := step_sameB h₁ h₂ ⟨hp, hb, hc⟩ hs
    exact ⟨t₂, hs₂, move.agree.b.symm, move.agree.ch.symm, move.events⟩
  · obtain ⟨t₂, hs₂, move⟩ := step_sameA h₁ h₂ ⟨hp, ha, hz, hk, hy⟩ hl hs
    exact ⟨t₂, hs₂, move.agree.a.symm, move.agree.sensor.symm, move.events, move.words⟩

/-! ## Fair runs (20_memory.md R77) -/

theorem unit_eq_B_of_ne_A {u : UnitId} (h : u ≠ .A) : u = .B := by
  cases u with
  | A => exact absurd rfl h
  | B => rfl

theorem unit_eq_A_of_ne_B {u : UnitId} (h : u ≠ .B) : u = .A := by
  cases u with
  | A => rfl
  | B => exact absurd rfl h

/-- Between its turns nothing happens to a unit: an enabled one stays enabled, at the same operation. -/
theorem IsRun.keepsEnabled {sched : Nat → UnitId} {σ : Nat → State} (h : IsRun sched σ) {u : UnitId} {n k : Nat}
    (hno : ∀ j, n ≤ j → j < n + k → sched j ≠ u) (he : (σ n).enabled u = true) :
    (σ (n + k)).enabled u = true ∧ (σ (n + k)).nextOp u = (σ n).nextOp u ∧
      (u = .A → (σ (n + k)).a = (σ n).a) ∧ (u = .B → (σ (n + k)).b = (σ n).b) := by
  cases u with
  | A =>
    obtain ⟨ha, hp, -, hen⟩ := h.keepsA k fun j hj hk => unit_eq_B_of_ne_A (hno j hj hk)
    exact ⟨hen he, nextOp_A_congr hp ha, fun _ => ha, nofun⟩
  | B =>
    obtain ⟨hb, hp, -, -, hen⟩ := h.keepsB k fun j hj hk => unit_eq_A_of_ne_B (hno j hj hk)
    exact ⟨hen he, nextOp_B_congr hp hb, nofun, fun _ => hb⟩

/-- An enabled unit has a first turn in a fair run: with no turn it would stay enabled for ever, and so be stepped. -/
theorem IsRun.exists_first_turn {sched : Nat → UnitId} {σ : Nat → State} (h : IsRun sched σ)
    (fair : WeaklyFair sched σ) {u : UnitId} {n : Nat} (he : (σ n).enabled u = true) :
    ∃ k, sched (n + k) = u ∧ ∀ j, n ≤ j → j < n + k → sched j ≠ u := by
  have turn : ∃ k, sched (n + k) = u := by
    by_contra none
    have never : ∀ j, n ≤ j → sched j ≠ u := fun j hj hu => none ⟨j - n, by rwa [Nat.add_sub_cancel' hj]⟩
    obtain ⟨m, hm, hu⟩ := fair u n fun m hm => by
      obtain ⟨k, rfl⟩ := Nat.exists_eq_add_of_le hm
      exact (h.keepsEnabled (fun j hj _ => never j hj) he).1
    exact never m hm hu
  refine ⟨Nat.find turn, Nat.find_spec turn, fun j hj hk hu => Nat.find_min turn (m := j - n) (by omega) ?_⟩
  rwa [Nat.add_sub_cancel' hj]

/-- Settles O57: at the first turn of the unit (`IsRun.exists_first_turn`) nothing has happened to it
(`IsRun.keepsEnabled`), and the step of a unit that runs is its next operation (`offered_cases`). -/
theorem fairRunsStepEveryEnabledUnit : Obligations.FairRunsStepEveryEnabledUnit := by
  intro sched σ h fair u n he
  obtain ⟨k, hu, first⟩ := h.exists_first_turn fair he
  obtain ⟨hen, hop, ha, hb⟩ := h.keepsEnabled first he
  have hs := h.steps (n + k)
  rw [hu] at hs
  rcases offered_cases (h.noFrameAt (n + k)) hs with ⟨hr, -⟩ | ⟨-, i, hi, hx⟩
  · simp [State.enabled, hr] at hen
  · exact ⟨n + k, i, Nat.le_add_right n k, hu, hen, hop ▸ hi, hx, ha, hb⟩

end Sys2Proof.Machine
end

section
/-! PROOFS. Encodings (30_encoding.md): the decoder against the encoder and the table of R100, and the transfers of R101
on the bus. A row of R100 fixes the code and all but the `k` low bits of the operand, so decoder and table meet in
`arg >>> k = 0`. -/

namespace Sys2Proof

/-! ## The decoder and the encoder -/

/-- Settles O4: each word is a closed input of the decoder. -/
theorem specWordsDecode : Obligations.SpecWordsDecode := by
  unfold Obligations.SpecWordsDecode
  decide

theorem decodeCmd_make (op : BitVec 4) (arg : Word) : decodeCmd (Cmd.make op arg) = decodeOp op arg := by
  rw [decodeCmd, make_op, make_arg]

/-- Settles O5: an operation without operand is one word; an operand comes back by `decodeCmd_make`, with `sel` by
`decodeSel_arg`; a transfer comes back with the address it is encoded at. -/
theorem decodeInvertsEncode : Obligations.DecodeInvertsEncode := by
  intro i
  cases i with
  | push sel => exact (decodeCmd_make 5 sel.arg).trans (decodeSel_arg sel .push)
  | pop sel => exact (decodeCmd_make 8 sel.arg).trans (decodeSel_arg sel .pop)
  | pushi imm => exact decodeCmd_make 6 imm
  | wait n => exact decodeCmd_make 7 n
  | sreset | sread | orient | encode | decode | toggle | redraw | diag => rfl
  | bwPwrReset | bwPwrRun | bwPtrAccel | brAccel | bwPtrGyro | brGyro | bwPtrTemp | brTemp => rfl

theorem encode_of_decodeCmd {c : Cmd} {i : Instr} (h : decodeCmd c = .ok i) : encode i = .cmd c := by
  rw [decodeOp_ok h, make_fields]

/-- Settles O6: the decoder inspects both fields of the word (`decodeOp_ok`), and they are the whole word. -/
theorem encodeInvertsDecode : Obligations.EncodeInvertsDecode := fun _ _ => encode_of_decodeCmd

/-- The decoder answers an operation at its encoding and nowhere else. -/
theorem decodeCmd_ok_iff {c : Cmd} {i : Instr} : decodeCmd c = .ok i ↔ encode i = .cmd c := by
  refine ⟨encode_of_decodeCmd, fun h => ?_⟩
  have hd := decodeInvertsEncode i
  rwa [h] at hd

/-! ## The rows of the operation map (30_encoding.md R100) -/

/-- The operation map as ports, codes and the number of operand bits that a mask leaves free. -/
def operationMap : List (UnitId × BitVec 4 × Nat) :=
  [(.A, 0x1, 0), (.A, 0x2, 0), (.A, 0x3, 0), (.A, 0x4, 0), (.A, 0x5, 1), (.A, 0x6, 32), (.A, 0x7, 32), (.B, 0x8, 1),
    (.B, 0x9, 0), (.B, 0xA, 0), (.B, 0xB, 0), (.A, 0xC, 0)]

theorem commandRows_eq_map : commandRows =
    operationMap.map fun (u, op, k) => ⟨u, Cmd.make op 0, BitVec.allOnes 36 <<< k⟩ := rfl

theorem operationMap_freeBits : ∀ e ∈ operationMap, e.2.2 = 0 ∨ e.2.2 = 1 ∨ e.2.2 = 32 := by decide

/-- A mask that leaves out `k` low bits of the operand checks the code and the rest of the operand. -/
theorem and_mask_eq_make_iff {k : Nat} (hk : k = 0 ∨ k = 1 ∨ k = 32) (op : BitVec 4) (c : Cmd) :
    c &&& (BitVec.allOnes 36 <<< k) = Cmd.make op 0 ↔ c.op = op ∧ c.arg >>> k = 0 := by
  have hc := c.isLt
  simp only [and_mask, ← BitVec.toNat_inj, make_toNat, op_toNat, arg_toNat, BitVec.toNat_shiftLeft,
    BitVec.toNat_ushiftRight, Nat.shiftLeft_eq, Nat.shiftRight_eq_div_pow, BitVec.ofNat_eq_ofNat, BitVec.toNat_ofNat]
  rcases hk with rfl | rfl | rfl <;> omega

/-- Agreement with a row of the table, in the fields of the command. -/
theorem exists_row_iff {u : UnitId} {c : Cmd} :
    (∃ r ∈ commandRows, r.port = u ∧ c &&& r.mask = r.bits) ↔
      ∃ k, (u, c.op, k) ∈ operationMap ∧ c.arg >>> k = 0 := by
  rw [commandRows_eq_map]
  constructor
  · intro ⟨r, hr, hu, hm⟩
    obtain ⟨⟨v, op, k⟩, he, rfl⟩ := List.mem_map.1 hr
    obtain ⟨rfl, ha⟩ := (and_mask_eq_make_iff (operationMap_freeBits _ he) op c).1 hm
    exact ⟨k, hu ▸ he, ha⟩
  · intro ⟨k, he, ha⟩
    exact ⟨_, List.mem_map_of_mem he, rfl, (and_mask_eq_make_iff (operationMap_freeBits _ he) c.op c).2 ⟨rfl, ha⟩⟩

theorem Sel.arg_ushiftRight (sel : Sel) : sel.arg >>> 1 = 0 := by
  cases sel <;> rfl

theorem exists_sel_of_ushiftRight {arg : Word} (h : arg >>> 1 = 0) : ∃ sel : Sel, sel.arg = arg := by
  have lt : arg.toNat < 2 := by simpa [Nat.shiftRight_eq_div_pow] using congrArg BitVec.toNat h
  obtain h0 | h1 : arg.toNat = 0 ∨ arg.toNat = 1 := by omega
  · exact ⟨.roll, BitVec.eq_of_toNat_eq h0.symm⟩
  · exact ⟨.pitch, BitVec.eq_of_toNat_eq h1.symm⟩

/-- Every operand that fits the free bits of a row makes the encoding of an operation of its port. -/
def RowEncodes (e : UnitId × BitVec 4 × Nat) : Prop :=
  ∀ arg : Word, arg >>> e.2.2 = 0 → ∃ i, encode i = .cmd (Cmd.make e.2.1 arg) ∧ i.port = some e.1

theorem rowEncodes_plain {u : UnitId} {op : BitVec 4} (i : Instr) (he : encode i = .cmd (Cmd.make op 0))
    (hp : i.port = some u) : RowEncodes (u, op, 0) := by
  intro arg h
  obtain rfl : arg = 0 := by simpa using h
  exact ⟨i, he, hp⟩

theorem rowEncodes_sel {u : UnitId} {op : BitVec 4} (mk : Sel → Instr)
    (he : ∀ sel, encode (mk sel) = .cmd (Cmd.make op sel.arg)) (hp : ∀ sel, (mk sel).port = some u) :
    RowEncodes (u, op, 1) := by
  intro arg h
  obtain ⟨sel, rfl⟩ := exists_sel_of_ushiftRight h
  exact ⟨mk sel, he sel, hp sel⟩

theorem rowEncodes_word {u : UnitId} {op : BitVec 4} (mk : Word → Instr)
    (he : ∀ w, encode (mk w) = .cmd (Cmd.make op w)) (hp : ∀ w, (mk w).port = some u) : RowEncodes (u, op, 32) :=
  fun arg _ => ⟨mk arg, he arg, hp arg⟩

theorem operationMap_encodes : ∀ e ∈ operationMap, RowEncodes e := by
  simp only [operationMap, List.forall_mem_cons]
  exact ⟨rowEncodes_plain .sreset rfl rfl, rowEncodes_plain .sread rfl rfl, rowEncodes_plain .orient rfl rfl,
    rowEncodes_plain .encode rfl rfl, rowEncodes_sel .push (fun _ => rfl) fun _ => rfl,
    rowEncodes_word .pushi (fun _ => rfl) fun _ => rfl, rowEncodes_word .wait (fun _ => rfl) fun _ => rfl,
    rowEncodes_sel .pop (fun _ => rfl) fun _ => rfl, rowEncodes_plain .decode rfl rfl,
    rowEncodes_plain .toggle rfl rfl, rowEncodes_plain .redraw rfl rfl, rowEncodes_plain .diag rfl rfl, nofun⟩

/-- The encoding of an operation of a port fits a row of the map. -/
theorem encode_fits_map {i : Instr} {u : UnitId} {c : Cmd} (he : encode i = .cmd c) (hp : i.port = some u) :
    ∃ k, (u, c.op, k) ∈ operationMap ∧ c.arg >>> k = 0 := by
  cases i with
  | push sel | pop sel =>
    cases he; cases hp
    exact ⟨1, by simp [operationMap], by simpa using sel.arg_ushiftRight⟩
  | pushi w | wait w =>
    cases he; cases hp
    exact ⟨32, by simp [operationMap], BitVec.ushiftRight_eq_zero le_rfl⟩
  | sreset | sread | orient | encode | decode | toggle | redraw | diag =>
    cases he; cases hp
    exact ⟨0, by decide, by decide⟩
  | bwPwrReset | bwPwrRun | bwPtrAccel | brAccel | bwPtrGyro | brGyro | bwPtrTemp | brTemp => cases hp

/-- Settles O7: a command is legal at a port exactly when it is the encoding of an operation of that port, and those
encodings are the rows. -/
theorem legalCommandsAreTheTableRows : Obligations.LegalCommandsAreTheTableRows := by
  intro u c
  simp only [exists_row_iff, decodeAt_ok_iff, decodeCmd_ok_iff]
  constructor
  · rintro ⟨i, he, hp⟩
    exact encode_fits_map he hp
  · rintro ⟨k, hm, ha⟩
    simpa only [make_fields] using operationMap_encodes _ hm c.arg ha

/-! ## Illegal commands (30_encoding.md R102 to R104) -/

theorem decodeAt_make_of_error {u : UnitId} {op : BitVec 4} {arg : Word} {e : Illegal}
    (h : decodeOp op arg = .error e) : decodeAt u (Cmd.make op arg) = .error e := by
  rw [decodeAt, decodeCmd_make, h]

theorem decodePlain_of_ne {arg : Word} (i : Instr) (h : arg ≠ 0) : decodePlain arg i = .error .reservedArg :=
  if_neg h

theorem decodeSel_of_ushiftRight_ne {arg : Word} (mk : Sel → Instr) (h : arg >>> 1 ≠ 0) :
    decodeSel arg mk = .error .reservedArg := by
  have h0 : arg ≠ 0 := by rintro rfl; exact h Sel.roll.arg_ushiftRight
  have h1 : arg ≠ 1 := by rintro rfl; exact h Sel.pitch.arg_ushiftRight
  rw [decodeSel, if_neg h0, if_neg h1]

theorem decodeOp_of_reserved {op : BitVec 4} (arg : Word) (h : op = 0x0 ∨ op = 0xD ∨ op = 0xE ∨ op = 0xF) :
    decodeOp op arg = .error .reservedOp := by
  rcases h with rfl | rfl | rfl | rfl <;> rfl

theorem decodeOp_of_plain_arg_ne {op : BitVec 4} {arg : Word} (h : arg ≠ 0)
    (ho : op = 0x1 ∨ op = 0x2 ∨ op = 0x3 ∨ op = 0x4 ∨ op = 0x9 ∨ op = 0xA ∨ op = 0xB ∨ op = 0xC) :
    decodeOp op arg = .error .reservedArg := by
  rcases ho with rfl | rfl | rfl | rfl | rfl | rfl | rfl | rfl <;> exact decodePlain_of_ne _ h

theorem decodeOp_of_sel_arg_ne {op : BitVec 4} {arg : Word} (h : arg >>> 1 ≠ 0) (ho : op = 0x5 ∨ op = 0x8) :
    decodeOp op arg = .error .reservedArg := by
  rcases ho with rfl | rfl <;> exact decodeSel_of_ushiftRight_ne _ h

theorem decodeAt_of_port_ne {u : UnitId} {c : Cmd} {i : Instr} (h : decodeCmd c = .ok i) (hp : i.port ≠ some u) :
    decodeAt u c = .error .wrongPort := by
  simp [decodeAt, h, Instr.legalAt, hp]

end Sys2Proof

namespace Sys2Proof.Machine

@[simp] theorem dropTurn_running (s : State) (u : UnitId) : s.dropTurn.running u = s.running u := by
  cases u <;> rfl

@[simp] theorem dropTurn_fetch (s : State) (u : UnitId) : s.dropTurn.fetch u = s.fetch u := by
  cases u <;> rfl

theorem step_of_illegal {s : State} {u : UnitId} {c : Cmd} {e : Illegal} (h : s.turnOf u) (hr : s.running u = true)
    (hc : s.fetch u = some c) (hd : decodeAt u c = .error e) : step s = .refused (.illegalCommand u c) := by
  obtain ⟨hf, rfl⟩ := h
  simp [step, hf, stepUnit, hr, hc, hd]

/-- Settles O8: the reserved codes and operands by the code's own row of `decodeOp`, the other port by the port of the
decoded operation, and the step at any of them. -/
theorem illegalCommandsAreRefused : Obligations.IllegalCommandsAreRefused := by
  refine ⟨fun u arg op ho => decodeAt_make_of_error (decodeOp_of_reserved arg ho),
    fun u arg op h => decodeAt_make_of_error ?_, fun u c i => decodeAt_of_port_ne, fun s u c e => step_of_illegal⟩
  rcases h with ⟨ho, ha⟩ | ⟨ho, ha⟩
  · exact decodeOp_of_plain_arg_ne ha ho
  · exact decodeOp_of_sel_arg_ne ha ho

/-! ## A transfer by itself (30_encoding.md R101; log 13) -/

/-- Settles O10: unit A runs and the transfer decodes, the two tests of `stepFrame`. -/
theorem stepRunsTheLoneTransfer : Obligations.StepRunsTheLoneTransfer := by
  intro s f i hf hr hd
  simp [step, hf, stepFrame, State.running, hr, hd]

/-- Settles O17: an acknowledged write is `runWrite_of_ack`; the two-byte ones store in `PWR_MGMT` (`read_write`), the
one-byte ones only set the pointer. -/
theorem busWritesReachTheSensor : Obligations.BusWritesReachTheSensor := by
  intro s h
  constructor
  · rintro i v m (e | e) <;> cases e
    all_goals exact ⟨_, congrArg Host.Outcome.next (runWrite_of_ack _ _ h), rfl, rfl, fun x => read_write _ _ x _, rfl⟩
  · rintro i p (e | e | e) <;> cases e
    all_goals exact ⟨_, congrArg Host.Outcome.next (runWrite_of_ack _ _ h), fun _ => rfl, rfl⟩

/-! ## Samples (30_encoding.md R90 to R92) -/

theorem assemble_eq_bigEndian (hi lo : Byte) : assemble hi lo = bigEndian hi lo := by
  apply BitVec.eq_of_toNat_eq
  have h := (assemble hi lo).isLt
  rw [assemble_toNat] at h ⊢
  exact (Nat.mod_eq_of_lt h).symm

/-- Settles O23: the pattern is the number `assemble_toNat` gives, and its sign bit is the test against 2^15. -/
theorem sampleAssemblyIsBigEndianSigned : Obligations.SampleAssemblyIsBigEndianSigned := by
  refine fun hi lo => ⟨assemble_eq_bigEndian hi lo, ?_⟩
  rw [BitVec.toInt_eq_toNat_cond, assemble_toNat]
  split_ifs <;> omega

/-- Settles O18: an acknowledged read is `runRead_of_ack`; its bytes are stored high byte first, and from the start of
the group on they are the ones it carries (`sensorBytes_accel`, `sensorBytes_gyro`, `sensorBytes_temp`). -/
theorem busReadsFillTheGroup : Obligations.BusReadsFillTheGroup := by
  simp only [Obligations.BusReadsFillTheGroup, ← assemble_eq_bigEndian]
  refine ⟨fun s b0 b1 b2 b3 b4 b5 h => ?accel, fun s b0 b1 b2 b3 b4 b5 h => ?gyro, fun s b0 b1 h => ?temp⟩
  case accel =>
    refine ⟨_, _, _, _, _, _, _, congrArg Host.Outcome.next (runRead_of_ack _ storeAccel h), rfl, fun hp => ?_,
      fun _ => rfl, rfl⟩
    rw [hp]
    exact sensorBytes_accel ..
  case gyro =>
    refine ⟨_, _, _, _, _, _, _, congrArg Host.Outcome.next (runRead_of_ack _ storeGyro h), rfl, fun hp => ?_,
      fun _ => rfl, rfl⟩
    rw [hp]
    exact sensorBytes_gyro ..
  case temp =>
    refine ⟨_, _, _, congrArg Host.Outcome.next (runRead_of_ack _ storeTemp h), rfl, fun hp => ?_, fun _ => rfl, rfl⟩
    rw [hp]
    exact sensorBytes_temp ..

/-! ## What a step does on the bus (30_encoding.md R101, R106) -/

/-- What can happen on the bus between `s` and `t`: every transfer added to the events is legal, and no data byte but the
two values of `PWR_MGMT` is written. -/
structure BusEffect (s t : State) : Prop where
  events : ∃ es, t.ghost.traceA = s.ghost.traceA ++ es ∧ ∀ e ∈ es, e.legalFor s.params.sensorAddr
  power : ∀ x, Memory.read t.sensor.reg x = Memory.read s.sensor.reg x ∨
    x = 0x6B ∧ (Memory.read t.sensor.reg x = some 0x80 ∨ Memory.read t.sensor.reg x = some 0x00)

theorem BusEffect.of_unchanged {s t : State} (ht : t.ghost.traceA = s.ghost.traceA) (hz : t.sensor = s.sensor) :
    BusEffect s t where
  events := ⟨[], ht.trans (List.append_nil _).symm, nofun⟩
  power x := .inl (by rw [hz])

/-- An advance of `pc_A` adds nothing to the effect before it. -/
theorem StepsA.busEffect {s t : State} (h : StepsA s t) : BusEffect s t := by
  obtain ⟨m, e, rfl | ⟨rfl, -⟩⟩ := h
  all_goals exact ⟨e.events, e.power⟩

/-- Only an operation of unit A does anything on the bus. -/
theorem step_busEffect {s t : State} (h : step s = .next t) : BusEffect s t := by
  obtain ⟨m, hm, h⟩ := step_effects h
  generalize m.inp.turns = turns, m.inp.busReq = req at hm
  subst hm
  rcases h with rfl | ⟨hA, -⟩ | ⟨hB, -⟩
  · exact .of_unchanged rfl rfl
  · exact ⟨hA.busEffect.events, hA.busEffect.power⟩
  · obtain ⟨-, -, hz, ht, -⟩ := hB.leaves_A
    exact .of_unchanged ht hz

/-- Settles O21: the events a step adds are legal (`step_busEffect`), and the address they are legal for stays. -/
theorem onlyTheEightTransfersReachTheBus : Obligations.OnlyTheEightTransfersReachTheBus := by
  intro s t h legal
  obtain ⟨es, ht, new⟩ := (step_busEffect h).events
  rw [(stepsStayInTheirOwnersGroup s t h).1, ht]
  exact fun e he => (List.mem_append.1 he).elim (legal e) (new e)

/-- Settles O22: the only data bytes a step writes go to `PWR_MGMT` (`step_busEffect`). -/
theorem onlyPowerRegisterIsWritten : Obligations.OnlyPowerRegisterIsWritten := fun _ _ h => (step_busEffect h).power

end Sys2Proof.Machine
end

section
/-! PROOFS. The sensor driver (40_sensor_driver.md). `SREAD` is a sequence of groups of two transfers each; a group
is acknowledged (`readGroup_of_ack`) or stalls at one of its transfers (`readGroup_of_nack`), and `SREAD` ends with the first
group that stalls. -/

namespace Sys2Proof.Machine

/-- Settles O16: the precondition of each operation is the first thing it tests. -/
theorem driverMisuseIsRefused : Obligations.DriverMisuseIsRefused := by
  refine fun s => ⟨fun h => ?sread, fun h => ?sreset⟩
  case sread => simp [exec, execSread, h]
  case sreset => simp [exec, execSreset, h]

theorem exec_sreset_of_uninit {s : State} (h : s.a.drv = .uninit) :
    exec .sreset s = .next ((sresetTransfers s).finish fun _ t => sresetDone t) := by
  simp [exec, execSreset, h]

theorem exec_sread_of_ready {s : State} (h : s.a.drv = .ready) :
    exec .sread s = .next ((sreadTransfers s).finish fun _ t => t.advanceA) := by
  simp [exec, execSread, h]

/-! ## `SRESET` (40_sensor_driver.md R127) -/

/-- The state in which `SRESET` issues its second write: the first is acknowledged and the hold time is over. -/
def resetHeld (s : State) : State :=
  { s with
    sensor := sensorWrite [Config.regPwr, Config.pwrResetVal] s.sensor
    ghost := { s.ghost with
      traceA := s.ghost.traceA ++
        [.busW s.params.sensorAddr [Config.regPwr, Config.pwrResetVal] false, .wait Config.tResetHold] }
    inp := { s.inp with acks := s.inp.acks.drop 1 } }

theorem sresetTransfers_of_ack {s : State} (h : s.ackAt 0 = true) :
    sresetTransfers s = memWrite Config.regPwr Config.pwrRunVal (resetHeld s) := by
  simp only [sresetTransfers, memWrite, busWrite_of_ack _ _ _ h, BusOutcome.andThen, State.emitA, List.append_assoc]
  rfl

theorem sresetTransfers_of_nack {s : State} (h : s.ackAt 0 = false) :
    sresetTransfers s =
      .stalled { s with
        a := { s.a with busFault := true, st := .stalled }
        ghost := { s.ghost with
          traceA := s.ghost.traceA ++ [.busW s.params.sensorAddr [Config.regPwr, Config.pwrResetVal] false] }
        inp := { s.inp with acks := s.inp.acks.drop 1 } } := by
  simp only [sresetTransfers, memWrite, busWrite_of_nack _ _ _ h, BusOutcome.andThen]

theorem read_resetHeld (s : State) (x : Nat) :
    Memory.read (resetHeld s).sensor.reg x = if x = 0x6B then some 0x80 else Memory.read s.sensor.reg x :=
  read_write _ _ x _

/-- Settles O11: the second write is acknowledged in `resetHeld s`, and what it stores hides what the first one stored. -/
theorem sresetResetsTheSensor : Obligations.SresetResetsTheSensor := by
  intro s hd h0 h1
  have second : (resetHeld s).nextAck = true := h1
  rw [exec_sreset_of_uninit hd, sresetTransfers_of_ack h0, memWrite, busWrite_of_ack _ _ _ second]
  refine ⟨_, rfl, advanceA_advanced _ _ rfl rfl rfl, rfl, rfl, fun x => ?registers, ?frame⟩
  case registers =>
    refine (read_write (resetHeld s).sensor.reg 0x6B x 0x00).trans ?_
    rw [read_resetHeld]
    split_ifs <;> rfl
  case frame =>
    simp only [BusOutcome.finish, sresetDone, resetHeld, State.emitA, List.append_assoc]
    rfl

/-- Settles O12: the write that fails is the last transfer, and a second one finds the sensor as the first left it. -/
theorem sresetFaultStallsUnitA : Obligations.SresetFaultStallsUnitA := by
  refine ⟨fun s hd h0 => ?first, fun s hd h0 h1 => ?second⟩
  case first =>
    rw [exec_sreset_of_uninit hd, sresetTransfers_of_nack h0]
    exact ⟨_, rfl, rfl⟩
  case second =>
    have second : (resetHeld s).nextAck = false := h1
    rw [exec_sreset_of_uninit hd, sresetTransfers_of_ack h0, memWrite, busWrite_of_nack _ _ _ second]
    refine ⟨_, rfl, rfl, rfl, read_resetHeld s, ?_⟩
    simp only [BusOutcome.finish, resetHeld, List.append_assoc]
    rfl

/-! ## One group of `SREAD` (40_sensor_driver.md R129 to R132) -/

/-- The state once the bus has shown the transfers `es`, with one answer for each, and the sensor has sent `n` bytes and
left its pointer at `p`. -/
def State.onBus (s : State) (es : List EventA) (p : Byte) (n : Nat) : State :=
  { s with
    sensor := { s.sensor with ptr := p }
    ghost := { s.ghost with traceA := s.ghost.traceA ++ es }
    inp := { s.inp with acks := s.inp.acks.drop es.length, bytes := s.inp.bytes.drop n } }

/-- The state after an acknowledged group of `n` bytes at `addr`. -/
def State.afterGroup (s : State) (addr : Byte) (n : Nat) (store : List Byte → State → State) : State :=
  store (s.takeBytes n)
    (s.onBus [.busW s.params.sensorAddr [addr] true, .busR s.params.sensorAddr n (some (s.takeBytes n))]
      (addr + BitVec.ofNat 8 n) n)

/-- What the bus shows of a group whose transfer `j` is the first not acknowledged (40_sensor_driver.md R121, R122). -/
def faultEvents (dev : BusAddr) (addr : Byte) (n : Nat) : (j : Nat) → List EventA
  | 0 => [.busW dev [addr] true]
  | _ => [.busW dev [addr] true, .busR dev n none]

/-- The stall at transfer `j` of a group (60_exceptions.md R243). -/
def State.groupFault (s : State) (addr : Byte) (n j : Nat) : State :=
  { s.onBus (faultEvents s.params.sensorAddr addr n j) (if j = 0 then s.sensor.ptr else addr) 0 with
    a := { s.a with busFault := true, st := .stalled } }

section
variable {s : State} {addr : Byte} {n : Nat} {store : List Byte → State → State}

theorem memRead_of_pointer_ack (h : s.ackAt 0 = true) :
    memRead addr n s =
      busRead s.params.sensorAddr n (s.onBus [.busW s.params.sensorAddr [addr] true] addr 0) := by
  rw [memRead, busWrite_of_ack _ _ _ h]
  rfl

theorem readGroup_of_ack (data : ∀ t : State, t.sensor.ptr = addr → t.readBurst n = t.takeBytes n)
    (h0 : s.ackAt 0 = true) (h1 : s.ackAt 1 = true) :
    readGroup addr n store s = .ack () (s.afterGroup addr n store) := by
  have second : (s.onBus [.busW s.params.sensorAddr [addr] true] addr 0).nextAck = true := h1
  rw [readGroup, memRead_of_pointer_ack h0, busRead_of_ack _ _ second, data _ rfl]
  simp [BusOutcome.andThen, State.afterGroup, State.onBus, State.takeBytes]

/-- Where a group is not acknowledged, its registers are not written, whatever they are. -/
theorem readGroup_of_nack {j : Nat} (hj : j < 2) (acks : ∀ i < j, s.ackAt i = true) (nack : s.ackAt j = false) :
    readGroup addr n store s = .stalled (s.groupFault addr n j) := by
  match j with
  | 0 =>
    rw [readGroup, memRead, busWrite_of_nack _ _ _ nack]
    rfl
  | 1 =>
    have second : (s.onBus [.busW s.params.sensorAddr [addr] true] addr 0).nextAck = false := nack
    rw [readGroup, memRead_of_pointer_ack (acks 0 (by decide)), busRead_of_nack _ _ second]
    simp only [BusOutcome.andThen, State.groupFault, faultEvents, State.onBus, List.append_assoc]
    rfl

end

/-! ## The groups of `SREAD` in order (40_sensor_driver.md R128) -/

/-- The state after the acceleration group. -/
def State.afterAccel (s : State) : State := s.afterGroup Config.regAccel 6 storeAccel

/-- The state after the angular-rate group. -/
def State.afterGyro (s : State) : State := s.afterAccel.afterGroup Config.regGyro 6 storeGyro

/-- The state after the temperature group. -/
def State.afterTemp (s : State) : State := s.afterGyro.afterGroup Config.regTemp 2 storeTemp

/-- The first group takes bytes 0 to 5 of the sample. -/
theorem afterAccel_eq (s : State) :
    s.afterAccel = { s.onBus ((sreadEvents s).take 2) 0x41 6 with
      a := { s.a with
        ax := some (bigEndian (drawnByte s 0) (drawnByte s 1)), ay := some (bigEndian (drawnByte s 2) (drawnByte s 3))
        az := some (bigEndian (drawnByte s 4) (drawnByte s 5)) } } := by
  simp only [← assemble_eq_bigEndian]
  rfl

/-- The second group takes bytes 6 to 11. -/
theorem afterGyro_eq (s : State) :
    s.afterGyro = { s.onBus ((sreadEvents s).take 4) 0x49 12 with
      a := { s.afterAccel.a with
        gx := some (bigEndian (drawnByte s 6) (drawnByte s 7)), gy := some (bigEndian (drawnByte s 8) (drawnByte s 9))
        gz := some (bigEndian (drawnByte s 10) (drawnByte s 11)) } } := by
  rw [State.afterGyro, afterAccel_eq]
  simp only [← assemble_eq_bigEndian, State.afterGroup, storeGyro, State.onBus, List.append_assoc]
  rfl

/-- The third group takes bytes 12 and 13. -/
theorem afterTemp_eq (s : State) :
    s.afterTemp = { s.onBus (sreadEvents s) 0x43 14 with
      a := { s.afterGyro.a with temp := some (bigEndian (drawnByte s 12) (drawnByte s 13)) } } := by
  rw [State.afterTemp, afterGyro_eq]
  simp only [← assemble_eq_bigEndian, State.afterGroup, storeTemp, State.onBus, List.append_assoc]
  rfl

section
variable {s : State}

theorem readAccel_of_ack (h0 : s.ackAt 0 = true) (h1 : s.ackAt 1 = true) :
    readGroup Config.regAccel 6 storeAccel s = .ack () s.afterAccel :=
  readGroup_of_ack (fun _ => readBurst_accel) h0 h1

theorem readGyro_of_ack (h2 : s.ackAt 2 = true) (h3 : s.ackAt 3 = true) :
    readGroup Config.regGyro 6 storeGyro s.afterAccel = .ack () s.afterGyro :=
  readGroup_of_ack (fun _ => readBurst_gyro) h2 h3

theorem readTemp_of_ack (h4 : s.ackAt 4 = true) (h5 : s.ackAt 5 = true) :
    readGroup Config.regTemp 2 storeTemp s.afterGyro = .ack () s.afterTemp :=
  readGroup_of_ack (fun _ => readBurst_temp) h4 h5

theorem sreadTransfers_without_unused (hu : s.params.readUnused = false) (h0 : s.ackAt 0 = true)
    (h1 : s.ackAt 1 = true) : sreadTransfers s = .ack () s.afterAccel := by
  have hu' : s.afterAccel.params.readUnused = false := hu
  simp [sreadTransfers, readAccel_of_ack h0 h1, BusOutcome.andThen, hu']

theorem sreadTransfers_with_unused (hu : s.params.readUnused = true) (h0 : s.ackAt 0 = true) (h1 : s.ackAt 1 = true) :
    sreadTransfers s = (readGroup Config.regGyro 6 storeGyro s.afterAccel).andThen
      fun _ u => readGroup Config.regTemp 2 storeTemp u := by
  have hu' : s.afterAccel.params.readUnused = true := hu
  simp [sreadTransfers, readAccel_of_ack h0 h1, BusOutcome.andThen, hu']

/-- With the first two groups read, `SREAD` ends as the temperature group does. -/
theorem sreadTransfers_of_gyro_ack (hu : s.params.readUnused = true) (h : ∀ j < 4, s.ackAt j = true) :
    sreadTransfers s = readGroup Config.regTemp 2 storeTemp s.afterGyro := by
  rw [sreadTransfers_with_unused hu (h 0 (by decide)) (h 1 (by decide)),
    readGyro_of_ack (h 2 (by decide)) (h 3 (by decide))]
  rfl

end

/-- Settles O13: the three groups are acknowledged, and `afterTemp_eq` adds up what they leave. -/
theorem sreadReadsTheWholeSample : Obligations.SreadReadsTheWholeSample := by
  intro s hd hu acks
  rw [exec_sread_of_ready hd, sreadTransfers_of_gyro_ack hu fun j hj => acks j (by omega),
    readTemp_of_ack (acks 4 (by decide)) (acks 5 (by decide))]
  refine ⟨_, rfl, advanceA_advanced _ _ rfl rfl rfl, fun _ => rfl, ?_⟩
  simp only [BusOutcome.finish, afterTemp_eq, afterGyro_eq, afterAccel_eq]
  rfl

/-- Settles O14: the one group is acknowledged (`afterAccel_eq`). -/
theorem sreadWithoutUnusedReadsAcceleration : Obligations.SreadWithoutUnusedReadsAcceleration := by
  intro s hd hu h0 h1
  rw [exec_sread_of_ready hd, sreadTransfers_without_unused hu h0 h1]
  refine ⟨_, rfl, advanceA_advanced _ _ rfl rfl rfl, fun _ => rfl, ?_⟩
  simp only [BusOutcome.finish, afterAccel_eq]
  rfl

/-! ## A fault inside `SREAD` (40_sensor_driver.md R132) -/

section
variable {s : State} {j : Nat}

theorem sreadTransfers_of_accel_nack (hj : j < 2) (acks : ∀ i < j, s.ackAt i = true) (nack : s.ackAt j = false) :
    sreadTransfers s = .stalled (s.groupFault Config.regAccel 6 j) := by
  rw [sreadTransfers, readGroup_of_nack hj acks nack]
  rfl

theorem sreadTransfers_of_gyro_nack (hu : s.params.readUnused = true) (hj : j < 2)
    (acks : ∀ i < j + 2, s.ackAt i = true) (nack : s.ackAt (j + 2) = false) :
    sreadTransfers s = .stalled (s.afterAccel.groupFault Config.regGyro 6 j) := by
  have gyro : ∀ i < j, s.afterAccel.ackAt i = true := fun i hi => acks (i + 2) (by omega)
  rw [sreadTransfers_with_unused hu (acks 0 (by omega)) (acks 1 (by omega)), readGroup_of_nack hj gyro nack]
  rfl

theorem sreadTransfers_of_temp_nack (hu : s.params.readUnused = true) (hj : j < 2)
    (acks : ∀ i < j + 4, s.ackAt i = true) (nack : s.ackAt (j + 4) = false) :
    sreadTransfers s = .stalled (s.afterGyro.groupFault Config.regTemp 2 j) := by
  have temp : ∀ i < j, s.afterGyro.ackAt i = true := fun i hi => acks (i + 4) (by omega)
  rw [sreadTransfers_of_gyro_ack hu fun i hi => acks i (by omega), readGroup_of_nack hj temp nack]

theorem exec_sread_of_stalled {t : State} (hd : s.a.drv = .ready) (h : sreadTransfers s = .stalled t) :
    exec .sread s = .next t := by
  rw [exec_sread_of_ready hd, h]
  rfl

end

/-- Settles O15: the transfer that fails is the pointer write or the read of one of the three groups; what the groups
before it leave is `afterAccel_eq` and `afterGyro_eq`. -/
theorem sreadFaultKeepsEarlierGroups : Obligations.SreadFaultKeepsEarlierGroups := by
  intro s k hd hk acks nack
  have unused : 2 ≤ k → s.params.readUnused = true := by
    intro h2
    by_contra hu
    rw [if_neg hu] at hk
    omega
  obtain ⟨j, hj, rfl | rfl | rfl⟩ : ∃ j < 2, j = k ∨ j + 2 = k ∨ j + 4 = k :=
    ⟨k % 2, by omega, by split_ifs at hk <;> omega⟩
  case inl =>
    refine ⟨_, exec_sread_of_stalled hd (sreadTransfers_of_accel_nack hj acks nack), fun _ => rfl, ?_⟩
    simp only [State.groupFault, State.onBus, List.append_assoc]
    interval_cases j <;> rfl
  case inr.inl =>
    refine ⟨_, exec_sread_of_stalled hd (sreadTransfers_of_gyro_nack (unused (by omega)) hj acks nack), fun _ => rfl, ?_⟩
    simp only [State.groupFault, afterAccel_eq, State.onBus, List.append_assoc]
    interval_cases j <;> rfl
  case inr.inr =>
    refine ⟨_, exec_sread_of_stalled hd (sreadTransfers_of_temp_nack (unused (by omega)) hj acks nack), fun _ => rfl, ?_⟩
    simp only [State.groupFault, afterGyro_eq, afterAccel_eq, State.onBus, List.append_assoc]
    interval_cases j <;> rfl

end Sys2Proof.Machine
end

section
/-! PROOFS. The orientation encoder (41_orientation_encoder.md). `ORIENT`, `ENCODE` and `DECODE` once their registers
are read; the exact normalisation of a sample; the named properties of `NUM` as statements about `realOf`; and the
quantizer and the dequantizer, whose rounding errors come from one bound (`realOf_packF_error`). -/

namespace Sys2Proof.Machine

/-! ## The operations (41_orientation_encoder.md R155, R157, R158, R161) -/

theorem withReg_of_some {w : Nat} {v : Option (BitVec w)} {x : BitVec w} (r : DataReg) (h : v = some x)
    (k : BitVec w → Host.Outcome State Fault Refusal) : withReg r v k = k x := by
  rw [h, withReg]

theorem withQuantized_of_some {v : F32} {q : S32} (h : quantize v = some q)
    (k : S32 → Host.Outcome State Fault Refusal) : withQuantized v k = k q := by
  rw [withQuantized, h]

theorem withQuantized_of_none {v : F32} (h : quantize v = none) (k : S32 → Host.Outcome State Fault Refusal) :
    withQuantized v k = .refused (.quantRange v) := by
  rw [withQuantized, h]

theorem exec_orient_of_sample {s : State} {ax ay az : S16} (hx : s.a.ax = some ax) (hy : s.a.ay = some ay)
    (hz : s.a.az = some az) :
    exec .orient s =
      .next { s with a := { s.a with roll := some (rollOf ay az), pitch := some (pitchOf ax ay az) } }.advanceA :=
  (withReg_of_some .ax hx _).trans ((withReg_of_some .ay hy _).trans (withReg_of_some .az hz _))

theorem exec_encode_of_angles {s : State} {r p : F32} (hr : s.a.roll = some r) (hp : s.a.pitch = some p) :
    exec .encode s = withQuantized r fun qr => withQuantized p fun qp =>
      .next { s with a := { s.a with wmRoll := some qr, wmPitch := some qp } }.advanceA :=
  (withReg_of_some .rollA hr _).trans (withReg_of_some .pitchA hp _)

theorem exec_decode_of_words {s : State} {r p : S32} (hr : s.b.rxRoll = some r) (hp : s.b.rxPitch = some p) :
    exec .decode s =
      .next { s with b := { s.b with roll := some (dequantize r), pitch := some (dequantize p) } }.advanceB :=
  (withReg_of_some .rxRoll hr _).trans (withReg_of_some .rxPitch hp _)

/-- Settles O24: past the three reads `ORIENT` writes `rollOf` and `pitchOf`, and advances. -/
theorem orientComputesBothAngles : Obligations.OrientComputesBothAngles := fun _ _ _ _ hx hy hz =>
  ⟨_, exec_orient_of_sample hx hy hz, advanceA_advanced _ _ rfl rfl rfl, fun _ => rfl, rfl⟩

/-- Settles O29: past the two reads and the two quantizations `ENCODE` writes the quantized angles, and advances. -/
theorem encodeQuantizesBothAngles : Obligations.EncodeQuantizesBothAngles := by
  intro s r p qr qp hr hp hqr hqp
  rw [exec_encode_of_angles hr hp, withQuantized_of_some hqr, withQuantized_of_some hqp]
  exact ⟨_, rfl, advanceA_advanced _ _ rfl rfl rfl, fun _ => rfl, rfl⟩

/-- Settles O31: the roll is quantized first (60_exceptions.md R251), and the pitch only where the roll is answered. -/
theorem encodeRefusesOutOfRange : Obligations.EncodeRefusesOutOfRange := by
  refine fun s r p hr hp => ⟨fun h => ?roll, fun q hq h => ?pitch⟩
  case roll => rw [exec_encode_of_angles hr hp, withQuantized_of_none h]
  case pitch => rw [exec_encode_of_angles hr hp, withQuantized_of_some hq, withQuantized_of_none h]

/-- Settles O34: past the two reads `DECODE` writes the dequantized words, and advances. -/
theorem decodeDequantizesBothWords : Obligations.DecodeDequantizesBothWords := fun _ _ _ hr hp =>
  ⟨_, exec_decode_of_words hr hp, advanceB_advanced _ _ rfl rfl rfl, fun _ => rfl, rfl⟩

/-! ## The normalisation of a sample (41_orientation_encoder.md R152) -/

/-- The magnitude of an integer converted exactly. -/
theorem magUnits_fOfInt {i : Int} (h : i.natAbs ≤ 2 ^ 24) : magUnits (magBits (fOfInt i)) = i.natAbs * unitsPerOne :=
  magUnits_of_abs (by rw [(fOfInt_exact h).2, Nat.cast_natAbs, Int.cast_abs])

theorem natAbs_sample_le_two_pow_24 (c : S16) : c.toInt.natAbs ≤ 2 ^ 24 := (natAbs_sample_le c).trans (by norm_num)

/-- A sample is at most 16 bits and the divisor a power of two, so the quotient loses no bit. -/
theorem normCount_exact (c : S16) : isFinite (normCount c) = true ∧ realOf (normCount c) = (c.toInt : ℚ) / 16384 := by
  have hc := natAbs_sample_le_two_pow_24 c
  have hs : realOf Config.accelSens ≠ 0 := by
    rw [realOf_accelSens]
    norm_num
  have lossless := roundMag_exact (num := magUnits (magBits (fOfInt c.toInt)) * unitsPerOne) (k := 135)
    ((fOfInt c.toInt).msb ^^ Config.accelSens.msb) (magUnits_ne_zero hs) hc
    (by rw [magUnits_fOfInt hc, magUnits_accelSens, unitsPerOne]; ring)
    (lt_of_le_of_lt (Nat.mul_le_mul_right _ hc) (by norm_num))
  rwa [quotReal_div _ hs, (fOfInt_exact hc).2, realOf_accelSens] at lossless

theorem realOf_normCount (c : S16) : realOf (normCount c) = (c.toInt : ℚ) / 16384 := (normCount_exact c).2

theorem isFinite_normCount (c : S16) : isFinite (normCount c) = true := (normCount_exact c).1

theorem realOf_normCount_pos {c : S16} : 0 < realOf (normCount c) ↔ 0 < c.toInt := by
  rw [realOf_normCount, div_pos_iff_of_pos_right (by norm_num), Int.cast_pos]

theorem realOf_normCount_neg {c : S16} : realOf (normCount c) < 0 ↔ c.toInt < 0 := by
  rw [realOf_normCount, div_lt_iff₀ (by norm_num), zero_mul, Int.cast_lt_zero]

theorem normCount_zero : normCount 0 = posZero := by decide

theorem msb_fNeg (v : F32) : (fNeg v).msb = !v.msb := by rw [fNeg_eq, msb_packF _ (magBits_lt v)]

theorem getLsbD_fNeg (v : F32) {k : Nat} (hk : k < 31) : (fNeg v).getLsbD k = v.getLsbD k := by
  have mask : ∀ k < 31, (0x80000000#32).getLsbD k = false := by decide
  rw [fNeg, BitVec.getLsbD_xor, mask k hk, Bool.xor_false]

/-- Settles O26: a sample is converted exactly (`fOfInt_exact`), its quotient by 16384 is exact (`normCount_exact`) and
lies between those of the least and the greatest sample, and `f_neg` is a flip of the sign bit. -/
theorem normalisationIsExact : Obligations.NormalisationIsExact := by
  refine ⟨fun c => fOfInt_exact (natAbs_sample_le_two_pow_24 c), fun c => ?_, normCount_zero,
    fun v => ⟨msb_fNeg v, fun _ hk => getLsbD_fNeg v hk⟩, by decide⟩
  have lo : (-32768 : ℚ) ≤ c.toInt := by exact_mod_cast BitVec.le_toInt c
  have hi : (c.toInt : ℚ) ≤ 32767 := by exact_mod_cast Int.le_of_lt_add_one BitVec.toInt_lt
  rw [realOf_normCount]
  exact ⟨isFinite_normCount c, rfl, by linarith, by linarith⟩

/-! ## The named properties of `NUM` (41_orientation_encoder.md R153) -/

theorem realOf_nonneg_iff {v : F32} : 0 ≤ realOf v ↔ 0 ≤ units v := by
  rw [← not_lt, realOf_neg_iff, not_lt]

theorem realOf_nonpos_iff {v : F32} : realOf v ≤ 0 ↔ units v ≤ 0 := by
  rw [← not_lt, realOf_pos_iff, not_lt]

/-- The two patterns without units. -/
theorem eq_zero_of_realOf_eq_zero {v : F32} (h : realOf v = 0) : v = posZero ∨ v = negZero := by
  have hm : magBits v = 0 := by
    have hu := natAbs_units v
    rw [realOf_eq_zero_iff.1 h] at hu
    exact Nat.eq_zero_of_not_pos fun hp => (magUnits_pos hp).ne hu
  rw [← packF_msb_magBits v, hm]
  cases v.msb
  · exact .inl rfl
  · exact .inr rfl

/-- `P_total`, `P_range` and `P_sign` for the arctangent. -/
theorem atan2deg_range {y x : F32} (hy : isFinite y = true) (hx : isFinite x = true) :
    isFinite (atan2deg y x) = true ∧ |realOf (atan2deg y x)| ≤ 180 ∧
      (0 < realOf y → 0 ≤ realOf (atan2deg y x)) ∧ (realOf y < 0 → realOf (atan2deg y x) ≤ 0) := by
  have h := atan2deg_allowed hy hx
  simp only [atan2Allowed, Bool.and_eq_true, Bool.or_eq_true, decide_eq_true_iff] at h
  obtain ⟨⟨⟨⟨fin, hi⟩, lo⟩, pos⟩, neg⟩ := h
  have hi' := (realOf_le_iff 180).2 hi
  have lo' := (le_realOf_iff (-180)).2 (by rwa [neg_mul])
  exact ⟨fin, abs_le.2 ⟨by exact_mod_cast lo', by exact_mod_cast hi'⟩,
    fun h => realOf_nonneg_iff.2 (pos.resolve_left (realOf_pos_iff.1 h).not_ge),
    fun h => realOf_nonpos_iff.2 (neg.resolve_left (realOf_neg_iff.1 h).not_ge)⟩

/-- `P_total` and `P_sign` for the root. -/
theorem hyp_range {y z : F32} (hy : isFinite y = true) (hz : isFinite z = true) :
    isFinite (hyp y z) = true ∧ 0 ≤ realOf (hyp y z) ∧ hyp y z ≠ negZero := by
  have h := hyp_allowed hy hz
  simp only [hypAllowed, Bool.and_eq_true, decide_eq_true_iff] at h
  obtain ⟨⟨fin, nonneg⟩, ne⟩ := h
  exact ⟨fin, realOf_nonneg_iff.2 nonneg, ne⟩

/-- A root that is not positive is +0. -/
theorem hyp_pos_or_zero {y z : F32} (hy : isFinite y = true) (hz : isFinite z = true) :
    0 < realOf (hyp y z) ∨ hyp y z = posZero := by
  obtain ⟨-, nonneg, ne⟩ := hyp_range hy hz
  exact nonneg.lt_or_eq.imp_right fun h => (eq_zero_of_realOf_eq_zero h.symm).resolve_right ne

theorem isFinite_zero {y : F32} (hy : y = posZero ∨ y = negZero) : isFinite y = true := by
  rcases hy with rfl | rfl <;> decide

/-- `P_axis` on the positive half of the axis and at the origin: a zero is its own angle. -/
theorem atan2deg_zero_nonneg {y x : F32} (hy : y = posZero ∨ y = negZero) (hx : isFinite x = true)
    (h : 0 < realOf x ∨ x = posZero) : atan2deg y x = y := by
  refine atan2deg_axis (isFinite_zero hy) hx ?_
  rcases h with h | rfl
  · exact atan2Axis_zero_pos hy (realOf_pos_iff.1 h)
  · exact atan2Axis_zero_zero hy

/-- `P_axis` on the negative half of the axis. -/
theorem atan2deg_zero_neg {y x : F32} (hy : y = posZero ∨ y = negZero) (hx : isFinite x = true) (h : realOf x < 0) :
    atan2deg y x = if y = posZero then deg180 else degNeg180 :=
  atan2deg_axis (isFinite_zero hy) hx (atan2Axis_zero_neg hy (realOf_neg_iff.1 h))

/-- `P_axis` above the origin. -/
theorem atan2deg_vertical_pos {y : F32} (hy : isFinite y = true) (h : 0 < realOf y) : atan2deg y posZero = deg90 := by
  have hu := realOf_pos_iff.1 h
  rw [atan2deg_axis hy (by decide) (atan2Axis_vertical hu.ne'), if_pos hu]

/-- `P_axis` below the origin. -/
theorem atan2deg_vertical_neg {y : F32} (hy : isFinite y = true) (h : realOf y < 0) :
    atan2deg y posZero = degNeg90 := by
  have hu := realOf_neg_iff.1 h
  rw [atan2deg_axis hy (by decide) (atan2Axis_vertical hu.ne), if_neg hu.not_gt]

/-- `P_axis` of the root, second operand zero. -/
theorem hyp_posZero_right {v : F32} (hv : isFinite v = true) : hyp v posZero = fAbs v := by
  simp [hyp, hv, show isFinite posZero = true by decide]

/-- `P_axis` of the root, first operand zero. -/
theorem hyp_posZero_left {v : F32} (hv : isFinite v = true) : hyp posZero v = fAbs v := by
  simp only [hyp, hv, show isFinite posZero = true by decide, Bool.and_self, if_true]
  split_ifs with h
  · rw [h]
  · rfl

/-- An angle within `d` degrees of 0, from radians. -/
theorem abs_degrees_le {a d : ℝ} (h : |a| ≤ d / 180 * Real.pi) : |a * 180 / Real.pi| ≤ d := by
  have hp := Real.pi_pos
  rw [abs_div, abs_mul, abs_of_pos hp, abs_of_pos (by norm_num : (0 : ℝ) < 180), div_le_iff₀ hp]
  linarith

/-- The computed and the exact angle both lie within 180 degrees. -/
theorem atan2Accurate_360 : Atan2Accurate 360 := by
  intro y x hy hx
  obtain ⟨-, range, -⟩ := atan2deg_range hy hx
  have computed : |((realOf (atan2deg y x) : ℚ) : ℝ)| ≤ 180 := by exact_mod_cast range
  have ideal : |Complex.arg ⟨((realOf x : ℚ) : ℝ), ((realOf y : ℚ) : ℝ)⟩ * 180 / Real.pi| ≤ 180 :=
    abs_degrees_le ((Complex.abs_arg_le_pi _).trans_eq (by ring))
  exact (abs_sub _ _).trans (by linarith)

/-- Finite values lie within 2^128. -/
theorem abs_realOf_le_of_finite {v : F32} (h : isFinite v = true) : |realOf v| ≤ 2 ^ 128 := by
  have hm : |realOf v| ≤ ((2 ^ 128 : Nat) : ℚ) :=
    magUnits_le_iff.2 ((magUnits_lt_of_finite h).le.trans_eq (by rw [unitsPerOne]; norm_num))
  exact_mod_cast hm

/-- The computed root lies within 2^128, the exact one within twice that. -/
theorem hypAccurate_three_mul_two_pow : HypAccurate (3 * 2 ^ 128) := by
  intro y z hy hz
  have bound : ∀ {v : F32}, isFinite v = true → |((realOf v : ℚ) : ℝ)| ≤ 2 ^ 128 := fun h => by
    exact_mod_cast abs_realOf_le_of_finite h
  have computed := bound (hyp_range hy hz).1
  have ideal : Real.sqrt (((realOf y : ℚ) : ℝ) ^ 2 + ((realOf z : ℚ) : ℝ) ^ 2) ≤ 2 * 2 ^ 128 := by
    rw [Real.sqrt_le_left (by norm_num)]
    nlinarith [sq_le_sq' (abs_le.1 (bound hy)).1 (abs_le.1 (bound hy)).2,
      sq_le_sq' (abs_le.1 (bound hz)).1 (abs_le.1 (bound hz)).2]
  have root := Real.sqrt_nonneg (((realOf y : ℚ) : ℝ) ^ 2 + ((realOf z : ℚ) : ℝ) ^ 2)
  rw [abs_le] at computed ⊢
  constructor <;> linarith [computed.1, computed.2]

/-- Settles O27: the properties are those imposed on the free values (`atan2deg_range`, `hyp_range`, and one lemma for
each case of `P_axis`); and functions with a bounded range are within some bound of the exact ones. -/
theorem numHasTheNamedProperties : Obligations.NumHasTheNamedProperties := by
  have zero : isFinite posZero = true := by decide
  refine ⟨fun y x hy hx => ?ranges,
    ⟨360, 3 * 2 ^ 128, by norm_num, by norm_num, atan2Accurate_360, hypAccurate_three_mul_two_pow⟩,
    fun x hx => ⟨fun h => ?right, fun h => ?left⟩,
    fun y hy => ⟨atan2deg_vertical_pos hy, atan2deg_vertical_neg hy⟩,
    atan2deg_zero_nonneg (.inl rfl) zero (.inr rfl), atan2deg_zero_nonneg (.inr rfl) zero (.inr rfl),
    hyp_posZero_right zero, fun v hv => ⟨hyp_posZero_right hv, hyp_posZero_left hv⟩⟩
  case ranges =>
    obtain ⟨finA, range, pos, neg⟩ := atan2deg_range hy hx
    obtain ⟨finH, nonneg, ne⟩ := hyp_range hy hx
    exact ⟨finA, finH, (abs_le.1 range).1, (abs_le.1 range).2, pos, neg, nonneg, ne⟩
  case right =>
    exact ⟨atan2deg_zero_nonneg (.inl rfl) hx (.inl h), atan2deg_zero_nonneg (.inr rfl) hx (.inl h)⟩
  case left =>
    exact ⟨atan2deg_zero_neg (.inl rfl) hx h, atan2deg_zero_neg (.inr rfl) hx h⟩

/-! ## The angles of a sample (41_orientation_encoder.md R155, R156) -/

theorem rollOf_zero_nonneg {az : S16} (h : 0 ≤ az.toInt) : rollOf 0 az = posZero := by
  rw [rollOf, normCount_zero]
  refine atan2deg_zero_nonneg (.inl rfl) (isFinite_normCount az) ?_
  rcases h.lt_or_eq with h | h
  · exact .inl (realOf_normCount_pos.2 h)
  · rw [BitVec.toInt_inj.1 (h.symm.trans BitVec.toInt_zero.symm)]
    exact .inr normCount_zero

theorem rollOf_zero_neg {az : S16} (h : az.toInt < 0) : rollOf 0 az = deg180 := by
  rw [rollOf, normCount_zero, atan2deg_zero_neg (.inl rfl) (isFinite_normCount az) (realOf_normCount_neg.2 h), if_pos rfl]

section
variable (ax ay az : S16)

/-- The two operands of the pitch are finite. -/
theorem pitch_operands_finite :
    isFinite (fNeg (normCount ax)) = true ∧ isFinite (hyp (normCount ay) (normCount az)) = true :=
  ⟨(isFinite_fNeg _).trans (isFinite_normCount ax), (hyp_range (isFinite_normCount ay) (isFinite_normCount az)).1⟩

/-- Corner case (a) of R155. -/
theorem pitchOf_zero : pitchOf 0 ay az = negZero := by
  have operand : fNeg (normCount 0) = negZero := by decide
  rw [pitchOf, operand]
  exact atan2deg_zero_nonneg (.inr rfl) (pitch_operands_finite 0 ay az).2
    (hyp_pos_or_zero (isFinite_normCount ay) (isFinite_normCount az))

/-- The pitch where only the X component is not zero. -/
theorem pitchOf_x_axis : pitchOf ax 0 0 = atan2deg (fNeg (normCount ax)) posZero := by
  rw [pitchOf, normCount_zero, hyp_posZero_right (by decide)]
  rfl

/-- The root is not negative, so the exact pitch lies within 90 degrees. -/
theorem pitchOf_le_of_accurate {eps : ℝ} (h : Atan2Accurate eps) :
    |((realOf (pitchOf ax ay az) : ℚ) : ℝ)| ≤ 90 + eps := by
  obtain ⟨finY, finX⟩ := pitch_operands_finite ax ay az
  have nonneg : (0 : ℝ) ≤ ((realOf (hyp (normCount ay) (normCount az)) : ℚ) : ℝ) := by
    exact_mod_cast (hyp_range (isFinite_normCount ay) (isFinite_normCount az)).2.1
  have near := h _ _ finY finX
  have ideal := abs_degrees_le (a := Complex.arg ⟨((realOf (hyp (normCount ay) (normCount az)) : ℚ) : ℝ),
    ((realOf (fNeg (normCount ax)) : ℚ) : ℝ)⟩) (d := 90)
    ((Complex.abs_arg_le_pi_div_two_iff.2 nonneg).trans_eq (by ring))
  rw [pitchOf]
  rw [abs_le] at near ideal ⊢
  constructor <;> linarith [near.1, near.2, ideal.1, ideal.2]

end

/-- Settles O25: a component that is 0 is normalised to +0, and each case of `P_axis` gives one clause. -/
theorem orientIsExactOnTheAxes : Obligations.OrientIsExactOnTheAxes := by
  intro s ax ay az hx hy hz
  refine ⟨_, _, _, exec_orient_of_sample hx hy hz, rfl, rfl, ?a, ?b, ?behind, ?ahead⟩
  case a =>
    rintro rfl
    exact pitchOf_zero ay az
  case b =>
    rintro rfl rfl
    have fin := (isFinite_fNeg _).trans (isFinite_normCount ax)
    rw [pitchOf_x_axis]
    refine ⟨rollOf_zero_nonneg le_rfl, fun h => atan2deg_vertical_neg fin ?_, fun h => atan2deg_vertical_pos fin ?_⟩
    · rw [realOf_fNeg]
      exact neg_neg_of_pos (realOf_normCount_pos.2 h)
    · rw [realOf_fNeg]
      exact neg_pos_of_neg (realOf_normCount_neg.2 h)
  case behind =>
    rintro rfl h
    exact rollOf_zero_neg h
  case ahead =>
    rintro rfl h
    exact rollOf_zero_nonneg h.le

/-- Settles O28: both angles are arctangents of finite operands (`atan2deg_range`), whose first operands have the signs
of `ay` and `-ax`. -/
theorem anglesStayInRange : Obligations.AnglesStayInRange := by
  intro s ax ay az hx hy hz
  obtain ⟨finR, rangeR, posR, negR⟩ := atan2deg_range (isFinite_normCount ay) (isFinite_normCount az)
  obtain ⟨finY, finX⟩ := pitch_operands_finite ax ay az
  obtain ⟨finP, rangeP, posP, negP⟩ := atan2deg_range finY finX
  rw [realOf_fNeg] at posP negP
  refine ⟨_, _, _, exec_orient_of_sample hx hy hz, rfl, rfl, finR, finP, rangeR, rangeP,
    fun _ h => pitchOf_le_of_accurate ax ay az h, fun h => posR (realOf_normCount_pos.2 h),
    fun h => negR (realOf_normCount_neg.2 h), ?_, fun h => negP (neg_neg_of_pos (realOf_normCount_pos.2 h)),
    fun h => posP (neg_pos_of_neg (realOf_normCount_neg.2 h))⟩
  rintro rfl
  rcases lt_or_ge az.toInt 0 with h | h
  · right
    rw [rollOf_zero_neg h, realOf, units_deg180]
    push_cast
    exact mul_div_cancel_right₀ _ unitsPerOne_pos.ne'
  · left
    rw [rollOf_zero_nonneg h]
    exact realOf_eq_zero_iff.2 units_posZero

/-! ## The quantizer (41_orientation_encoder.md R157, R159) -/

/-- A value is truncated below a bound that is not positive exactly when it is at most the integer below it. -/
theorem trunc0_lt_iff {p : F32} {n : Int} (hn : n ≤ 0) : trunc0 p < n ↔ realOf p ≤ n - 1 := by
  rcases le_or_gt 0 (realOf p) with h | h
  · have hn' : (n : ℚ) ≤ 0 := by exact_mod_cast hn
    have := Int.floor_nonneg.2 h
    rw [trunc0_floor h]
    exact iff_of_false (by omega) (by linarith)
  · rw [trunc0_ceil h, ← Int.le_sub_one_iff, Int.ceil_le]
    push_cast
    rfl

/-- A value is truncated above a bound that is not negative exactly when it is at least the integer above it. -/
theorem lt_trunc0_iff {p : F32} {n : Int} (hn : 0 ≤ n) : n < trunc0 p ↔ n + 1 ≤ realOf p := by
  rcases le_or_gt 0 (realOf p) with h | h
  · rw [trunc0_floor h, ← Int.add_one_le_iff, Int.le_floor]
    push_cast
    rfl
  · have hn' : (0 : ℚ) ≤ n := by exact_mod_cast hn
    have := Int.ceil_nonpos.2 h.le
    rw [trunc0_ceil h]
    exact iff_of_false (by omega) (by linarith)

/-- Where the quantizer refuses (41_orientation_encoder.md R157). -/
theorem quantize_eq_none_iff {v : F32} :
    quantize v = none ↔ isFinite v = false ∨ isFinite (fMul v Config.scale) = false ∨
      trunc0 (fMul v Config.scale) < -2 ^ 31 ∨ 2 ^ 31 - 1 < trunc0 (fMul v Config.scale) := by
  rw [quantize, ite_eq_right_iff]
  simp only [reduceCtorEq, imp_false, not_and_or, Bool.not_eq_true, not_le]

/-- Settles O30: the answer is the truncated product (`quantize_some`), a floor or a ceiling by its sign; it is outside the
32-bit range exactly when the product is at most -2^31 - 1 or at least 2^31. -/
theorem quantizerTruncatesTowardZero : Obligations.QuantizerTruncatesTowardZero := by
  refine fun v => ⟨fun q hq => ?answer, quantize_eq_none_iff.trans ?refusal⟩
  case answer =>
    obtain ⟨finV, finP, hq⟩ := quantize_some hq
    exact ⟨finV, finP, fun h => hq.trans (trunc0_floor h), fun h => hq.trans (trunc0_ceil h)⟩
  case refusal =>
    rw [trunc0_lt_iff (by norm_num), lt_trunc0_iff (by norm_num)]
    norm_num [Config.scale]

theorem unitsPerOne_nat_pos : 0 < unitsPerOne := Nat.two_pow_pos 149

/-- The exact product of an angle and 100. -/
theorem magUnits_mul_scale_le {v : F32} (h : |realOf v| ≤ 180) :
    magUnits (magBits v) * magUnits (magBits Config.scale) ≤ 18000 * unitsPerOne * unitsPerOne := by
  have hv : magUnits (magBits v) ≤ 180 * unitsPerOne := magUnits_le_iff.1 (by exact_mod_cast h)
  rw [magUnits_scale]
  exact (Nat.mul_le_mul_right _ hv).trans_eq (by ring)

/-- 180 times 100 is a magnitude, so the product rounded stays within it. -/
theorem fMul_scale_range {v : F32} (h : |realOf v| ≤ 180) :
    isFinite (fMul v Config.scale) = true ∧ |realOf (fMul v Config.scale)| ≤ 18000 := by
  have hprod := magUnits_mul_scale_le h
  have fin : isFinite (fMul v Config.scale) = true :=
    isFinite_of_lt _ unitsPerOne_nat_pos (lt_of_le_of_lt hprod (by norm_num [unitsPerOne]))
  obtain ⟨p, hp⟩ : ∃ p, magUnits p = 18000 * unitsPerOne := exists_magnitude 149 18000 (by norm_num)
  rw [← hp] at hprod
  have bound : |realOf (fMul v Config.scale)| ≤ ((18000 : Nat) : ℚ) := by
    rw [magUnits_le_iff, fMul, magBits_packF _ (roundMag_lt _ _), (isFinite_roundMag.1 fin).2, ← hp]
    exact roundPattern_le unitsPerOne_nat_pos p hprod
  exact ⟨fin, by exact_mod_cast bound⟩

/-- Truncation stays within an integer bound. -/
theorem abs_trunc0_le {p : F32} {n : Int} (h : |realOf p| ≤ n) : |trunc0 p| ≤ n := by
  obtain ⟨lo, hi⟩ := abs_le.1 h
  have hn : 0 ≤ n := by exact_mod_cast (abs_nonneg _).trans h
  refine abs_le.2 ⟨not_lt.1 fun hlt => ?_, not_lt.1 fun hlt => ?_⟩
  · have := (trunc0_lt_iff (by omega)).1 hlt
    push_cast at this
    linarith
  · have := (lt_trunc0_iff hn).1 hlt
    linarith

/-- The quantizer on an angle (41_orientation_encoder.md R159). -/
theorem quantize_angle {v : F32} (hv : isFinite v = true) (h : |realOf v| ≤ 180) :
    ∃ q, quantize v = some q ∧ |q.toInt| ≤ 18000 := by
  obtain ⟨fin, range⟩ := fMul_scale_range h
  have ht : |trunc0 (fMul v Config.scale)| ≤ 18000 := abs_trunc0_le (by exact_mod_cast range)
  obtain ⟨lo, hi⟩ := abs_le.1 ht
  obtain ⟨q, hq⟩ := quantize_isSome hv fin (by omega) (by omega)
  obtain ⟨-, -, he⟩ := quantize_some hq
  exact ⟨q, hq, he ▸ ht⟩

/-- Settles O32: the product of an angle lies within 18000, far inside the 32-bit range. -/
theorem quantizerIsTotalOnAngles : Obligations.QuantizerIsTotalOnAngles := fun _ hv h => quantize_angle hv h

/-! ## The dequantizer (41_orientation_encoder.md R160) -/

/-- The quotient of a converted word is finite. -/
theorem isFinite_dequantize (q : S32) : isFinite (dequantize q) = true := by
  obtain ⟨-, hm⟩ := fOfInt_word q
  refine isFinite_of_lt _ (by rw [magUnits_scale]; decide) (lt_of_le_of_lt (Nat.mul_le_mul_right _ hm) ?_)
  rw [magUnits_scale]
  norm_num [unitsPerOne]

theorem realOf_scale_ne_zero : realOf Config.scale ≠ 0 := by
  rw [realOf_scale]
  norm_num

/-- Settles O35: the conversion and the quotient are finite, so each is the nearest value (`nearestEven_fOfInt`,
`nearestEven_fDiv`). -/
theorem dequantizerIsTheRoundedQuotient : Obligations.DequantizerIsTheRoundedQuotient := by
  refine ⟨fun q => ?_, fun q h => (fOfInt_exact (by rw [Int.abs_eq_natAbs] at h; omega)).2, by decide⟩
  obtain ⟨fin, -⟩ := fOfInt_word q
  have near := nearestEven_fDiv realOf_scale_ne_zero (isFinite_dequantize q)
  rw [realOf_scale] at near
  exact ⟨fin, nearestEven_fOfInt fin, near⟩

/-! ## The round trip (41_orientation_encoder.md R162) -/

/-- The error of a rounded quotient below 2^(24 + j) units is at most half of the last of 24 bits. -/
theorem realOf_packF_error {neg : Bool} {num den j : Nat} (hd : 0 < den)
    (hf : isFinite (packF neg (roundMag num den)) = true) (h : num < 2 ^ (24 + j) * den) :
    |realOf (packF neg (roundMag num den)) - signOf neg * quotReal num den| ≤ 2 ^ j / (2 * (unitsPerOne : ℚ)) := by
  rw [realOf_packF neg (roundMag_lt _ _), (isFinite_roundMag.1 hf).2, ← mul_sub, abs_mul, abs_signOf, one_mul]
  exact magReal_error hd h

/-- Part (b), the product: below 2^15, so its last bit is 2^-9. -/
theorem fMul_scale_error {v : F32} (h : |realOf v| ≤ 180) :
    |realOf (fMul v Config.scale) - 100 * realOf v| ≤ 1 / 1024 := by
  have small : magUnits (magBits v) * magUnits (magBits Config.scale) < 2 ^ (24 + 140) * unitsPerOne :=
    (magUnits_mul_scale_le h).trans_lt (by norm_num [unitsPerOne])
  have err := realOf_packF_error unitsPerOne_nat_pos (fMul_scale_range h).1 small
  rw [quotReal_mul, realOf_scale, mul_comm (realOf v)] at err
  exact err.trans_eq (by norm_num [unitsPerOne])

/-- Part (c), the quotient: below 2^8, so its last bit is 2^-16. -/
theorem dequantize_error {q : S32} (h : |q.toInt| ≤ 18000) :
    |realOf (dequantize q) - (q.toInt : ℚ) / 100| ≤ 1 / 131072 := by
  have hq : q.toInt.natAbs ≤ 18000 := by rw [Int.abs_eq_natAbs] at h; omega
  have h24 : q.toInt.natAbs ≤ 2 ^ 24 := hq.trans (by norm_num)
  have small : magUnits (magBits (fOfInt q.toInt)) * unitsPerOne < 2 ^ (24 + 133) * magUnits (magBits Config.scale) := by
    rw [magUnits_fOfInt h24, magUnits_scale]
    exact lt_of_le_of_lt (Nat.mul_le_mul_right _ (Nat.mul_le_mul_right _ hq)) (by norm_num [unitsPerOne])
  have err := realOf_packF_error (magUnits_ne_zero realOf_scale_ne_zero) (isFinite_dequantize q) small
  rw [quotReal_div _ realOf_scale_ne_zero, realOf_scale, (fOfInt_exact h24).2] at err
  exact err.trans_eq (by norm_num [unitsPerOne])

/-- Only a positive number is nearest to a positive value: 0 is a value too. -/
theorem NearestEven.pos {x : ℚ} {r : F32} (h : NearestEven x r) (hr : 0 < realOf r) : 0 < x := by
  have zero := h.2.1 posZero (by decide)
  rw [realOf_eq_zero_iff.2 units_posZero] at zero
  by_contra hx
  rw [abs_of_pos (by linarith), abs_of_nonneg (by linarith)] at zero
  linarith

/-- Only a negative number is nearest to a negative value. -/
theorem NearestEven.neg {x : ℚ} {r : F32} (h : NearestEven x r) (hr : realOf r < 0) : x < 0 := by
  have zero := h.2.1 posZero (by decide)
  rw [realOf_eq_zero_iff.2 units_posZero] at zero
  by_contra hx
  rw [abs_of_neg (by linarith), abs_of_nonpos (by linarith)] at zero
  linarith

/-- Part (a), the sign: that of the rounded product, and so that of the angle. -/
theorem quantize_sign {v : F32} {q : S32} (hq : quantize v = some q) :
    q.toInt = 0 ∨ (0 < q.toInt ∧ 0 < realOf v) ∨ (q.toInt < 0 ∧ realOf v < 0) := by
  obtain ⟨-, fin, he⟩ := quantize_some hq
  obtain ⟨-, pos, neg⟩ := trunc0_error (fMul v Config.scale)
  have near := nearestEven_fMul fin
  rw [realOf_scale] at near
  rw [← he] at pos neg
  rcases lt_trichotomy q.toInt 0 with h | h | h
  · exact .inr (.inr ⟨h, by linarith [near.neg (neg h)]⟩)
  · exact .inl h
  · exact .inr (.inl ⟨h, by linarith [near.pos (pos h)]⟩)

/-- Parts (a) and (b), the size: truncation loses less than 1 of the rounded product. -/
theorem quantize_error {v : F32} {q : S32} (hq : quantize v = some q) :
    |(q.toInt : ℚ) - 100 * realOf v| < 1 + |realOf (fMul v Config.scale) - 100 * realOf v| := by
  obtain ⟨-, -, he⟩ := quantize_some hq
  obtain ⟨trunc, -⟩ := trunc0_error (fMul v Config.scale)
  rw [he]
  linarith [abs_sub_le (trunc0 (fMul v Config.scale) : ℚ) (realOf (fMul v Config.scale)) (100 * realOf v)]

/-- Settles O36: the truncation loses less than 1 (`quantize_error`), the rounded product at most 2^-10
(`fMul_scale_error`) and the rounded quotient at most 2^-17 (`dequantize_error`). -/
theorem roundTripErrorIsBounded : Obligations.RoundTripErrorIsBounded := by
  refine ⟨fun v q hq => ⟨quantize_sign hq, quantize_error hq⟩, fun v q hq hv => ?_, fun q h => dequantize_error h⟩
  have product := fMul_scale_error hv
  have hundredths := quantize_error hq
  have hqr : |q.toInt| ≤ 18000 := by
    obtain ⟨q', hq', h⟩ := quantize_angle (quantize_some hq).1 hv
    rwa [Option.some_inj.1 (hq.symm.trans hq')]
  have integer : |(q.toInt : ℚ) / 100 - realOf v| < (1 + 1 / 1024) / 100 := by
    have e : (q.toInt : ℚ) / 100 - realOf v = ((q.toInt : ℚ) - 100 * realOf v) / 100 := by ring
    rw [e, abs_div, abs_of_pos (by norm_num : (0 : ℚ) < 100)]
    linarith
  have quotient := dequantize_error hqr
  refine ⟨product, integer.trans (by norm_num), ?_⟩
  calc |realOf (dequantize q) - realOf v|
      ≤ |realOf (dequantize q) - (q.toInt : ℚ) / 100| + |(q.toInt : ℚ) / 100 - realOf v| := abs_sub_le _ _ _
    _ < 1 / 131072 + (1 + 1 / 1024) / 100 := add_lt_add_of_le_of_lt quotient integer
    _ < 1002 / 100000 := by norm_num

end Sys2Proof.Machine
end

section
/-! PROOFS. The channel (42_channel.md). A push or a pop completes or is held, by the channel's level alone
(`pushWord_of_room`, `pushWord_of_full`, `exec_pop_of_cons`, `execPop_of_empty`). The invariant of every run is kept by the
effect of an operation and by an advance, each unit's separately; from it follow the numbering of the words and what lifts
a hold. -/

namespace Sys2Proof.Machine

/-! ## The invariant of every run (42_channel.md R187) -/

/-- Settles O2: the defaults are in range. -/
theorem resetMeetsInvariant : Obligations.ResetMeetsInvariant := reset_inv (p := Config.defaults) (by decide)

/-- A legal depth is at least 1, and both programs have the shape of 30_encoding.md R110. -/
theorem params_ok_iff {p : Params} :
    p.ok = true ↔ 1 ≤ p.chDepth ∧ p.progA.shapeOk = true ∧ p.progB.shapeOk = true := by
  simp [Params.ok, and_assoc]

section
variable {s t : State}

theorem Inv.depth_pos (h : Inv s) : 1 ≤ s.params.chDepth := (params_ok_iff.1 h.paramsOk).1

theorem Inv.shapeA (h : Inv s) : s.params.progA.shapeOk = true := (params_ok_iff.1 h.paramsOk).2.1

theorem Inv.shapeB (h : Inv s) : s.params.progB.shapeOk = true := (params_ok_iff.1 h.paramsOk).2.2

/-- The invariant says nothing of the inputs. -/
theorem Inv.of_inp (h : Inv s) (inp : Inputs) : Inv { s with inp := inp } := { h with }

/-- The words unit A pushes go to the end of the channel and of `hist_push`; a fault sets `bus_fault` with the stall. -/
theorem Inv.effectA (h : Inv s) (e : EffectA s t) : Inv t where
  paramsOk := e.params ▸ h.paramsOk
  pcA := by rw [e.params, e.pc]; exact h.pcA
  pcB := by rw [e.params, e.b]; exact h.pcB
  level := by rw [e.params]; exact e.level h.level
  history := by
    obtain ⟨ws, hch, hpush⟩ := e.push
    rw [hpush, hch, e.histPop, h.history, List.append_assoc]
  memory := e.memory h.memory
  stall := by
    rcases e.status with ⟨hst, hf⟩ | ⟨hst, hf⟩
    · rw [hst, hf]; exact h.stall
    · exact ⟨fun _ => hst, fun _ => hf⟩

/-- The words unit B pops leave the front of the channel for the end of `hist_pop`. -/
theorem Inv.effectB (h : Inv s) (e : EffectB s t) : Inv t where
  paramsOk := e.params ▸ h.paramsOk
  pcA := by rw [e.params, e.a]; exact h.pcA
  pcB := by rw [e.params, e.pc]; exact h.pcB
  level := by
    obtain ⟨ws, hch, -⟩ := e.pop
    have hl := h.level
    rw [hch, List.length_append] at hl
    rw [e.params]
    omega
  history := by
    obtain ⟨ws, hch, hpop⟩ := e.pop
    rw [e.histPush, hpop, h.history, hch, List.append_assoc]
  memory := e.sensor ▸ h.memory
  stall := e.a ▸ h.stall

/-- An advance of `pc_A` stays inside the program, and of a unit that runs it makes no stalled one. -/
theorem Inv.advanceA (h : Inv s) (hr : s.a.st = .run) : Inv s.advanceA :=
  { h with
    pcA := nextIndex_getD_lt h.shapeA h.pcA
    stall := by
      have noFault : s.a.busFault ≠ true := fun hf => absurd (hr.symm.trans (h.stall.1 hf)) nofun
      refine ⟨fun hf => absurd hf noFault, fun hst => ?_⟩
      simp only [advanceA_a, hr] at hst
      split at hst <;> cases hst }

/-- An advance of `pc_B` stays inside the program. -/
theorem Inv.advanceB (h : Inv s) : Inv s.advanceB :=
  { h with pcB := nextIndex_getD_lt h.shapeB h.pcB }

theorem Inv.stepsA (h : Inv s) (hr : s.a.st = .run) (hs : StepsA s t) : Inv t := by
  obtain ⟨m, e, rfl | ⟨rfl, hst, -⟩⟩ := hs
  · exact h.effectA e
  · exact (h.effectA e).advanceA (hst.trans hr)

theorem Inv.stepsB (h : Inv s) (hs : StepsB s t) : Inv t := by
  obtain ⟨m, e, rfl | rfl⟩ := hs
  · exact h.effectB e
  · exact (h.effectB e).advanceB

end

/-- Settles O51: a step is a draw alone, an operation of unit A while it runs, or one of unit B (`step_effects`). -/
theorem stepKeepsInvariant : Obligations.StepKeepsInvariant := by
  intro s t h hs
  obtain ⟨m, hm, hs⟩ := step_effects hs
  have drawn : Inv m := hm ▸ h.of_inp _
  have status : m.a.st = s.a.st := by rw [hm]
  rcases hs with rfl | ⟨hA, hr, -⟩ | ⟨hB, -⟩
  · exact drawn
  · exact drawn.stepsA (status.trans hr) hA
  · exact drawn.stepsB hB

/-! ## `PUSH` and `PUSHI` (42_channel.md R181 to R183) -/

section
variable {s : State}

theorem pushWord_of_room (w : Word) (h : s.ch.length < s.params.chDepth) :
    pushWord w s =
      { s with ch := s.ch ++ [w], ghost := { s.ghost with histPush := s.ghost.histPush ++ [w] } }.advanceA := by
  rw [pushWord, chPush_of_room w h]

theorem pushWord_of_full (w : Word) (h : s.params.chDepth ≤ s.ch.length) : pushWord w s = s := by
  rw [pushWord, chPush_of_full w h]

theorem exec_pushi (w : Word) : exec (.pushi w) s = .next (pushWord w s) := rfl

theorem exec_push_of_some {sel : Sel} {q : S32} (h : s.a.wm sel = some q) :
    exec (.push sel) s = .next (pushWord q s) := withReg_of_some _ h _

theorem exec_push_of_none {sel : Sel} (h : s.a.wm sel = none) :
    exec (.push sel) s = .refused (.readBeforeWrite (wmRegOf sel)) := withReg_of_none _ h _

end

/-- Settles O38: past the read of its register `PUSH` is a push of the register's word, and there is room. -/
theorem pushAppendsTheSelectedWord : Obligations.PushAppendsTheSelectedWord := by
  intro s sel q hq hroom
  rw [exec_push_of_some (sel := sel) hq, pushWord_of_room _ hroom]
  exact ⟨_, rfl, advanceA_advanced _ _ rfl rfl rfl, fun _ => rfl, rfl⟩

/-- Settles O39: `PUSHI` reads no register, so it is that push at once. -/
theorem pushiAppendsTheLiteralWord : Obligations.PushiAppendsTheLiteralWord := by
  intro s w hroom
  rw [exec_pushi, pushWord_of_room _ hroom]
  exact ⟨_, rfl, advanceA_advanced _ _ rfl rfl rfl, fun _ => rfl, rfl⟩

/-! ## `POP` (42_channel.md R184, R185) -/

/-- The state after `POP sel` has taken the word `w` from in front of the words `ws`. -/
def State.afterPop (s : State) (sel : Sel) (w : Word) (ws : List Word) : State :=
  { s with
    ch := ws
    ghost := { s.ghost with histPop := s.ghost.histPop ++ [w] }
    b := s.b.setRx sel (asS32 w) }.advanceB

theorem exec_pop_of_cons {s : State} {w : Word} {ws : List Word} (sel : Sel) (h : s.ch = w :: ws) :
    exec (.pop sel) s = .next (s.afterPop sel w ws) := execPop_of_cons sel h

/-- Settles O40: `sel` only decides which of the two receive registers takes the word. -/
theorem popTakesTheOldestWord : Obligations.PopTakesTheOldestWord := by
  intro s sel w ws hc
  refine ⟨_, exec_pop_of_cons sel hc, advanceB_advanced _ _ rfl (setRx_pc ..) (setRx_st ..), fun _ => rfl, ?_⟩
  cases sel <;> rfl

/-- Word `k` of the channel is, of the words pushed since reset, the one `k` places behind those popped (42_channel.md
R187, R188). -/
theorem Inv.histPush_getElem? {s : State} (h : Inv s) (k : Nat) :
    s.ghost.histPush[s.ghost.histPop.length + k]? = s.ch[k]? := by
  rw [h.history, List.getElem?_append_right (Nat.le_add_right _ _), Nat.add_sub_cancel_left]

/-- Settles O42: the word taken is word 0 of the channel (`Inv.histPush_getElem?`). -/
theorem popReturnsTheWordOfItsNumber : Obligations.PopReturnsTheWordOfItsNumber := by
  intro s sel h hne
  obtain ⟨w, ws, hc⟩ := List.exists_cons_of_ne_nil hne
  refine ⟨_, w, exec_pop_of_cons sel hc, (h.histPush_getElem? 0).trans (by rw [hc]; rfl), ?_, rfl, rfl⟩
  cases sel <;> rfl

/-- Settles O43: the second `POP` finds in front what stood behind the first word, and leaves the other receive register
as the first filled it. -/
theorem poppedPairIsTheNextTwoWords : Obligations.PoppedPairIsTheNextTwoWords := by
  intro s h hl
  match hc : s.ch, hl with
  | w0 :: w1 :: ws, _ =>
    have second : (s.afterPop .roll w0 (w1 :: ws)).ch = w1 :: ws := rfl
    exact ⟨_, _, w0, w1, exec_pop_of_cons .roll hc, exec_pop_of_cons .pitch second,
      (h.histPush_getElem? 0).trans (by rw [hc]; rfl), (h.histPush_getElem? 1).trans (by rw [hc]; rfl), rfl, rfl,
      List.append_assoc ..⟩

/-! ## Holds (42_channel.md R186, R191) -/

/-- Settles O41: on a full channel the value of the register decides between the hold and the refusal. -/
theorem heldOperationsChangeNothing : Obligations.HeldOperationsChangeNothing := by
  refine fun s => ⟨fun full => ⟨fun w => congrArg Host.Outcome.next (pushWord_of_full w full), fun sel => ?push⟩,
    fun empty sel => execPop_of_empty sel empty⟩
  change exec (.push sel) s = match s.a.wm sel with
    | some _ => .next s
    | none => .refused (.readBeforeWrite (wmRegOf sel))
  cases hq : s.a.wm sel with
  | some q => rw [exec_push_of_some hq, pushWord_of_full _ full]
  | none => exact exec_push_of_none hq

/-- Settles O44: a held unit A finds the channel full, a held unit B finds it empty. -/
theorem holdsExcludeEachOther : Obligations.HoldsExcludeEachOther := by
  rintro s hd ⟨hA, hB⟩
  have full := (heldA_full hA).2
  rw [(heldB_empty hB).2] at full
  exact absurd (hd.trans full) (by decide)

section
variable {s : State}

theorem held_A_of_room (h : s.ch.length < s.params.chDepth) : s.held .A = false := by
  by_contra held
  exact absurd (heldA_full (Bool.of_not_eq_false held)).2 (Nat.not_le.2 h)

theorem held_B_of_ne_nil (h : s.ch ≠ []) : s.held .B = false := by
  by_contra held
  exact h (heldB_empty (Bool.of_not_eq_false held)).2

/-- A channel that holds up unit A has a word to pop. -/
theorem Inv.exists_cons_of_held_A (h : Inv s) (hA : s.held .A = true) : ∃ w ws, s.ch = w :: ws :=
  List.exists_cons_of_ne_nil fun empty => by
    have full := (heldA_full hA).2
    rw [empty] at full
    exact absurd (h.depth_pos.trans full) (by decide)

/-- A channel that holds up unit B has room for a word. -/
theorem Inv.room_of_held_B (h : Inv s) (hB : s.held .B = true) : s.ch.length < s.params.chDepth := by
  rw [(heldB_empty hB).2]
  exact h.depth_pos

/-- A word pushed where there is room leaves nothing for unit B to wait for. -/
theorem held_B_of_pushWord (w : Word) (h : s.ch.length < s.params.chDepth) : (pushWord w s).held .B = false := by
  rw [pushWord_of_room w h]
  exact held_B_of_ne_nil (by simp)

end

/-- Settles O45: a `POP` takes a word from the full channel, a push puts one into the empty channel. -/
theorem theOtherUnitLiftsTheHold : Obligations.TheOtherUnitLiftsTheHold := by
  refine fun s h => ⟨fun hA sel => ?pop, fun hB w => ?pushi, fun hB sel hq => ?push⟩
  case pop =>
    obtain ⟨w, ws, hc⟩ := h.exists_cons_of_held_A hA
    refine ⟨_, exec_pop_of_cons sel hc, held_A_of_room (Nat.lt_of_succ_le ?_)⟩
    have level := h.level
    rwa [hc] at level
  case pushi => exact ⟨_, exec_pushi w, held_B_of_pushWord w (h.room_of_held_B hB)⟩
  case push =>
    obtain ⟨q, hq⟩ := Option.isSome_iff_exists.1 hq
    exact ⟨_, exec_push_of_some (sel := sel) hq, held_B_of_pushWord q (h.room_of_held_B hB)⟩

/-! ## Holds in fair runs (42_channel.md R191; 20_memory.md R77) -/

/-- The word that the push operation `i` pushes in a state with unit A's group `a` (42_channel.md R182, R183). -/
def PushesWord (a : UnitA) (i : Instr) (w : Word) : Prop :=
  i = .pushi w ∨ ∃ sel, i = .push sel ∧ a.wm sel = some w

/-- An enabled unit A at a push completes it. -/
theorem exec_push_of_enabled {s t : State} {i : Instr} (he : s.enabled .A = true) (hi : s.nextOp .A = some i)
    (push : (∃ sel, i = .push sel) ∨ ∃ w, i = .pushi w) (hx : exec i s = .next t) :
    ∃ w, t.ghost.histPush = s.ghost.histPush ++ [w] ∧ PushesWord s.a i w := by
  have free : s.held .A = false := by simpa using (Bool.and_eq_true_iff.1 he).2
  rcases push with ⟨sel, rfl⟩ | ⟨w, rfl⟩
  · obtain ⟨q, hq, rfl⟩ := execPush_next hx
    have room : s.chHasRoom = true := by simpa [State.held, hi, hq] using free
    rw [pushWord_of_room _ (chHasRoom_iff.1 room)]
    exact ⟨q, rfl, .inr ⟨sel, rfl, hq⟩⟩
  · cases hx
    have room : s.chHasRoom = true := by simpa [State.held, hi] using free
    rw [pushWord_of_room _ (chHasRoom_iff.1 room)]
    exact ⟨w, rfl, .inl rfl⟩

section
variable {sched : Nat → UnitId} {σ : Nat → State} {n : Nat}

/-- A `POP` leaves unit A, held before, enabled at the same push. -/
theorem IsRun.enabled_A_of_pop (h : IsRun sched σ) (level : (σ n).ch.length ≤ (σ n).params.chDepth)
    (hr : (σ n).a.st = .run) (pop : (σ (n + 1)).ghost.histPop ≠ (σ n).ghost.histPop) :
    (σ (n + 1)).enabled .A = true ∧ (σ (n + 1)).a = (σ n).a ∧ (σ (n + 1)).params = (σ n).params ∧
      (σ (n + 1)).ghost.histPush = (σ n).ghost.histPush := by
  have hs := h.steps n
  cases hu : sched n with
  | A =>
    rw [hu] at hs
    obtain ⟨-, -, -, same, -⟩ := offered_A (h.noFrameAt n) hs
    exact absurd same pop
  | B =>
    rw [hu] at hs
    obtain ⟨-, hp, ha, hpush, ws, hc, hpop⟩ := offered_B (h.noFrameAt n) hs
    have taken : 0 < ws.length := List.length_pos_iff.2 fun hw => pop (by simpa [hw] using hpop)
    have room : (σ (n + 1)).ch.length < (σ (n + 1)).params.chDepth := by
      rw [hc, List.length_append] at level
      rw [hp]
      omega
    exact ⟨by simp [State.enabled, State.running, ha, hr, held_A_of_room room], ha, hp, hpush⟩

/-- A push of `w` into the empty channel leaves unit B enabled at the same operation, with `w` to pop. -/
theorem IsRun.enabled_B_of_push (h : IsRun sched σ) (empty : (σ n).ch = []) (hr : (σ n).b.st = .run) {w : Word}
    (push : (σ (n + 1)).ghost.histPush = (σ n).ghost.histPush ++ [w]) :
    (σ (n + 1)).enabled .B = true ∧ (σ (n + 1)).b = (σ n).b ∧ (σ (n + 1)).params = (σ n).params ∧
      (σ (n + 1)).ghost.histPop = (σ n).ghost.histPop ∧ (σ (n + 1)).ch = [w] := by
  have hs := h.steps n
  cases hu : sched n with
  | B =>
    rw [hu] at hs
    obtain ⟨-, -, -, same, -⟩ := offered_B (h.noFrameAt n) hs
    simp [same] at push
  | A =>
    rw [hu] at hs
    obtain ⟨-, hp, hb, hpop, ws, hc, hpush⟩ := offered_A (h.noFrameAt n) hs
    obtain rfl : [w] = ws := List.append_cancel_left (push.symm.trans hpush)
    rw [empty] at hc
    exact ⟨by simp [State.enabled, State.running, hb, hr, held_B_of_ne_nil, hc], hb, hp, hpop, hc⟩

/-- At its first turn from `n` on, an enabled unit performs the operation it was at. -/
theorem IsRun.exec_first_turn (h : IsRun sched σ) {u : UnitId} {k : Nat} (hu : sched (n + k) = u)
    (first : ∀ j, n ≤ j → j < n + k → sched j ≠ u) (he : (σ n).enabled u = true) {i : Instr}
    (hi : (σ n).nextOp u = some i) :
    (σ (n + k)).enabled u = true ∧ (σ (n + k)).nextOp u = some i ∧ exec i (σ (n + k)) = .next (σ (n + k + 1)) := by
  obtain ⟨hen, hop, -⟩ := h.keepsEnabled first he
  have hs := h.steps (n + k)
  rw [hu, step_offered_of_nextOp (h.noFrameAt _) (Bool.and_eq_true_iff.1 hen).1 (hop.trans hi)] at hs
  exact ⟨hen, hop.trans hi, hs⟩

end

/-- Settles O58: one step of the other unit leaves the held one enabled (`IsRun.enabled_A_of_pop`,
`IsRun.enabled_B_of_push`); at its first turn after that its own group is as it was, and it completes. -/
theorem fairRunsCompleteHeldOperations : Obligations.FairRunsCompleteHeldOperations := by
  refine fun sched σ h fair n inv => ⟨fun held hr pop => ?A, fun held hr w push => ?B⟩
  case A =>
    obtain ⟨he, ha, hp, hpush⟩ := h.enabled_A_of_pop inv.level hr pop
    obtain ⟨k, hu, first⟩ := h.exists_first_turn fair he
    obtain ⟨ha', -, hpush', -⟩ := h.keepsA k fun j hj hk => unit_eq_B_of_ne_A (first j hj hk)
    obtain ⟨i, hi, atPush⟩ : ∃ i, (σ n).nextOp .A = some i ∧ ((∃ sel, i = .push sel) ∨ ∃ w, i = .pushi w) := by
      rcases (heldA_full held).1 with ⟨sel, hi⟩ | ⟨w, hi⟩
      · exact ⟨_, hi, .inl ⟨sel, rfl⟩⟩
      · exact ⟨_, hi, .inr ⟨w, rfl⟩⟩
    obtain ⟨hen, hop, hx⟩ := h.exec_first_turn hu first he ((nextOp_A_congr hp ha).trans hi)
    obtain ⟨w, pushed, word⟩ := exec_push_of_enabled hen hop atPush hx
    rw [hpush', hpush] at pushed
    rw [ha', ha] at word
    refine ⟨n + 1 + k, w, by omega, hu, pushed, ?_⟩
    rw [hi]
    rcases word with rfl | ⟨_ | _, rfl, hw⟩
    · exact .inl rfl
    · exact .inr (.inl ⟨rfl, hw⟩)
    · exact .inr (.inr ⟨rfl, hw⟩)
  case B =>
    obtain ⟨⟨sel, hi⟩, empty⟩ := heldB_empty held
    obtain ⟨he, hb, hp, hpop, hc⟩ := h.enabled_B_of_push empty hr push
    obtain ⟨k, hu, first⟩ := h.exists_first_turn fair he
    obtain ⟨-, -, hpop', ⟨vs, hc'⟩, -⟩ := h.keepsB k fun j hj hk => unit_eq_A_of_ne_B (first j hj hk)
    obtain ⟨-, -, hx⟩ := h.exec_first_turn hu first he ((nextOp_B_congr hp hb).trans hi)
    rw [hc] at hc'
    rw [exec_pop_of_cons sel hc', Host.Outcome.next.injEq] at hx
    refine ⟨n + 1 + k, by omega, hu, ?_⟩
    rw [← hx, ← hpop, ← hpop']
    rfl

end Sys2Proof.Machine
end

section
/-! PROOFS. The sequencers (43_sequencers.md): which operation a turn performs, the four operations that only record an
event, the parity of the indicator and the text of an angle. -/

namespace Sys2Proof.Machine

/-! ## The turn of a unit (43_sequencers.md R211) -/

section
variable {s : State} {u : UnitId}

@[simp] theorem dropTurn_nextOp (s : State) (u : UnitId) : s.dropTurn.nextOp u = s.nextOp u := by
  simp [State.nextOp]

@[simp] theorem dropTurn_held (s : State) (u : UnitId) : s.dropTurn.held u = s.held u := by
  rw [State.held, dropTurn_nextOp]
  rfl

theorem nextOp_of_decodeAt {c : Cmd} {i : Instr} (hc : s.fetch u = some c) (hd : decodeAt u c = .ok i) :
    s.nextOp u = some i := by
  simp [State.nextOp, hc, hd, Except.toOption]

/-- On its turn a running unit performs its next operation, after the draw of the turn. -/
theorem step_of_nextOp {i : Instr} (h : s.turnOf u) (hr : s.running u = true) (hi : s.nextOp u = some i) :
    step s = exec i s.dropTurn := by
  rw [step_eq_offered h]
  exact step_offered_of_nextOp h.1 ((dropTurn_running s u).trans hr) ((dropTurn_nextOp s u).trans hi)

theorem step_of_idle (h : s.turnOf u) (hr : s.running u = false) : step s = .next s.dropTurn := by
  rw [step_eq_offered h]
  exact step_offered_of_idle h.1 ((dropTurn_running s u).trans hr)

/-- The operation at which a unit is held changes nothing (42_channel.md R186). -/
theorem exec_of_held (h : s.held u = true) : ∃ i, s.nextOp u = some i ∧ exec i s = .next s := by
  unfold State.held at h
  split at h
  case h_1 sel hi =>
    obtain ⟨value, full⟩ := Bool.and_eq_true_iff.1 h
    obtain ⟨q, hq⟩ := Option.isSome_iff_exists.1 value
    rw [Bool.not_eq_true', chHasRoom_eq_false_iff] at full
    exact ⟨_, hi, by rw [exec_push_of_some hq, pushWord_of_full _ full]⟩
  case h_2 w hi =>
    rw [Bool.not_eq_true', chHasRoom_eq_false_iff] at h
    exact ⟨_, hi, by rw [exec_pushi, pushWord_of_full _ h]⟩
  case h_3 sel hi => exact ⟨_, hi, execPop_of_empty sel (chEmpty_iff.1 h)⟩
  case h_4 => cases h

theorem step_of_held (h : s.turnOf u) (hr : s.running u = true) (held : s.held u = true) :
    step s = .next s.dropTurn := by
  obtain ⟨i, hi, hx⟩ := exec_of_held ((dropTurn_held s u).trans held)
  rw [step_of_nextOp h hr ((dropTurn_nextOp s u).symm.trans hi), hx]

end

/-- Settles O9: one lemma for each of the four states of the unit whose turn it is. -/
theorem stepRunsTheFetchedCommand : Obligations.StepRunsTheFetchedCommand := fun _ _ h =>
  ⟨fun _ _ hr hc hd => step_of_nextOp h hr (nextOp_of_decodeAt hc hd), fun _ _ => step_of_illegal h, step_of_held h,
    step_of_idle h⟩

/-! ## `WAIT`, `DIAG`, `TOGGLE` and `REDRAW` (43_sequencers.md R212, R214, R216, R218) -/

/-- Settles O46: both operations are one event of unit A and an advance. -/
theorem waitAndDiagRecordTheirEvent : Obligations.WaitAndDiagRecordTheirEvent := by
  rintro s i e (⟨n, rfl, rfl⟩ | ⟨rfl, rfl⟩)
  all_goals exact ⟨_, rfl, advanceA_advanced _ (s.emitA _) rfl rfl rfl, fun _ => rfl, rfl⟩

/-- Settles O47: the level written and the level emitted are the one inverted level, and the index advances. -/
theorem toggleInvertsTheIndicator : Obligations.ToggleInvertsTheIndicator := fun _ =>
  ⟨_, rfl, advanceB_advanced _ _ rfl rfl rfl, fun _ => rfl, rfl⟩

theorem exec_redraw_of_angles {s : State} {r p : F32} (hr : s.b.roll = some r) (hp : s.b.pitch = some p) :
    exec .redraw s = .next (s.emitB (.redraw (fmt1 r) (fmt1 p))).advanceB :=
  (withReg_of_some .rollB hr _).trans (withReg_of_some .pitchB hp _)

/-- Settles O49: past the two reads `REDRAW` emits the two texts, and advances. -/
theorem redrawHandsOverBothTexts : Obligations.RedrawHandsOverBothTexts := fun _ _ _ hr hp =>
  ⟨_, exec_redraw_of_angles hr hp, advanceB_advanced _ _ rfl rfl rfl, fun _ => rfl, rfl⟩

/-! ## The indicator (43_sequencers.md R216) -/

/-- The parity is a property of unit B's group and its events. -/
theorem IndicatorParity.congr {s t : State} (h : IndicatorParity s) (hb : t.b = s.b)
    (ht : t.ghost.traceB = s.ghost.traceB) : IndicatorParity t := by
  rwa [IndicatorParity, hb, ht]

/-- An advance of `pc_B` neither toggles nor emits. -/
theorem StepsB.indicator {s t : State} (h : StepsB s t) (hi : IndicatorParity s) : IndicatorParity t := by
  obtain ⟨m, e, rfl | rfl⟩ := h
  all_goals exact e.indicator hi

/-- Settles O48: no toggle has happened at reset, and of the steps only those of unit B change the level or its events
(`step_effects`). -/
theorem indicatorShowsToggleParity : Obligations.IndicatorShowsToggleParity := by
  refine ⟨rfl, fun s t hi h => ?_⟩
  obtain ⟨m, hm, h⟩ := step_effects h
  have drawn : IndicatorParity m := by rw [hm]; exact hi
  rcases h with rfl | ⟨hA, -⟩ | ⟨hB, -⟩
  · exact drawn
  · obtain ⟨-, hb, ht, -⟩ := hA.leaves_B
    exact drawn.congr hb ht
  · exact hB.indicator drawn

/-! ## The text of an angle (43_sequencers.md R217) -/

/-- The test of a text, in twentieths of a unit, as a bound on the difference of the two numbers. -/
theorem textAllowed_iff {v : F32} {d : OneDecimal} :
    textAllowed v d = true ↔ |(tenthsOf d : ℚ) / 10 - realOf v| ≤ 1 / 20 := by
  have one := unitsPerOne_pos
  have pos : (0 : ℚ) < 20 * unitsPerOne := by positivity
  have scaled : ((20 * units v - 2 * tenthsOf d * unitsPerOne : ℤ) : ℚ) =
      (realOf v - tenthsOf d / 10) * (20 * unitsPerOne) := by
    rw [realOf]
    push_cast
    field_simp
    ring
  have half : (unitsPerOne : ℚ) / (20 * unitsPerOne) = 1 / 20 := by field_simp
  rw [textAllowed, decide_eq_true_iff, ← Nat.cast_le (α := ℚ), Nat.cast_natAbs, Int.cast_abs, scaled, abs_mul,
    abs_of_pos pos, abs_sub_comm, ← le_div_iff₀ pos, half]

/-- The characters of a text before its point and its last digit are an optional minus sign and digits. -/
theorem text_toList (d : OneDecimal) : (OneDecimal.text d).toList =
    (if d.minus then ['-'] else []) ++ (d.lead :: d.more).map digitChar ++ ['.', digitChar d.tenth] :=
  String.toList_ofList

theorem fmt1_of_finite {v : F32} (h : isFinite v = true) : fmt1 v = OneDecimal.text (oneDecimal v) := if_pos h

/-- Settles O50: the text is that of `oneDecimal v`, which passes the test of R217 (`oneDecimal_allowed`). -/
theorem textIsWithinHalfATenth : Obligations.TextIsWithinHalfATenth := by
  refine fun v hv => ⟨oneDecimal v, fmt1_of_finite hv, ⟨_, text_toList _, List.cons_ne_nil _ _, fun c hc => ?_⟩,
    textAllowed_iff.1 (oneDecimal_allowed hv)⟩
  obtain ⟨n, -, rfl⟩ := List.mem_map.1 hc
  exact ⟨n, rfl⟩

end Sys2Proof.Machine
end

section
/-! PROOFS. Exceptions (60_exceptions.md): the labels of the table, the one fault and the stall it leaves, the states in
which no unit has a step, and the canonical loops, which no refusal reaches. `CanonInv` falls apart into a half for each
unit (`CanonA`, `CanonB`); an operation of one unit leaves the other's half as it is, so each command of a loop has one
lemma, about its own half. -/

namespace Sys2Proof.Machine

/-! ## Faults and refusals (60_exceptions.md R241 to R244) -/

/-- Settles O56: every row of the table is the definition of its label or code. -/
theorem faultsAndRefusalsCarryTheirLabels : Obligations.FaultsAndRefusalsCarryTheirLabels :=
  ⟨rfl, fun _ => ⟨rfl, rfl⟩, fun _ => rfl, fun _ _ => rfl, fun _ => rfl, rfl, rfl, fun _ => rfl⟩

/-- Settles O19: the five writes fail by `runWrite_of_nack`, the three reads by `runRead_of_nack`. -/
theorem busErrorStallsUnitA : Obligations.BusErrorStallsUnitA := by
  intro s i e he nack
  cases i <;> cases he
  case bwPwrReset | bwPwrRun | bwPtrAccel | bwPtrGyro | bwPtrTemp =>
    exact ⟨_, congrArg Host.Outcome.next (runWrite_of_nack _ _ nack), fun _ => rfl, rfl⟩
  case brAccel | brGyro | brTemp =>
    exact ⟨_, congrArg Host.Outcome.next (runRead_of_nack _ _ nack), fun _ => rfl, rfl⟩

/-- No operation of unit A clears `bus_fault`. -/
theorem StepsA.busFault {s t : State} (h : StepsA s t) (hf : s.a.busFault = true) : t.a.busFault = true := by
  obtain ⟨m, e, ht⟩ := h
  have kept : m.a.busFault = true := by
    rcases e.status with ⟨-, same⟩ | ⟨-, set⟩
    · exact same.trans hf
    · exact set
  rcases ht with rfl | ⟨rfl, -⟩
  all_goals exact kept

/-- Settles O20: a step is a draw alone, an operation of unit A while it runs, or one of unit B (`step_effects`), which
leaves unit A alone (`StepsB.leaves_A`). -/
theorem stallIsForEver : Obligations.StallIsForEver := by
  intro s t h
  obtain ⟨m, hm, h⟩ := step_effects h
  generalize m.inp.turns = turns, m.inp.busReq = req at hm
  subst hm
  rcases h with rfl | ⟨hA, run, -⟩ | ⟨hB, -⟩
  · exact ⟨id, fun _ => ⟨rfl, rfl, rfl, rfl⟩⟩
  · exact ⟨hA.busFault, fun stalled => absurd (run.symm.trans stalled) nofun⟩
  · obtain ⟨-, ha, hz, htr, hpush, -⟩ := hB.leaves_A
    exact ⟨fun hf => ha ▸ hf, fun _ => ⟨ha, hz, htr, hpush⟩⟩

/-! ## States without a step (60_exceptions.md R261) -/

/-- A unit without a step does not run or is held. -/
theorem enabled_eq_false_iff {s : State} {u : UnitId} :
    s.enabled u = false ↔ (s.running u = true → s.held u = true) := by
  simp [State.enabled]

/-- A turn of a unit without a step changes nothing but the draw (logs 6, 11). -/
theorem step_of_not_enabled {s : State} {u : UnitId} (h : s.turnOf u) (he : s.enabled u = false) :
    step s = .next s.dropTurn := by
  cases hr : s.running u with
  | false => exact step_of_idle h hr
  | true => exact step_of_held h hr (enabled_eq_false_iff.1 he hr)

theorem quiescent_iff {s : State} : s.quiescent = true ↔ ∀ u, s.enabled u = false := by
  rw [State.quiescent, Bool.and_eq_true, Bool.not_eq_true', Bool.not_eq_true']
  exact ⟨fun h u => u.casesOn h.1 h.2, fun h => ⟨h .A, h .B⟩⟩

/-- Settles O55: a unit that runs is held, unit A by a full channel and unit B by an empty one (`heldA_full`,
`heldB_empty`), which the channel cannot be at once. -/
theorem quiescentStatesAreTheTable : Obligations.QuiescentStatesAreTheTable := by
  intro s inv hq
  have idle := quiescent_iff.1 hq
  refine ⟨?table, fun hf => step_of_not_enabled ⟨hf, rfl⟩ (idle s.nextTurn)⟩
  have heldA (run : s.a.st = .run) : s.held .A = true := enabled_eq_false_iff.1 (idle .A) (by simp [State.running, run])
  have heldB (run : s.b.st = .run) : s.held .B = true := enabled_eq_false_iff.1 (idle .B) (by simp [State.running, run])
  cases hA : s.a.st with
  | run =>
    obtain ⟨op, full⟩ := heldA_full (heldA hA)
    cases hB : s.b.st with
    | run => exact absurd ⟨heldA hA, heldB hB⟩ (holdsExcludeEachOther s inv.depth_pos)
    | done => exact .inr (.inr (.inl ⟨rfl, rfl, op, le_antisymm inv.level full⟩))
  | stalled =>
    cases hB : s.b.st with
    | run => exact .inl ⟨rfl, rfl, heldB_empty (heldB hB)⟩
    | done => exact .inr (.inr (.inr (.inr ⟨rfl, rfl⟩)))
  | done =>
    cases hB : s.b.st with
    | run => exact .inr (.inl ⟨rfl, rfl, heldB_empty (heldB hB)⟩)
    | done => exact .inr (.inr (.inr (.inl (by simp [State.final, hA, hB]))))

/-! ## The canonical loops (30_encoding.md R110; 43_sequencers.md R220, R223) -/

/-- The operations of the two canonical programs, in order. -/
def canonicalOps : UnitId → List Instr
  | .A => [.sreset, .sread, .orient, .encode, .push .roll, .push .pitch, .diag, .wait 250]
  | .B => [.pop .roll, .pop .pitch, .decode, .toggle, .redraw]

theorem canonicalCmds_decoded :
    (Config.canonicalProgA.cmds.map fun c => (decodeAt .A c).toOption) = (canonicalOps .A).map some ∧
      (Config.canonicalProgB.cmds.map fun c => (decodeAt .B c).toOption) = (canonicalOps .B).map some := by
  decide

/-- A program that decodes to a list of operations is at the operation of its index. -/
theorem nextOp_of_decoded {s : State} {u : UnitId} {ops : List Instr}
    (h : ((s.params.prog u).cmds.map fun c => (decodeAt u c).toOption) = ops.map some) :
    s.nextOp u = ops[s.pc u]? := by
  have at_pc := congrArg (fun l => l[s.pc u]?.bind id) h
  simpa [State.nextOp, State.fetch, Option.bind_map, Function.comp_def] using at_pc

/-- The half of `CanonInv` about unit A and the words it has pushed. -/
structure CanonA (a : UnitA) (pushed : List Word) : Prop where
  st : a.st ≠ .done
  driver : a.drv = .uninit ↔ a.pc = 0
  sample : 2 ≤ a.pc → a.ax.isSome ∧ a.ay.isSome ∧ a.az.isSome
  angles : 3 ≤ a.pc → ∃ r p, a.roll = some r ∧ a.pitch = some p ∧ InRange r ∧ InRange p
  message : 4 ≤ a.pc → a.wmRoll.isSome ∧ a.wmPitch.isSome
  parity : pushed.length % 2 = if a.pc = 5 then 1 else 0

/-- The half of `CanonInv` about unit B and the words it has popped. -/
structure CanonB (b : UnitB) (popped : List Word) : Prop where
  st : b.st = .run
  decoded : 3 ≤ b.pc → b.roll.isSome ∧ b.pitch.isSome
  parity : popped.length % 2 = if b.pc = 1 then 1 else 0
  popped1 : b.pc = 1 → ∃ h r, popped = h ++ [r] ∧ b.rxRoll = some (asS32 r)
  popped2 : 2 ≤ b.pc → ∃ h r p, popped = h ++ [r, p] ∧ b.rxRoll = some (asS32 r) ∧ b.rxPitch = some (asS32 p)

theorem canonInv_iff {s : State} : CanonInv s ↔
    Inv s ∧ s.params.progA = Config.canonicalProgA ∧ s.params.progB = Config.canonicalProgB ∧ s.inp.busReq = none ∧
      CanonA s.a s.ghost.histPush ∧ CanonB s.b s.ghost.histPop :=
  ⟨fun h => ⟨h.inv, h.progA, h.progB, h.noFrame,
      ⟨h.stA, h.driver, h.sample, h.angles, h.message, h.pushParity⟩,
      ⟨h.stB, h.decoded, h.popParity, h.popped1, h.popped2⟩⟩,
    fun ⟨inv, progA, progB, noFrame, a, b⟩ =>
      ⟨inv, progA, progB, noFrame, a.st, b.st, a.driver, a.sample, a.angles, a.message, b.decoded, a.parity, b.parity,
        b.popped1, b.popped2⟩⟩

/-! ## The commands of unit A in the canonical loop (43_sequencers.md R220) -/

/-- The operation answers a next state, and unit A's half of the invariant holds there. -/
def KeepsCanonA (i : Instr) (s : State) : Prop := ∃ t, exec i s = .next t ∧ CanonA t.a t.ghost.histPush

/-- An angle of `ORIENT` is in the domain of the quantizer (41_orientation_encoder.md R159). -/
theorem inRange_iff {v : F32} : InRange v ↔ isFinite v = true ∧ |realOf v| ≤ 180 := by
  have hi := realOf_le_iff (v := v) 180
  have lo := le_realOf_iff (v := v) (-180)
  rw [neg_mul] at lo
  push_cast at hi lo
  rw [InRange, abs_le, hi, lo, and_comm (a := -_ ≤ _)]

section
variable {a : UnitA} {pushed : List Word}

/-- Whole messages have been pushed, but between the two `PUSH`. -/
theorem CanonA.even (h : CanonA a pushed) (hpc : a.pc ≠ 5) : pushed.length % 2 = 0 := by
  simpa [hpc] using h.parity

/-- Past `SRESET` the driver stays ready at every later index. -/
theorem CanonA.driver_of_pos (h : CanonA a pushed) {k : Nat} (hpc : 0 < a.pc) (hk : 0 < k) : a.drv = .uninit ↔ k = 0 :=
  ⟨fun hd => absurd (h.driver.1 hd) hpc.ne', fun h0 => absurd h0 hk.ne'⟩

theorem CanonA.ready (h : CanonA a pushed) (hpc : 0 < a.pc) : a.drv = .ready := by
  cases hd : a.drv with
  | uninit => exact absurd (h.driver.1 hd) hpc.ne'
  | ready => rfl

/-- Before `ORIENT` no register has to hold a value. -/
theorem canonA_of_pc_le_one (hpc : a.pc ≤ 1) (st : a.st ≠ .done) (driver : a.drv = .uninit ↔ a.pc = 0)
    (even : pushed.length % 2 = 0) : CanonA a pushed where
  st := st
  driver := driver
  sample h := by omega
  angles h := by omega
  message h := by omega
  parity := by rw [even, if_neg (by omega)]

/-- After `SREAD` the index is 2 and the sample is there; the driver and the status are as they were. -/
theorem CanonA.sampled {a' : UnitA} (h : CanonA a pushed) (hpc : a.pc = 1) (hpc' : a'.pc = 2) (st : a'.st = a.st)
    (drv : a'.drv = a.drv) (sample : a'.ax.isSome ∧ a'.ay.isSome ∧ a'.az.isSome) : CanonA a' pushed where
  st := st ▸ h.st
  driver := by rw [drv, hpc']; exact h.driver_of_pos (by omega) (by decide)
  sample _ := sample
  angles h3 := by omega
  message h4 := by omega
  parity := by rw [hpc']; exact h.even (by omega)

/-- Past `ENCODE` every register holds a value, so the index can go anywhere but back to `SRESET`. -/
theorem CanonA.goto (h : CanonA a pushed) (late : 4 ≤ a.pc) {k : Nat} (hk : 0 < k) {pushed' : List Word}
    (parity : pushed'.length % 2 = if k = 5 then 1 else 0) : CanonA { a with pc := k } pushed' where
  st := h.st
  driver := h.driver_of_pos (by omega) hk
  sample _ := h.sample (by omega)
  angles _ := h.angles (by omega)
  message _ := h.message late
  parity := parity

end

section
variable {s : State} {i : Instr}

/-- Of transfers not all acknowledged there is a first one that is not. -/
theorem exists_first_nack {n : Nat} (h : ¬ ∀ k < n, s.ackAt k = true) :
    ∃ k < n, (∀ j < k, s.ackAt j = true) ∧ s.ackAt k = false := by
  have nacked : ∃ k, k < n ∧ s.ackAt k = false := by simpa using h
  obtain ⟨hk, nack⟩ := Nat.find_spec nacked
  exact ⟨_, hk, fun j hj => Bool.of_not_eq_false fun hn => Nat.find_min nacked hj ⟨hj.trans hk, hn⟩, nack⟩

theorem advanceA_a_of_next {j : Nat} (h : nextIndex s.params.progA s.a.pc = some j) :
    s.advanceA.a = { s.a with pc := j } := by
  simp [h]

/-- An operation of the loop that completes at index `k` goes on at the index after it. -/
theorem KeepsCanonA.of_complete {m : State} {k j : Nat} (he : exec i s = .next m.advanceA)
    (hp : m.params.progA = Config.canonicalProgA) (hk : m.a.pc = k) (hj : nextIndex Config.canonicalProgA k = some j)
    (h : CanonA { m.a with pc := j } m.ghost.histPush) : KeepsCanonA i s := by
  refine ⟨_, he, ?_⟩
  rw [advanceA_a_of_next (by rw [hp, hk, hj])]
  exact h

/-- A fault at index 0 or 1 leaves the index, the driver and the words pushed. -/
theorem KeepsCanonA.of_stall {t : State} (h : CanonA s.a s.ghost.histPush) (hpc : s.a.pc ≤ 1) (he : exec i s = .next t)
    (st : t.a.st = .stalled) (pc : t.a.pc = s.a.pc) (drv : t.a.drv = s.a.drv)
    (pushed : t.ghost.histPush = s.ghost.histPush) : KeepsCanonA i s :=
  ⟨t, he, canonA_of_pc_le_one (pc ▸ hpc) (by rw [st]; nofun) (by rw [drv, pc]; exact h.driver)
    (by rw [pushed]; exact h.even (by omega))⟩

variable (hp : s.params.progA = Config.canonicalProgA) (h : CanonA s.a s.ghost.histPush)
include hp h

theorem keepsCanonA_sreset (hpc : s.a.pc = 0) : KeepsCanonA .sreset s := by
  have uninit := h.driver.2 hpc
  cases h0 : s.ackAt 0 with
  | false =>
    obtain ⟨t, he, ht⟩ := sresetFaultStallsUnitA.1 s uninit h0
    exact .of_stall h (by omega) he (by rw [ht]) (by rw [ht]) (by rw [ht]) (by rw [ht])
  | true =>
    cases h1 : s.ackAt 1 with
    | false =>
      obtain ⟨t, he, -, -, -, ht⟩ := sresetFaultStallsUnitA.2 s uninit h0 h1
      exact .of_stall h (by omega) he (by rw [ht]) (by rw [ht]) (by rw [ht]) (by rw [ht])
    | true =>
      have second : (resetHeld s).nextAck = true := h1
      have he := exec_sreset_of_uninit uninit
      rw [sresetTransfers_of_ack h0, memWrite, busWrite_of_ack _ _ _ second, BusOutcome.finish, sresetDone] at he
      exact .of_complete (j := 1) he hp hpc rfl
        (canonA_of_pc_le_one le_rfl h.st ⟨nofun, nofun⟩ (h.even (by omega)))

theorem keepsCanonA_sread (hpc : s.a.pc = 1) : KeepsCanonA .sread s := by
  have ready := h.ready (by omega)
  by_cases acks : ∀ k < (if s.params.readUnused then 6 else 2), s.ackAt k = true
  · have he := exec_sread_of_ready ready
    cases hu : s.params.readUnused with
    | false =>
      rw [hu] at acks
      rw [sreadTransfers_without_unused hu (acks 0 (by decide)) (acks 1 (by decide))] at he
      exact .of_complete (m := s.afterAccel) (j := 2) he hp hpc rfl (h.sampled hpc rfl rfl rfl ⟨rfl, rfl, rfl⟩)
    | true =>
      rw [hu] at acks
      rw [sreadTransfers_of_gyro_ack hu fun j hj => acks j (hj.trans (by decide)),
        readTemp_of_ack (acks 4 (by decide)) (acks 5 (by decide))] at he
      exact .of_complete (m := s.afterTemp) (j := 2) he hp hpc rfl (h.sampled hpc rfl rfl rfl ⟨rfl, rfl, rfl⟩)
  · obtain ⟨k, hk, acks, nack⟩ := exists_first_nack acks
    obtain ⟨t, he, -, ht⟩ := sreadFaultKeepsEarlierGroups s k ready hk acks nack
    exact .of_stall h hpc.le he (by rw [ht]) (by rw [ht]) (by rw [ht]) (by rw [ht])

theorem keepsCanonA_orient (hpc : s.a.pc = 2) : KeepsCanonA .orient s := by
  obtain ⟨hx, hy, hz⟩ := h.sample hpc.ge
  obtain ⟨x, hx⟩ := Option.isSome_iff_exists.1 hx
  obtain ⟨y, hy⟩ := Option.isSome_iff_exists.1 hy
  obtain ⟨z, hz⟩ := Option.isSome_iff_exists.1 hz
  obtain ⟨finY, finX⟩ := pitch_operands_finite x y z
  obtain ⟨finR, rangeR, -⟩ := atan2deg_range (isFinite_normCount y) (isFinite_normCount z)
  obtain ⟨finP, rangeP, -⟩ := atan2deg_range finY finX
  exact .of_complete (j := 3) (exec_orient_of_sample hx hy hz) hp hpc rfl { h with
    driver := h.driver_of_pos (k := 3) (by omega) (by decide)
    sample := fun _ => h.sample hpc.ge
    angles := fun _ => ⟨_, _, rfl, rfl, inRange_iff.2 ⟨finR, rangeR⟩, inRange_iff.2 ⟨finP, rangeP⟩⟩
    message := nofun
    parity := h.even (by omega) }

theorem keepsCanonA_encode (hpc : s.a.pc = 3) : KeepsCanonA .encode s := by
  obtain ⟨r, p, hr, hq, rangeR, rangeP⟩ := h.angles hpc.ge
  obtain ⟨finR, rangeR⟩ := inRange_iff.1 rangeR
  obtain ⟨finP, rangeP⟩ := inRange_iff.1 rangeP
  obtain ⟨qr, hqr, -⟩ := quantize_angle finR rangeR
  obtain ⟨qp, hqp, -⟩ := quantize_angle finP rangeP
  have he := exec_encode_of_angles hr hq
  rw [withQuantized_of_some hqr, withQuantized_of_some hqp] at he
  exact .of_complete (j := 4) he hp hpc rfl { h with
    driver := h.driver_of_pos (k := 4) (by omega) (by decide)
    sample := fun _ => h.sample (by omega)
    angles := fun _ => h.angles hpc.ge
    message := fun _ => ⟨rfl, rfl⟩
    parity := h.even (by omega) }

/-- The two `PUSH` of the loop, whichever register each sends: on a full channel they are held. -/
theorem keepsCanonA_push (sel : Sel) (hpc : s.a.pc = 4 ∨ s.a.pc = 5) : KeepsCanonA (.push sel) s := by
  have late : 4 ≤ s.a.pc := by omega
  obtain ⟨roll, pitch⟩ := h.message late
  obtain ⟨q, hq⟩ := Option.isSome_iff_exists.1 (show (s.a.wm sel).isSome by cases sel; exacts [roll, pitch])
  have he := exec_push_of_some hq
  by_cases room : s.ch.length < s.params.chDepth
  · rw [pushWord_of_room _ room] at he
    refine .of_complete (j := s.a.pc + 1) he hp rfl ?next (h.goto late (Nat.succ_pos _) ?parity)
    case next => rcases hpc with hpc | hpc <;> rw [hpc] <;> rfl
    case parity =>
      have before := h.parity
      rw [List.length_append, List.length_singleton]
      rcases hpc with hpc | hpc <;> simp [hpc] at before ⊢ <;> omega
  · rw [pushWord_of_full _ (Nat.not_lt.1 room)] at he
    exact ⟨s, he, h⟩

theorem keepsCanonA_diag (hpc : s.a.pc = 6) : KeepsCanonA .diag s :=
  .of_complete (m := s.emitA .diag) (j := 7) rfl hp hpc rfl (h.goto (by omega) (by decide) (h.even (by omega)))

/-- The loop-back. -/
theorem keepsCanonA_wait (n : Word) (hpc : s.a.pc = 7) : KeepsCanonA (.wait n) s :=
  .of_complete (m := s.emitA (.wait n)) (j := 1) rfl hp hpc rfl (h.goto (by omega) (by decide) (h.even (by omega)))

end

/-! ## The commands of unit B in the canonical loop (43_sequencers.md R223) -/

/-- The operation answers a next state, and unit B's half of the invariant holds there. -/
def KeepsCanonB (i : Instr) (s : State) : Prop := ∃ t, exec i s = .next t ∧ CanonB t.b t.ghost.histPop

/-- Whole messages have been popped, but between the two `POP`. -/
theorem CanonB.even {b : UnitB} {popped : List Word} (h : CanonB b popped) (hpc : b.pc ≠ 1) :
    popped.length % 2 = 0 := by
  simpa [hpc] using h.parity

section
variable {s : State} {i : Instr}

theorem advanceB_b_of_next {j : Nat} (h : nextIndex s.params.progB s.b.pc = some j) :
    s.advanceB.b = { s.b with pc := j } := by
  simp [h]

/-- An operation of the loop that completes at index `k` goes on at the index after it. -/
theorem KeepsCanonB.of_complete {m : State} {k j : Nat} (he : exec i s = .next m.advanceB)
    (hp : m.params.progB = Config.canonicalProgB) (hk : m.b.pc = k) (hj : nextIndex Config.canonicalProgB k = some j)
    (h : CanonB { m.b with pc := j } m.ghost.histPop) : KeepsCanonB i s := by
  refine ⟨_, he, ?_⟩
  rw [advanceB_b_of_next (by rw [hp, hk, hj])]
  exact h

variable (hp : s.params.progB = Config.canonicalProgB) (h : CanonB s.b s.ghost.histPop)
include hp h

theorem keepsCanonB_pop_roll (hpc : s.b.pc = 0) : KeepsCanonB (.pop .roll) s := by
  cases hc : s.ch with
  | nil => exact ⟨s, execPop_of_empty .roll hc, h⟩
  | cons w ws =>
    have even := h.even (by omega)
    refine .of_complete (j := 1) (exec_pop_of_cons .roll hc) hp hpc rfl
      { st := h.st, decoded := nofun, parity := ?_, popped1 := fun _ => ⟨_, w, rfl, rfl⟩, popped2 := nofun }
    simp
    omega

theorem keepsCanonB_pop_pitch (hpc : s.b.pc = 1) : KeepsCanonB (.pop .pitch) s := by
  cases hc : s.ch with
  | nil => exact ⟨s, execPop_of_empty .pitch hc, h⟩
  | cons w ws =>
    have odd := h.parity
    obtain ⟨popped, r, hr, rx⟩ := h.popped1 hpc
    refine .of_complete (j := 2) (exec_pop_of_cons .pitch hc) hp hpc rfl
      { st := h.st, decoded := nofun, parity := ?_, popped1 := nofun, popped2 := fun _ => ⟨popped, r, w, ?_, rx, rfl⟩ }
    · simp [hpc] at odd ⊢
      omega
    · simp [hr]

theorem keepsCanonB_decode (hpc : s.b.pc = 2) : KeepsCanonB .decode s := by
  obtain ⟨-, r, p, -, rxR, rxP⟩ := h.popped2 hpc.ge
  exact .of_complete (j := 3) (exec_decode_of_words rxR rxP) hp hpc rfl
    { st := h.st
      decoded := fun _ => ⟨rfl, rfl⟩
      parity := h.even (by omega)
      popped1 := nofun
      popped2 := fun _ => h.popped2 hpc.ge }

theorem keepsCanonB_toggle (hpc : s.b.pc = 3) : KeepsCanonB .toggle s :=
  .of_complete (m := { s with b := { s.b with ind := toggled s.b.ind } }.emitB (.ind (toggled s.b.ind))) (j := 4)
    rfl hp hpc rfl
    { st := h.st
      decoded := fun _ => h.decoded hpc.ge
      parity := h.even (by omega)
      popped1 := nofun
      popped2 := fun _ => h.popped2 (by omega) }

/-- The loop-back: the next message begins. -/
theorem keepsCanonB_redraw (hpc : s.b.pc = 4) : KeepsCanonB .redraw s := by
  obtain ⟨hr, hq⟩ := h.decoded (by omega)
  obtain ⟨r, hr⟩ := Option.isSome_iff_exists.1 hr
  obtain ⟨p, hq⟩ := Option.isSome_iff_exists.1 hq
  exact .of_complete (j := 0) (exec_redraw_of_angles hr hq) hp hpc rfl
    { st := h.st, decoded := nofun, parity := h.even (by omega), popped1 := nofun, popped2 := nofun }

end

/-! ## The two loops together (60_exceptions.md R255; 42_channel.md R194) -/

theorem StepsA.busReq {s t : State} (h : StepsA s t) : t.inp.busReq = s.inp.busReq := by
  obtain ⟨m, e, rfl | ⟨rfl, -⟩⟩ := h
  all_goals exact e.busReq

theorem StepsB.busReq {s t : State} (h : StepsB s t) : t.inp.busReq = s.inp.busReq := by
  obtain ⟨m, e, rfl | rfl⟩ := h
  all_goals exact congrArg Inputs.busReq e.inp

section
variable {s : State} {i : Instr}

theorem CanonInv.dropTurn (h : CanonInv s) : CanonInv s.dropTurn := { h with inv := h.inv.of_inp _ }

/-- A unit at index `k` of its loop is at the operation of that index. -/
theorem CanonInv.nextOp_of_pc {u : UnitId} {k : Nat} (h : CanonInv s) (hpc : s.pc u = k)
    (hk : (canonicalOps u)[k]? = some i) : s.nextOp u = some i := by
  have decoded : ((s.params.prog u).cmds.map fun c => (decodeAt u c).toOption) = (canonicalOps u).map some := by
    cases u with
    | A => rw [Params.prog, h.progA, canonicalCmds_decoded.1]
    | B => rw [Params.prog, h.progB, canonicalCmds_decoded.2]
  rw [nextOp_of_decoded decoded, hpc, hk]

/-- The eight commands of unit A, by index. -/
theorem CanonInv.exists_op_A (h : CanonInv s) : ∃ i, s.nextOp .A = some i ∧ KeepsCanonA i s := by
  obtain ⟨inv, hp, -, -, a, -⟩ := canonInv_iff.1 h
  have inside := inv.pcA
  rw [hp] at inside
  match hpc : s.a.pc, inside with
  | 0, _ => exact ⟨_, h.nextOp_of_pc hpc rfl, keepsCanonA_sreset hp a hpc⟩
  | 1, _ => exact ⟨_, h.nextOp_of_pc hpc rfl, keepsCanonA_sread hp a hpc⟩
  | 2, _ => exact ⟨_, h.nextOp_of_pc hpc rfl, keepsCanonA_orient hp a hpc⟩
  | 3, _ => exact ⟨_, h.nextOp_of_pc hpc rfl, keepsCanonA_encode hp a hpc⟩
  | 4, _ => exact ⟨_, h.nextOp_of_pc hpc rfl, keepsCanonA_push hp a _ (.inl hpc)⟩
  | 5, _ => exact ⟨_, h.nextOp_of_pc hpc rfl, keepsCanonA_push hp a _ (.inr hpc)⟩
  | 6, _ => exact ⟨_, h.nextOp_of_pc hpc rfl, keepsCanonA_diag hp a hpc⟩
  | 7, _ => exact ⟨_, h.nextOp_of_pc hpc rfl, keepsCanonA_wait hp a _ hpc⟩

/-- The five commands of unit B, by index. -/
theorem CanonInv.exists_op_B (h : CanonInv s) : ∃ i, s.nextOp .B = some i ∧ KeepsCanonB i s := by
  obtain ⟨inv, -, hp, -, -, b⟩ := canonInv_iff.1 h
  have inside := inv.pcB
  rw [hp] at inside
  match hpc : s.b.pc, inside with
  | 0, _ => exact ⟨_, h.nextOp_of_pc hpc rfl, keepsCanonB_pop_roll hp b hpc⟩
  | 1, _ => exact ⟨_, h.nextOp_of_pc hpc rfl, keepsCanonB_pop_pitch hp b hpc⟩
  | 2, _ => exact ⟨_, h.nextOp_of_pc hpc rfl, keepsCanonB_decode hp b hpc⟩
  | 3, _ => exact ⟨_, h.nextOp_of_pc hpc rfl, keepsCanonB_toggle hp b hpc⟩
  | 4, _ => exact ⟨_, h.nextOp_of_pc hpc rfl, keepsCanonB_redraw hp b hpc⟩

/-- A running unit A's operation leaves unit B's half as it is. -/
theorem CanonInv.exec_A (h : CanonInv s) (run : s.a.st = .run) (hi : i.port = some .A) (k : KeepsCanonA i s) :
    ∃ t, exec i s = .next t ∧ CanonInv t := by
  obtain ⟨inv, progA, progB, noFrame, -, b⟩ := canonInv_iff.1 h
  obtain ⟨t, he, a⟩ := k
  have hs := (exec_steps he).1 (by rw [hi]; nofun)
  obtain ⟨params, hb, -, pop, -⟩ := hs.leaves_B
  exact ⟨t, he, canonInv_iff.2 ⟨inv.stepsA run hs, params ▸ progA, params ▸ progB, hs.busReq.trans noFrame, a,
    by rw [hb, pop]; exact b⟩⟩

/-- Unit B's operation leaves unit A's half as it is. -/
theorem CanonInv.exec_B (h : CanonInv s) (hi : i.port = some .B) (k : KeepsCanonB i s) :
    ∃ t, exec i s = .next t ∧ CanonInv t := by
  obtain ⟨inv, progA, progB, noFrame, a, -⟩ := canonInv_iff.1 h
  obtain ⟨t, he, b⟩ := k
  have hs := (exec_steps he).2 hi
  obtain ⟨params, ha, -, -, push, -⟩ := hs.leaves_A
  exact ⟨t, he, canonInv_iff.2 ⟨inv.stepsB hs, params ▸ progA, params ▸ progB, hs.busReq.trans noFrame,
    by rw [ha, push]; exact a, b⟩⟩

end

/-- Settles O52: unit B always runs and unit A runs or is stalled; a unit that runs is at a command of its loop
(`CanonInv.exists_op_A`, `CanonInv.exists_op_B`), which keeps its own half of the invariant, and the other half too
(`CanonInv.exec_A`, `CanonInv.exec_B`). -/
theorem canonicalLoopsAreNeverRefused : Obligations.CanonicalLoopsAreNeverRefused := by
  intro s h
  have turn : s.turnOf s.nextTurn := ⟨h.noFrame, rfl⟩
  cases hu : s.nextTurn with
  | A =>
    rw [hu] at turn
    cases hst : s.a.st with
    | done => exact absurd hst h.stA
    | stalled => exact ⟨_, step_of_idle turn (by simp [State.running, hst]), h.dropTurn⟩
    | run =>
      obtain ⟨i, hi, k⟩ := h.dropTurn.exists_op_A
      rw [dropTurn_nextOp] at hi
      rw [step_of_nextOp turn (by simp [State.running, hst]) hi]
      exact h.dropTurn.exec_A hst (nextOp_port hi) k
  | B =>
    rw [hu] at turn
    obtain ⟨i, hi, k⟩ := h.dropTurn.exists_op_B
    rw [dropTurn_nextOp] at hi
    rw [step_of_nextOp turn (by simp [State.running, h.stB]) hi]
    exact h.dropTurn.exec_B (nextOp_port hi) k

end Sys2Proof.Machine
end
